-- ==== Sys2Proof/Word.lean ====
section
/-! DEFINITION. The machine's word: ten digit positions and a sign (spec/00_scope.md R8, R9; spec/30_encoding.md R100). -/

namespace Sys2Proof

/-- A sign position holds one of three values; `dontCare` is the spec's `'_'` (R8, R100). -/
inductive Sign where
  | plus
  | minus
  | dontCare
  deriving DecidableEq, Repr

/-- A digit position holds a decimal digit or a non-decimal ("invalid") value (R100; log entry 32). -/
inductive Digit where
  | dec (v : Fin 10)
  | invalid
  deriving DecidableEq, Repr

/-- A word: digits 10 (most significant) down to 1, and a sign (R8). -/
structure Word where
  d10 : Digit
  d9 : Digit
  d8 : Digit
  d7 : Digit
  d6 : Digit
  d5 : Digit
  d4 : Digit
  d3 : Digit
  d2 : Digit
  d1 : Digit
  sign : Sign
  deriving DecidableEq, Repr

/-- The number a decimal digit stands for; an invalid digit stands for none and counts as 0 here, and no
meaning reads the value of an invalid digit. -/
def Digit.val : Digit → Nat
  | .dec v => v.val
  | .invalid => 0

/-- A digit position holds one of 0 to 9. -/
def Digit.isDecimal : Digit → Bool
  | .dec _ => true
  | .invalid => false

/-- The decimal digit `n mod 10`. -/
def Digit.ofNat (n : Nat) : Digit :=
  .dec ⟨n % 10, Nat.mod_lt n (by decide)⟩

/-- Ten zero digits with sign `s`. -/
def Word.zero (s : Sign) : Word :=
  ⟨.ofNat 0, .ofNat 0, .ofNat 0, .ofNat 0, .ofNat 0, .ofNat 0, .ofNat 0, .ofNat 0, .ofNat 0, .ofNat 0, s⟩

/-- `+0`: ten zero digits with sign `'+'`. -/
abbrev Word.plusZero : Word := Word.zero .plus

end Sys2Proof
end

