-- ==== Sys2Proof/Syntax.lean ====
section
/-! DEFINITION. The 23 operations as syntax, one constructor per row of spec/opcode_table.json (spec/30_encoding.md R104). -/

namespace Sys2Proof

/-- The 23 operations (R104). -/
inductive Operation where
  | noop
  | stop
  | au
  | su
  | div
  | al
  | sl
  | aabl
  | sabl
  | mult
  | stl
  | stu
  | stda
  | stia
  | std
  | rau
  | rsu
  | divru
  | ral
  | rsl
  | raabl
  | rsabl
  | ld
  deriving DecidableEq, Repr

/-- An instruction: the operation, its data address `da` and its next-instruction address `ia` (R101). -/
inductive Instr where
  | noop (da ia : Nat)
  | stop (da ia : Nat)
  | au (da ia : Nat)
  | su (da ia : Nat)
  | div (da ia : Nat)
  | al (da ia : Nat)
  | sl (da ia : Nat)
  | aabl (da ia : Nat)
  | sabl (da ia : Nat)
  | mult (da ia : Nat)
  | stl (da ia : Nat)
  | stu (da ia : Nat)
  | stda (da ia : Nat)
  | stia (da ia : Nat)
  | std (da ia : Nat)
  | rau (da ia : Nat)
  | rsu (da ia : Nat)
  | divru (da ia : Nat)
  | ral (da ia : Nat)
  | rsl (da ia : Nat)
  | raabl (da ia : Nat)
  | rsabl (da ia : Nat)
  | ld (da ia : Nat)
  deriving DecidableEq, Repr

/-- The data address field. -/
def Instr.da : Instr → Nat
  | .noop da _ => da
  | .stop da _ => da
  | .au da _ => da
  | .su da _ => da
  | .div da _ => da
  | .al da _ => da
  | .sl da _ => da
  | .aabl da _ => da
  | .sabl da _ => da
  | .mult da _ => da
  | .stl da _ => da
  | .stu da _ => da
  | .stda da _ => da
  | .stia da _ => da
  | .std da _ => da
  | .rau da _ => da
  | .rsu da _ => da
  | .divru da _ => da
  | .ral da _ => da
  | .rsl da _ => da
  | .raabl da _ => da
  | .rsabl da _ => da
  | .ld da _ => da

/-- The next-instruction address field. -/
def Instr.ia : Instr → Nat
  | .noop _ ia => ia
  | .stop _ ia => ia
  | .au _ ia => ia
  | .su _ ia => ia
  | .div _ ia => ia
  | .al _ ia => ia
  | .sl _ ia => ia
  | .aabl _ ia => ia
  | .sabl _ ia => ia
  | .mult _ ia => ia
  | .stl _ ia => ia
  | .stu _ ia => ia
  | .stda _ ia => ia
  | .stia _ ia => ia
  | .std _ ia => ia
  | .rau _ ia => ia
  | .rsu _ ia => ia
  | .divru _ ia => ia
  | .ral _ ia => ia
  | .rsl _ ia => ia
  | .raabl _ ia => ia
  | .rsabl _ ia => ia
  | .ld _ ia => ia

/-- The operation of an instruction (R104). -/
def Instr.operation : Instr → Operation
  | .noop _ _ => .noop
  | .stop _ _ => .stop
  | .au _ _ => .au
  | .su _ _ => .su
  | .div _ _ => .div
  | .al _ _ => .al
  | .sl _ _ => .sl
  | .aabl _ _ => .aabl
  | .sabl _ _ => .sabl
  | .mult _ _ => .mult
  | .stl _ _ => .stl
  | .stu _ _ => .stu
  | .stda _ _ => .stda
  | .stia _ _ => .stia
  | .std _ _ => .std
  | .rau _ _ => .rau
  | .rsu _ _ => .rsu
  | .divru _ _ => .divru
  | .ral _ _ => .ral
  | .rsl _ _ => .rsl
  | .raabl _ _ => .raabl
  | .rsabl _ _ => .rsabl
  | .ld _ _ => .ld

end Sys2Proof
end

