-- ==== Sys2Proof/Config.lean ====
section
/-! DEFINITION. The fixed parameters of the hardware, the parameters the spec leaves open as an argument of the model, and the one free value (spec/00_scope.md R6, R7). The defaults stand in Sys2Proof/Machine/Params.lean and, for the operation codes, in Sys2Proof/Decode.lean. -/

namespace Sys2Proof

/-- DRUM_WORDS (R6): drum addresses are 0 to 1999. -/
@[simp] abbrev Config.drumWords : Nat := 2000

/-- DRUM_POSITIONS (R6): the drum index runs over 0 to 49. -/
@[simp] abbrev Config.drumPositions : Nat := 50

/-- The address of the storage-entry switches (R6). -/
@[simp] abbrev Config.storageEntryAddress : Nat := 8000

/-- The address of the distributor (R6). -/
@[simp] abbrev Config.distributorAddress : Nat := 8001

/-- The address of the lower accumulator (R6). -/
@[simp] abbrev Config.lowerAddress : Nat := 8002

/-- The address of the upper accumulator (R6). -/
@[simp] abbrev Config.upperAddress : Nat := 8003

/-- 10^10: one more than the largest magnitude of a word of WORD_DIGITS digits (R6, R8). -/
@[simp] abbrev Config.wordBase : Nat := 10000000000

/-- 10^20: one more than the largest magnitude of the ACC_DIGITS-digit accumulator (R6, R9). -/
@[simp] abbrev Config.accBase : Nat := 100000000000000000000

/-- DC_DELAY_SECONDS (R6). -/
@[simp] abbrev Config.dcDelaySeconds : Nat := 180

/-- BLOWER_RUNON_SECONDS (R6). -/
@[simp] abbrev Config.blowerRunOnSeconds : Nat := 300

/-- `is_blower_on` on a machine that was never powered, where BLOWER_BEFORE_FIRST_POWER_ON is left unspecified (R7,
spec/60_exceptions.md R289): a free value, which nothing constrains (log entry 22). -/
opaque Config.blowerBeforeFirstPowerOn : Bool

/-! ### The open parameters -/

/-- OPCODE_MAP: which two-digit code selects which operation, as (code, operation) pairs (spec/30_encoding.md R105). -/
abbrev OpcodeMap := List (Nat × Operation)

/-- A sign for each pair of the signs `'+'` and `'-'`: whether it is minus. -/
structure SignRule where
  minusAtPlusPlus : Bool
  minusAtPlusMinus : Bool
  minusAtMinusPlus : Bool
  minusAtMinusMinus : Bool
  deriving DecidableEq, Repr

/-- The parameters the spec leaves open (R7). They are an argument of the model: the step reads them from the state and
nothing ever writes them (log entry 36). -/
structure Params where
  /-- OPCODE_MAP (R105). -/
  opcodeMap : OpcodeMap
  /-- STOP_HALT_CYCLES: cycles between the decode of a halting STOP and its return (spec/40_cycle_controller.md R141). -/
  stopHaltCycles : Nat
  /-- STOP_PERFORMS_LOOKAHEAD: whether a halting STOP runs I2 and I3 (R141). -/
  stopPerformsLookahead : Bool
  /-- ZERO_SIGN: the sign of an exactly zero sum, of the lower accumulator's previous sign and the operand's sign
  (spec/42_add_subtract.md R183). -/
  zeroSign : SignRule
  /-- MULT_SIGN: the sign of a product, of the distributor's sign and the sign the lower accumulator had before the
  multiplication (spec/43_multiply_divide.md R223, spec/90_conflicts.md C5). -/
  multSign : SignRule
  /-- QUOTIENT_OVERFLOW_HALTS: whether a quotient overflow ends program_start (R220). -/
  quotientOverflowHalts : Bool
  /-- STDA_DEST, as the lowest of the four destination digits (spec/41_load_store.md R168). -/
  stdaDest : Nat
  /-- STIA_DEST, as the lowest of the four destination digits (R169). -/
  stiaDest : Nat
  /-- BLOWER_BEFORE_FIRST_POWER_ON; none where it is left unspecified (R289). -/
  blowerBeforeFirstPowerOn : Option Bool
  /-- RUN_TIME_WIDTH, in decimal digits; none for a counter without bound (spec/10_state.md R31; log entry 29). -/
  runTimeWidth : Option Nat
  deriving DecidableEq, Repr

end Sys2Proof
end

