-- ==== Sys2Proof/WellFormed.lean ====
section
/-! DEFINITION. Which instructions the word format can hold (spec/30_encoding.md R101, R108): both addresses have four decimal digits; and which parameters the spec allows (R105). -/

namespace Sys2Proof

/-- An address has four decimal digits: 0 to 9999 (spec/20_memory.md R70). -/
def addressWellFormed (a : Nat) : Bool := decide (a < 10000)

/-- Both address fields of an instruction are four-digit addresses; any four-digit value can stand in them (R108). -/
def Instr.wf (i : Instr) : Bool := addressWellFormed i.da && addressWellFormed i.ia

/-- OPCODE_MAP is an injective partial map from two-digit codes to the operations: no code and no operation stands in it
twice (R105). -/
def OpcodeMap.wf (m : OpcodeMap) : Bool :=
  m.all (fun p => decide (p.1 < 100)) && decide (m.map Prod.fst).Nodup && decide (m.map Prod.snd).Nodup

/-- Parameters the spec's rules have a meaning for: an opcode map as R105 describes it, and four destination digits that
are digits of a word (spec/41_load_store.md R168, R169). -/
def Params.wf (p : Params) : Bool :=
  p.opcodeMap.wf && decide (1 ≤ p.stdaDest ∧ p.stdaDest ≤ 7) && decide (1 ≤ p.stiaDest ∧ p.stiaDest ≤ 7)

end Sys2Proof
end

