-- ==== Sys2Proof/Decode.lean ====
section
/-! DEFINITION. The word's digits as numbers and fields, the decoder and the encoder (spec/30_encoding.md R101 to R113, spec/00_scope.md R8). -/

namespace Sys2Proof

/-! ### A word's digits as numbers -/

/-- `w.d[10:9]`, the operation code (R101). -/
def Word.opCode (w : Word) : Nat := w.d10.val * 10 + w.d9.val

/-- `w.d[8:5]`, the data address (R101). -/
def Word.dataAddress (w : Word) : Nat := w.d8.val * 1000 + w.d7.val * 100 + w.d6.val * 10 + w.d5.val

/-- `w.d[4:1]`, the next-instruction address (R101). -/
def Word.instructionAddress (w : Word) : Nat := w.d4.val * 1000 + w.d3.val * 100 + w.d2.val * 10 + w.d1.val

/-- `mag(w)` = `w.d[10:1]` (R8). -/
def Word.mag (w : Word) : Nat :=
  w.opCode * 100000000 + w.dataAddress * 10000 + w.instructionAddress

/-- A word is valid iff every digit is in 0 to 9 (R100). -/
def Word.valid (w : Word) : Bool :=
  w.d10.isDecimal && w.d9.isDecimal && w.d8.isDecimal && w.d7.isDecimal && w.d6.isDecimal &&
  w.d5.isDecimal && w.d4.isDecimal && w.d3.isDecimal && w.d2.isDecimal && w.d1.isDecimal

/-- The word whose ten digits are those of `n mod 10^10`, with sign `s`. -/
def Word.ofNat (s : Sign) (n : Nat) : Word where
  d10 := .ofNat (n / 1000000000)
  d9 := .ofNat (n / 100000000)
  d8 := .ofNat (n / 10000000)
  d7 := .ofNat (n / 1000000)
  d6 := .ofNat (n / 100000)
  d5 := .ofNat (n / 10000)
  d4 := .ofNat (n / 1000)
  d3 := .ofNat (n / 100)
  d2 := .ofNat (n / 10)
  d1 := .ofNat n
  sign := s

/-! ### Decoding -/

/-- Why a word is no instruction. -/
inductive DecodeError where
  /-- Some digit position holds a non-decimal value (R103). -/
  | invalidDigit
  /-- The operation code is outside OPCODE_MAP (R109). -/
  | unassignedCode (code : Nat)
  deriving DecidableEq, Repr

/-- OPCODE_MAP at its default (R104; log entry 5). -/
def OpcodeMap.standard : OpcodeMap :=
  [(0, .noop),
   (1, .stop),
   (10, .au),
   (11, .su),
   (14, .div),
   (15, .al),
   (16, .sl),
   (17, .aabl),
   (18, .sabl),
   (19, .mult),
   (20, .stl),
   (21, .stu),
   (22, .stda),
   (23, .stia),
   (24, .std),
   (60, .rau),
   (61, .rsu),
   (64, .divru),
   (65, .ral),
   (66, .rsl),
   (67, .raabl),
   (68, .rsabl),
   (69, .ld)]

/-- The operation a code selects; a code outside the map selects none (R105, R109). -/
def OpcodeMap.operationOf : OpcodeMap → Nat → Option Operation
  | [], _ => none
  | (c, o) :: m, code => if code = c then some o else OpcodeMap.operationOf m code

/-- The code of an operation, none where the map has no code for it (R105). -/
def OpcodeMap.codeOf : OpcodeMap → Operation → Option Nat
  | [], _ => none
  | (c, o) :: m, operation => if operation = o then some c else OpcodeMap.codeOf m operation

/-- The instruction of an operation and its two addresses (R101). -/
def Operation.instr : Operation → Nat → Nat → Instr
  | .noop, da, ia => .noop da ia
  | .stop, da, ia => .stop da ia
  | .au, da, ia => .au da ia
  | .su, da, ia => .su da ia
  | .div, da, ia => .div da ia
  | .al, da, ia => .al da ia
  | .sl, da, ia => .sl da ia
  | .aabl, da, ia => .aabl da ia
  | .sabl, da, ia => .sabl da ia
  | .mult, da, ia => .mult da ia
  | .stl, da, ia => .stl da ia
  | .stu, da, ia => .stu da ia
  | .stda, da, ia => .stda da ia
  | .stia, da, ia => .stia da ia
  | .std, da, ia => .std da ia
  | .rau, da, ia => .rau da ia
  | .rsu, da, ia => .rsu da ia
  | .divru, da, ia => .divru da ia
  | .ral, da, ia => .ral da ia
  | .rsl, da, ia => .rsl da ia
  | .raabl, da, ia => .raabl da ia
  | .rsabl, da, ia => .rsabl da ia
  | .ld, da, ia => .ld da ia

/-- The instruction with a given code and addresses (R102, R104). -/
def decodeFields (m : OpcodeMap) (code da ia : Nat) : Option Instr :=
  (m.operationOf code).map fun o => o.instr da ia

/-- The decoder: the three fields are taken digit for digit (R102) and the sign is not decoded (R103). -/
def decode (m : OpcodeMap) (w : Word) : Except DecodeError Instr :=
  if w.valid then
    match decodeFields m w.opCode w.dataAddress w.instructionAddress with
    | some i => .ok i
    | none => .error (.unassignedCode w.opCode)
  else .error .invalidDigit

/-! ### Encoding -/

/-- The word of an instruction under an opcode map: code in digits 10-9, data address in 8-5, next-instruction address
in 4-1 (R101), sign `'+'` by convention (R111); none where the map has no code for the operation. -/
def encode (m : OpcodeMap) (i : Instr) : Option Word :=
  (m.codeOf i.operation).map fun code => Word.ofNat .plus (code * 100000000 + i.da * 10000 + i.ia)

/-! ### The host's numbering of a table word -/

/-- A digit from a four-bit group: 0 to 9 are the decimal digits, any other value is non-decimal. -/
def Digit.ofNibble (n : Nat) : Digit :=
  if n % 16 < 10 then .ofNat (n % 16) else .invalid

/-- The word whose digit p stands in bits 4p-1 to 4p-4 of `bits`, as the ten-character strings of the table write it
when each character is one hexadecimal digit; the sign, which the table does not compare, is `'+'` (R113; log entry 7). -/
def Word.ofTableBits (nbits bits : Nat) : Word :=
  let b := bits % 2 ^ nbits
  { d10 := .ofNibble (b / 68719476736)
    d9 := .ofNibble (b / 4294967296)
    d8 := .ofNibble (b / 268435456)
    d7 := .ofNibble (b / 16777216)
    d6 := .ofNibble (b / 1048576)
    d5 := .ofNibble (b / 65536)
    d4 := .ofNibble (b / 4096)
    d3 := .ofNibble (b / 256)
    d2 := .ofNibble (b / 16)
    d1 := .ofNibble b
    sign := .plus }

/-- The instruction the decoder reads from a table word under the default opcode map. -/
def decodeTableWord (nbits w : Nat) : Option Instr :=
  match decode OpcodeMap.standard (Word.ofTableBits nbits w) with
  | .ok i => some i
  | .error _ => none

end Sys2Proof
end

