-- ==== Sys2Proof/Machine/Params.lean ====
section
/-! DEFINITION. The rules of sign the parameters name, and the default of every open parameter (spec/00_scope.md R7, spec/92_eei_decisions.md; log entries 5, 10 to 14, 29). -/

namespace Sys2Proof.Machine

/-- The sign of a rule at two signs; a rule has none for the sign `'_'`, which no arithmetic reads (spec/42_add_subtract.md
R185). -/
def signBy (r : SignRule) : Sign → Sign → Sign
  | .plus, .plus => if r.minusAtPlusPlus then .minus else .plus
  | .plus, .minus => if r.minusAtPlusMinus then .minus else .plus
  | .minus, .plus => if r.minusAtMinusPlus then .minus else .plus
  | .minus, .minus => if r.minusAtMinusMinus then .minus else .plus
  | .dontCare, _ => .dontCare
  | _, .dontCare => .dontCare

/-- The rule "the first of the two signs": ZERO_SIGN keeps the lower accumulator's sign, MULT_SIGN is the distributor's. -/
def keepFirstSign : SignRule where
  minusAtPlusPlus := false
  minusAtPlusMinus := false
  minusAtMinusPlus := true
  minusAtMinusMinus := true

/-- The rule of signs of exact multiplication, the other reading of MULT_SIGN (spec/90_conflicts.md C5). -/
def productSign : SignRule where
  minusAtPlusPlus := false
  minusAtPlusMinus := true
  minusAtMinusPlus := true
  minusAtMinusMinus := false

/-- Every open parameter at the default the spec gives it (R7). -/
def defaultParams : Params where
  opcodeMap := OpcodeMap.standard
  stopHaltCycles := 2
  stopPerformsLookahead := false
  zeroSign := keepFirstSign
  multSign := keepFirstSign
  quotientOverflowHalts := false
  stdaDest := 1
  stiaDest := 7
  blowerBeforeFirstPowerOn := none
  runTimeWidth := none

end Sys2Proof.Machine
end

