-- ==== Sys2Proof/Machine/State.lean ====
section
/-! DEFINITION. The machine's state as plain data, its value at construction, and the reasons a step can stop (spec/10_state.md R20 to R58). -/

namespace Sys2Proof.Machine

/-- `half_cycle` (R37). -/
inductive HalfCycle where
  | instruction
  | data
  deriving DecidableEq, Repr

/-- `control_mode` (R40). -/
inductive ControlMode where
  | run
  | half
  | addressStop
  | manual
  deriving DecidableEq, Repr

/-- `half_cycle_mode` (R41). -/
inductive HalfCycleMode where
  | run
  | halfStep
  deriving DecidableEq, Repr

/-- `display_mode` (R42). -/
inductive DisplayMode where
  | distributor
  | lowerAccumulator
  | upperAccumulator
  | programRegister
  | readInStorage
  | readOutStorage
  deriving DecidableEq, Repr

/-- `programmed_mode` (R43). -/
inductive ProgrammedMode where
  | stop
  | run
  deriving DecidableEq, Repr

/-- The drum: the listed cells, as (address, word) pairs, addresses strictly rising and no listed word equal to what an
unlisted cell reads as; the operations on it are in Machine/Ops.lean (log entries 1, 2). -/
abbrev Memory := List (Nat × Word)

/-- The state: everything the spec gives the machine (R20 to R57). A register that can be blank is an Option (R11). -/
structure State where
  /-- The open parameters (spec/00_scope.md R7): the argument of the model, no register of the machine. The step and the
  host calls read it and never write it (log entry 36). -/
  params : Params
  /-- DIST (R21). -/
  dist : Word
  /-- UP (R22). -/
  up : Word
  /-- LO (R23). -/
  lo : Word
  /-- PR (R26). -/
  pr : Option Word
  /-- OP (R27). -/
  op : Option Nat
  /-- AR, the program counter (R28). -/
  ar : Option Nat
  /-- DRUM[0..1999] (R29). -/
  drum : Memory
  /-- drum_index (R30). -/
  drumIndex : Nat
  /-- run_time (R31). -/
  runTime : Nat
  /-- overflow (R32). -/
  overflow : Bool
  /-- storage_selection, the stored flag (R33). -/
  storageSelection : Bool
  /-- clocking (R34). -/
  clocking : Bool
  /-- error_sense (R35). -/
  errorSense : Bool
  /-- half_cycle (R37). -/
  halfCycle : HalfCycle
  /-- control_mode (R40). -/
  controlMode : ControlMode
  /-- half_cycle_mode (R41). -/
  halfCycleMode : HalfCycleMode
  /-- display_mode (R42). -/
  displayMode : DisplayMode
  /-- programmed_mode (R43). -/
  programmedMode : ProgrammedMode
  /-- error_mode, a value of an enumeration the spec does not list (R44; log entry 21). -/
  errorMode : Nat
  /-- SE, the storage-entry value (R45). -/
  se : Word
  /-- AE, the address-entry value (R46). -/
  ae : Option Nat
  /-- The next-instruction cursor (R50). -/
  ic : Nat
  /-- The operation cursor (R51). -/
  oc : Nat
  /-- restart (R52). -/
  restart : Bool
  /-- restart_seen (R53). -/
  restartSeen : Bool
  /-- shift_count (R54). -/
  shiftCount : Nat
  /-- loop_count (R55). -/
  loopCount : Nat
  /-- fill_started (R56). -/
  fillStarted : Bool
  /-- power (R57). -/
  power : Bool
  /-- dc, "DC-ready" (R57). -/
  dc : Bool
  /-- master_disabled (R57). -/
  masterDisabled : Bool
  /-- elapsed simulated seconds (R57). -/
  elapsed : Nat
  /-- dc_auto_fired (R57). -/
  dcAutoFired : Bool
  /-- powered_off_once (R57). -/
  poweredOffOnce : Bool
  deriving DecidableEq, Repr

/-- Why the machine stops with no successor state. None is an event of the machine: each marks a point where the spec
gives the hardware no behaviour (spec/60_exceptions.md R268). Each is safe: nothing can be proved of what follows. -/
inductive Fault where
  /-- A fetch, load or manual read-out from address `a` outside the valid set (spec/20_memory.md R82). Raised by
  `memRead`. Safe. -/
  | invalidAddress (a : Nat)
  /-- A fetch, or a manual read-in or read-out, through a blank address register (R82, spec/44_console_operations.md
  R231, R232). Safe. -/
  | blankAddress
  /-- The data half-cycle of a blank operation register or of a code outside OPCODE_MAP
  (spec/40_cycle_controller.md R136). Safe. -/
  | unassignedOperation (code : Option Nat)
  /-- An instruction word with a non-decimal digit, at the step that splits it (spec/30_encoding.md R103). Safe. -/
  | invalidInstructionWord
  /-- Arithmetic on a word with a non-decimal digit or on a sign `'_'` that the arithmetic reads
  (spec/42_add_subtract.md R185). Safe. -/
  | invalidOperand
  /-- A half-cycle that does not end: raised by the cycle loops only from sequencer counters or cursors that no run
  leaves, where the spec's own pseudocode never returns (log entry 20). Safe. -/
  | noCompletion
  deriving DecidableEq, Repr

/-- Why a step has no meaning. -/
inductive Refusal where
  /-- An instruction whose meaning is not written; raised by no arm of `exec`. Safe. -/
  | notModelled (mnemonic : String)
  /-- `program_start` on a machine that is not ready: the spec makes readiness a premise and refuses the call
  (spec/60_exceptions.md R291). Raised by `step`. Safe. -/
  | notReady
  deriving DecidableEq, Repr

/-- The machine at construction (R58, spec/70_reset_and_hazards.md R300): power off, registers +0 or blank, counters 0,
flags false; the open parameters have their defaults (R7; log entry 36). The spec gives the modes, SE and the drum cells no
value; the values here are the model's choice (log entries 2, 3). -/
def State.reset : State where
  params := defaultParams
  dist := Word.plusZero
  up := Word.plusZero
  lo := Word.plusZero
  pr := none
  op := none
  ar := none
  drum := []
  drumIndex := 0
  runTime := 0
  overflow := false
  storageSelection := false
  clocking := false
  errorSense := false
  halfCycle := .instruction
  controlMode := .run
  halfCycleMode := .run
  displayMode := .distributor
  programmedMode := .stop
  errorMode := 0
  se := Word.plusZero
  ae := none
  ic := 0
  oc := 0
  restart := false
  restartSeen := false
  shiftCount := 0
  loopCount := 0
  fillStarted := false
  power := false
  dc := false
  masterDisabled := false
  elapsed := 0
  dcAutoFired := false
  poweredOffOnce := false

end Sys2Proof.Machine
end

