-- ==== Sys2Proof/Machine/Operands.lean ====
section
/-! DEFINITION. Operand forms: signs, effective operands, digit positions and the four-digit field copy (spec/00_scope.md R9, spec/42_add_subtract.md R184, spec/41_load_store.md R161). -/

namespace Sys2Proof.Machine

/-- `sgn` of a sign (R9). `sgn('_')` has no value: no meaning reads it (R185). -/
def signValue : Sign → Int
  | .plus => 1
  | .minus => -1
  | .dontCare => 0

/-- The sign flipped between `'+'` and `'-'` (R9). -/
def signFlip : Sign → Sign
  | .plus => .minus
  | .minus => .plus
  | .dontCare => .dontCare

/-- A sign the arithmetic has a value for: `'+'` or `'-'` (R9). -/
def signed : Sign → Bool
  | .plus => true
  | .minus => true
  | .dontCare => false

/-- `w` with sign `s`. -/
def withSign (s : Sign) (w : Word) : Word := { w with sign := s }

/-- `neg(w)` (R9). -/
def negWord (w : Word) : Word := withSign (signFlip w.sign) w

/-- `abs(w)` (R9). -/
def absWord (w : Word) : Word := withSign .plus w

/-- How an operation forms its effective operand from the distributor (R184). -/
inductive OperandForm where
  | plain
  | negated
  | absolute
  | negatedAbsolute
  deriving DecidableEq, Repr

/-- The effective operand `E` (R184). -/
def effectiveOperand : OperandForm → Word → Word
  | .plain, w => w
  | .negated, w => negWord w
  | .absolute, w => absWord w
  | .negatedAbsolute, w => negWord (absWord w)

/-- The half of the accumulator an operation works on: the spec's `to_upper` (R181). -/
inductive Half where
  | upper
  | lower
  deriving DecidableEq, Repr

/-- A word the arithmetic is specified on: ten decimal digits and a sign `'+'` or `'-'` (R185). -/
def arithmeticWord (w : Word) : Bool := w.valid && signed w.sign

/-- `w.d[i]` for i from 1 to 10 (R8). -/
def digitOf (w : Word) : Nat → Digit
  | 1 => w.d1
  | 2 => w.d2
  | 3 => w.d3
  | 4 => w.d4
  | 5 => w.d5
  | 6 => w.d6
  | 7 => w.d7
  | 8 => w.d8
  | 9 => w.d9
  | 10 => w.d10
  | _ => .invalid

/-- `w` with digit i, from 1 to 10, replaced (R8). -/
def setDigit (w : Word) (i : Nat) (d : Digit) : Word :=
  match i with
  | 1 => { w with d1 := d }
  | 2 => { w with d2 := d }
  | 3 => { w with d3 := d }
  | 4 => { w with d4 := d }
  | 5 => { w with d5 := d }
  | 6 => { w with d6 := d }
  | 7 => { w with d7 := d }
  | 8 => { w with d8 := d }
  | 9 => { w with d9 := d }
  | 10 => { w with d10 := d }
  | _ => w

/-- `dst.d[dstLo+3:dstLo] <- src.d[lo+3:lo]`, digit for digit: the other six digits and the sign of `dst` are kept (R161,
R168 to R170). -/
def copyAddressField (src : Word) (lo : Nat) (dst : Word) (dstLo : Nat) : Word :=
  setDigit (setDigit (setDigit (setDigit dst
    dstLo (digitOf src lo))
    (dstLo + 1) (digitOf src (lo + 1)))
    (dstLo + 2) (digitOf src (lo + 2)))
    (dstLo + 3) (digitOf src (lo + 3))

end Sys2Proof.Machine
end

