-- ==== Sys2Proof/Machine/Flags.lean ====
section
/-! DEFINITION. The adder's value, carry and sign, the multiply overflow check, and the error queries (spec/42_add_subtract.md R181 to R183, spec/43_multiply_divide.md R214, spec/60_exceptions.md R260 to R266). -/

namespace Sys2Proof.Machine

/-- `magA`, the magnitude of the 20-digit view upper‖lower (spec/00_scope.md R9). -/
def accMag (s : State) : Nat := s.up.mag * Config.wordBase + s.lo.mag

/-- `V` of R181: the accumulator's value, signed by the lower half (spec/10_state.md R24). -/
def accValue (s : State) : Int := signValue s.lo.sign * (accMag s : Int)

/-- `O` of R181: the operand zero-extended to 20 digits, shifted into the upper half for an upper operation. -/
def operandValue (e : Word) : Half → Int
  | .upper => signValue e.sign * ((e.mag * Config.wordBase : Nat) : Int)
  | .lower => signValue e.sign * (e.mag : Int)

/-- `carry > 0` of R181: the sum's magnitude does not fit 20 digits. -/
def sumOverflows (r : Int) : Bool := decide (Config.accBase ≤ r.natAbs)

/-- `S'` of R181: the sign of the sum, with the rule ZERO_SIGN for a sum that is exactly zero (R183; log entry 11). -/
def sumSign (zeroSign : SignRule) (r : Int) (previous operand : Sign) : Sign :=
  if 0 < r then .plus else if r < 0 then .minus else signBy zeroSign previous operand

/-- `A.d[11+s]`, the lowest digit of the multiplier that is unused after `s` shifts (R214). -/
def guardDigit (magA s : Nat) : Nat := magA / 10 ^ (10 + s) % 10

/-- An address of the valid set {0..1999} ∪ {8000..8003} (spec/20_memory.md R71). -/
def validAddress (a : Nat) : Bool :=
  decide (a < Config.drumWords) || (decide (Config.storageEntryAddress ≤ a) && decide (a ≤ Config.upperAddress))

/-- The storage-selection query: the stored flag, or a non-blank AR outside the valid set (R262). -/
def storageSelectionError (s : State) : Bool :=
  s.storageSelection || match s.ar with
    | none => false
    | some a => !validAddress a

/-- The clocking query (spec/44_console_operations.md R245). -/
def clockingError (s : State) : Bool := s.clocking

/-- The error-sense query (R245). -/
def errorSenseError (s : State) : Bool := s.errorSense

/-- The validity query: some digit of DIST, UP, LO or a non-blank PR is not decimal (R245, spec/10_state.md R36). -/
def validityError (s : State) : Bool :=
  !s.dist.valid || !s.up.valid || !s.lo.valid || match s.pr with
    | none => false
    | some w => !w.valid

end Sys2Proof.Machine
end

