-- ==== Sys2Proof/Machine/Ops.lean ====
section
/-! DEFINITION. The shared operations: the drum, the rotational gate, the storage primitives, the machine cycle, the storage micro-steps and the adder (spec/20_memory.md, spec/41_load_store.md R161 to R163, spec/42_add_subtract.md R181, R182, R188). The machine has no exception entry and no return from one (spec/60_exceptions.md R295, R296), so there is no operation for either. -/

namespace Sys2Proof.Machine

/-! ### The drum -/

/-- What a drum cell that is not listed reads as: +0 (the spec gives none; log entry 2). -/
def unlistedCell : Word := Word.plusZero

/-- The word in cell `a`. -/
def Memory.read : Memory → Nat → Word
  | [], _ => unlistedCell
  | (b, w) :: m, a => if a = b then w else Memory.read m a

/-- Put the pair in its place in front of the cells of higher address, or leave it out where it is what an unlisted
cell reads as. -/
def Memory.place (a : Nat) (w : Word) (m : Memory) : Memory :=
  if w = unlistedCell then m else (a, w) :: m

/-- The drum with cell `a` holding `w`, in canonical form. -/
def Memory.write : Memory → Nat → Word → Memory
  | [], a, w => Memory.place a w []
  | (b, v) :: m, a, w =>
    if a < b then Memory.place a w ((b, v) :: m)
    else if a = b then Memory.place a w m
    else (b, v) :: Memory.write m a w

/-- Every listed address is above `lo`, addresses rise strictly, all are drum addresses, and no listed word is what an
unlisted cell reads as. -/
def Memory.wfAbove (lo : Nat) : Memory → Bool
  | [] => true
  | (a, w) :: m =>
    decide (lo ≤ a) && decide (a < Config.drumWords) && decide (w ≠ unlistedCell) && Memory.wfAbove (a + 1) m

/-- The canonical form of a drum. -/
def Memory.wf (m : Memory) : Bool := Memory.wfAbove 0 m

/-! ### Time -/

/-- The cycle counter one cycle on: without bound, or on RUN_TIME_WIDTH digits (spec/10_state.md R31; log entry 29). -/
def nextRunTime (p : Params) (t : Nat) : Nat :=
  match p.runTimeWidth with
  | none => t + 1
  | some digits => (t + 1) % 10 ^ digits

/-- `Tick()`: the end of every machine cycle (spec/40_cycle_controller.md R121). -/
def tick (s : State) : State :=
  { s with runTime := nextRunTime s.params s.runTime, drumIndex := (s.drumIndex + 1) % Config.drumPositions }

/-- `n` cycles that do nothing but pass. -/
def tickN : Nat → State → State
  | 0, s => s
  | n + 1, s => tickN n (tick s)

/-- `Gate(a)`: an address at or above 8000 is always reachable, any other when its rotational position is under the
head (R73, R74). -/
def gate (s : State) (a : Nat) : Bool :=
  decide (Config.storageEntryAddress ≤ a) || decide (s.drumIndex = a % Config.drumPositions)

/-! ### The storage primitives -/

/-- `MemRead(a)` (R75); an address outside the valid set has no word (R82). -/
def memRead (s : State) (a : Nat) : Except Fault Word :=
  if a = Config.storageEntryAddress then .ok s.se
  else if a = Config.distributorAddress then .ok s.dist
  else if a = Config.lowerAddress then .ok s.lo
  else if a = Config.upperAddress then .ok s.up
  else if a < Config.drumWords then .ok (Memory.read s.drum a)
  else .error (.invalidAddress a)

/-- `MemWrite(a, w)`: the special addresses are routed first, then the drum; any other address writes nothing and sets
the storage-selection flag (R76). -/
def memWrite (s : State) (a : Nat) (w : Word) : State :=
  if a = Config.storageEntryAddress then { s with se := w }
  else if a = Config.distributorAddress then { s with dist := w }
  else if a = Config.lowerAddress then { s with lo := w }
  else if a = Config.upperAddress then { s with up := w }
  else if a < Config.drumWords then { s with drum := Memory.write s.drum a w }
  else { s with storageSelection := true }

/-! ### Micro-steps -/

/-- What one call of a micro-step answers: it is done, it is to be called again in the next cycle, it ends
program_start after this cycle (only with QUOTIENT_OVERFLOW_HALTS), or the spec gives it no behaviour. -/
inductive MicroResult where
  | done (s : State)
  | notYet (s : State)
  | halt (s : State)
  | fault (f : Fault)
  deriving DecidableEq, Repr

/-- The storage form of the load-distributor step (R161): polled while the gate is false, then the whole word. -/
def loadFromStorage (s : State) : MicroResult :=
  match s.ar with
  | none => .fault .blankAddress
  | some a =>
    if gate s a then
      match memRead s a with
      | .ok w => .done { s with dist := w }
      | .error f => .fault f
    else .notYet s

/-- The store step (R163): the capacity check comes first, so 8000 to 8003 are refused like every address at or above
2000; otherwise the store is gated like a read. -/
def storeDistributor (s : State) : MicroResult :=
  match s.ar with
  | none => .fault .blankAddress
  | some a =>
    if Config.drumWords ≤ a then .done { s with storageSelection := true }
    else if gate s a then .done { s with drum := Memory.write s.drum a s.dist }
    else .notYet s

/-! ### The adder -/

/-- The operands of an addition have digits and signs the arithmetic is specified on; the adder never reads UP.sign (R185). -/
def adderOperandsOk (s : State) : Bool := arithmeticWord s.dist && s.up.valid && arithmeticWord s.lo

/-- `AddToAccumulator(E, to_upper)` (R181, R182): exact sum, low 20 digits kept, sign to LO, UP.sign unchanged, carry
sets overflow. -/
def addToAccumulator (e : Word) (half : Half) (s : State) : State :=
  let r := accValue s + operandValue e half
  let m := r.natAbs % Config.accBase
  { s with
    up := Word.ofNat s.up.sign (m / Config.wordBase)
    lo := Word.ofNat (sumSign s.params.zeroSign r s.lo.sign e.sign) (m % Config.wordBase)
    overflow := s.overflow || sumOverflows r }

/-- `ResetLoad(E, to_upper)` (R188): the word goes to its half, the other half is zero with the word's sign. -/
def resetLoad (e : Word) : Half → State → State
  | .upper, s => { s with up := e, lo := Word.zero e.sign }
  | .lower, s => { s with lo := e, up := Word.zero e.sign }

end Sys2Proof.Machine
end

