-- ==== Sys2Proof/Machine/Sequencer.lean ====
section
/-! DEFINITION. The accumulate micro-step and the multiply and divide micro-steps, one call a machine cycle (spec/42_add_subtract.md R186, spec/43_multiply_divide.md R210 to R222). -/

namespace Sys2Proof.Machine

/-- Whether an operation of sequence 2 adds into the accumulator or loads it (R184). -/
inductive AccumulateKind where
  | accumulate
  | reset
  deriving DecidableEq, Repr

/-! ### Accumulate -/

/-- The work of the completing call: the sum or the load, or no value where the operands have none (R185). -/
def accumulateEffect (kind : AccumulateKind) (form : OperandForm) (half : Half) (s : State) : Except Fault State :=
  match kind with
  | .accumulate =>
    if adderOperandsOk s then .ok (addToAccumulator (effectiveOperand form s.dist) half s)
    else .error .invalidOperand
  | .reset =>
    if arithmeticWord s.dist then .ok (resetLoad (effectiveOperand form s.dist) half s)
    else .error .invalidOperand

/-- `Accumulate()` (R186): it begins on an even run_time, completes one tick later and then raises `restart`. -/
def accumulateStep (kind : AccumulateKind) (form : OperandForm) (half : Half) (s : State) : MicroResult :=
  if s.fillStarted then
    match accumulateEffect kind form half { s with fillStarted := false } with
    | .ok t => .done { t with restart := true }
    | .error f => .fault f
  else if s.runTime % 2 = 1 then .notYet s
  else .notYet { s with fillStarted := true }

/-! ### The 20-digit shift -/

/-- `A.d[20]`, the digit that the next shift moves out of the register. -/
def topDigit (s : State) : Nat := s.up.d10.val

/-- `ShiftLeft(A)`: every digit one place up, a zero in at the right, signs not shifted. -/
def shiftLeft (s : State) : State :=
  let m := accMag s * 10 % Config.accBase
  { s with
    up := Word.ofNat s.up.sign (m / Config.wordBase)
    lo := Word.ofNat s.lo.sign (m % Config.wordBase) }

/-- No multiply or divide call has been made yet (R211, R218). -/
def sequencerIdle (s : State) : Bool := decide (s.shiftCount = 0) && decide (s.loopCount = 0)

/-! ### Multiply -/

/-- The product's sign: MULT_SIGN of the distributor's sign and the lower accumulator's, by default the distributor's
(R211, R223; log entry 12). -/
def multiplySign (s : State) : Sign := signBy s.params.multSign s.dist.sign s.lo.sign

/-- First entry: both sign positions of the accumulator take the product's sign (R211). -/
def multiplyEntry (s : State) : State :=
  if sequencerIdle s then { s with up := withSign (multiplySign s) s.up, lo := withSign (multiplySign s) s.lo } else s

/-- A shift call: the top multiplier digit becomes the loop count (R212). -/
def multiplyShift (s : State) : State :=
  { shiftLeft s with loopCount := topDigit s, shiftCount := s.shiftCount + 1 }

/-- An add call: the ordinary adder adds the distributor once into the lower half, and a change of the guard digit flags
overflow (R213, R214). Two choices of the model, log entry 12: the word added has the product's sign, which UP.sign holds
from first entry on and which under the default MULT_SIGN is the distributor's own; and a sum that is exactly zero takes
in LO the sign ZERO_SIGN gives, as the adder has it (spec/42_add_subtract.md R181, R183), where R216 and R227 give both
halves the product's sign: under the default ZERO_SIGN the two agree. -/
def multiplyAdd (s : State) : State :=
  let t := addToAccumulator (withSign s.up.sign s.dist) .lower s
  let changed := decide (s.shiftCount < 10) &&
    decide (guardDigit (accMag t) s.shiftCount ≠ guardDigit (accMag s) s.shiftCount)
  { t with overflow := t.overflow || changed, loopCount := s.loopCount - 1 }

/-- The closing test of every call (R215). -/
def multiplyFinish (s : State) : MicroResult :=
  if s.shiftCount = 10 ∧ s.loopCount = 0 then .done { s with shiftCount := 0 } else .notYet s

/-- `Multiply()`, one call (R210); operands with an invalid digit, or a sign '_' in the distributor or in LO, have no
product (spec/70_reset_and_hazards.md R322, spec/42_add_subtract.md R185; log entry 17). -/
def multiplyStep (s : State) : MicroResult :=
  let t := multiplyEntry s
  if adderOperandsOk s then
    multiplyFinish (if t.loopCount = 0 then multiplyShift t else multiplyAdd t)
  else .fault .invalidOperand

/-! ### Divide -/

/-- First entry: LO.sign becomes the quotient's sign; UP.sign is not written (R218). -/
def divideEntry (s : State) : State :=
  if sequencerIdle s then
    { s with lo := withSign (if s.dist.sign = s.lo.sign then .plus else .minus) s.lo }
  else s

/-- A shift call: the digit shifted out is the guard digit, held as one more in the loop count (R218). -/
def divideShift (s : State) : State :=
  { shiftLeft s with loopCount := topDigit s + 1, shiftCount := s.shiftCount + 1 }

/-- `T`, the 11-digit partial dividend: the guard digit and the ten digits of UP (R217, R219). -/
def partialDividend (s : State) : Nat := (s.loopCount - 1) * Config.wordBase + s.up.mag

/-- A trial that succeeds: the quotient digit goes up by one, the guard digit and UP take the difference (R219). -/
def divideSubtract (s : State) : State :=
  let t := partialDividend s - s.dist.mag
  { s with
    lo := Word.ofNat s.lo.sign (s.lo.mag + 1)
    up := Word.ofNat s.up.sign (t % Config.wordBase)
    loopCount := t / Config.wordBase + 1 }

/-- Quotient overflow: the operation ends with the accumulator as it stands (R220); with QUOTIENT_OVERFLOW_HALTS it
also ends program_start. -/
def quotientOverflow (s : State) : MicroResult :=
  let t := { s with overflow := true, shiftCount := 0, loopCount := 0 }
  if s.params.quotientOverflowHalts then .halt t else .done t

/-- A trial that fails and is undone; after the tenth digit it ends the operation, and divide-and-reset-upper then
zeroes UP with the quotient's sign (R221, R222). -/
def divideRestore (resetUpper : Bool) (s : State) : MicroResult :=
  if s.shiftCount = 10 then
    .done { s with
      loopCount := 0
      shiftCount := 0
      up := if resetUpper then Word.zero s.lo.sign else s.up }
  else .notYet { s with loopCount := 0 }

/-- One trial subtraction (R219). -/
def divideTrial (resetUpper : Bool) (s : State) : MicroResult :=
  if s.dist.mag ≤ partialDividend s then
    if s.lo.d1.val = 9 then quotientOverflow s else .notYet (divideSubtract s)
  else divideRestore resetUpper s

/-- `Divide()`, one call (R217); operands with an invalid digit, or a sign '_' in the distributor or in LO, have no
quotient (spec/70_reset_and_hazards.md R322, spec/42_add_subtract.md R185; log entry 17). -/
def divideStep (resetUpper : Bool) (s : State) : MicroResult :=
  let t := divideEntry s
  if adderOperandsOk s then
    if t.loopCount = 0 then .notYet (divideShift t) else divideTrial resetUpper t
  else .fault .invalidOperand

end Sys2Proof.Machine
end

