-- ==== Sys2Proof/Machine/Cycle.lean ====
section
/-! DEFINITION. The micro-steps of the eight sequences and the data half-cycle that runs a sequence beside the lookahead (spec/40_cycle_controller.md R130 to R135). -/

namespace Sys2Proof.Machine

/-- The micro-steps of the sequence table (R134). The load-distributor step has a form of its own for each operation
that does not read storage (spec/41_load_store.md R161). -/
inductive MicroOp where
  /-- "enable distributor" and "enable position" (R135). -/
  | enable
  /-- "release interlock" (R135). -/
  | release
  /-- "load distributor", storage form. -/
  | loadStorage
  /-- "load distributor" of STL. -/
  | loadLower
  /-- "load distributor" of STU. -/
  | loadUpper
  /-- "load distributor" of STDA. -/
  | loadDataField
  /-- "load distributor" of STIA. -/
  | loadInstructionField
  /-- "store distributor to storage", "store to storage". -/
  | store
  | accumulate (kind : AccumulateKind) (form : OperandForm) (half : Half)
  | multiply
  | divide (resetUpper : Bool)
  deriving DecidableEq, Repr

/-- One call of a micro-step. -/
def runMicro : MicroOp → State → MicroResult
  | .enable, s => .done s
  | .release, s => .done s
  | .loadStorage, s => loadFromStorage s
  | .loadLower, s => .done { s with dist := s.lo }
  | .loadUpper, s => .done { s with dist := s.up }
  | .loadDataField, s => .done { s with dist := copyAddressField s.lo 5 s.dist s.params.stdaDest }
  | .loadInstructionField, s => .done { s with dist := copyAddressField s.lo 1 s.dist s.params.stiaDest }
  | .store, s => storeDistributor s
  | .accumulate kind form half, s => accumulateStep kind form half s
  | .multiply, s => multiplyStep s
  | .divide resetUpper, s => divideStep resetUpper s

/-- The state in which the data half-cycle of an operation with data address `da` begins: the data address in AR and the
half-cycle and cursor as I1 leaves them (R126, R123), `oc`, `restart` and `restart_seen` cleared (R130). OP keeps the code
that I1 split off, whatever OPCODE_MAP makes of it. The step hands `exec` states that already hold the data address, the
half-cycle and the cursor; log entry 9. -/
def beginData (da : Nat) (s : State) : State :=
  { s with ar := some da, halfCycle := .data, ic := 2, oc := 0, restart := false, restartSeen := false }

/-- One call of the lookahead: I2, `AR <- IA` and half-cycle back to instruction (R127), then I3, enable (R128). -/
def lookahead (ia : Nat) (s : State) : State :=
  match s.ic with
  | 2 => { s with ar := some ia, halfCycle := .instruction, ic := 3 }
  | 3 => { s with ic := 4 }
  | _ => s

/-- The operation's part of a cycle: one call of the step at the cursor, or nothing once the sequence is complete. -/
def operationCall (seq : List MicroOp) (s : State) : MicroResult :=
  match seq[s.oc]? with
  | none => .notYet s
  | some m =>
    match runMicro m s with
    | .done t => .notYet { t with oc := t.oc + 1 }
    | r => r

/-- The rest of a cycle: the lookahead where it was allowed when the cycle began, the recognition of `restart`, and
`Tick()` (R131, R132). -/
def endCycle (ia : Nat) (allowed recognising : Bool) (s : State) : State :=
  let t := if allowed then lookahead ia s else s
  tick { t with restartSeen := t.restartSeen || recognising }

/-- One cycle of the data half-cycle (R131). -/
def dataCycle (seq : List MicroOp) (ia : Nat) (s : State) : MicroResult :=
  let allowed := decide (seq.length ≤ s.oc) || s.restartSeen
  let recognising := s.restart && !s.restartSeen
  match operationCall seq s with
  | .done t => .notYet (endCycle ia allowed recognising t)
  | .notYet t => .notYet (endCycle ia allowed recognising t)
  | .halt t => .halt (tick t)
  | .fault f => .fault f

/-- The data half-cycle from a state in it, for at most `fuel` cycles (R131, R133). -/
def dataLoop : Nat → List MicroOp → Nat → State → Host.Outcome State Fault Refusal
  | 0, _, _, _ => .fault .noCompletion
  | fuel + 1, seq, ia, s =>
    if seq.length ≤ s.oc ∧ s.ic = 4 then .next s
    else
      match dataCycle seq ia s with
      | .done t => dataLoop fuel seq ia t
      | .notYet t => dataLoop fuel seq ia t
      | .halt t => .next t
      | .fault f => .fault f

/-- More cycles than any data half-cycle takes (R146, spec/70_reset_and_hazards.md R325; log entry 20). -/
def dataCycleBound : Nat := 400

/-- The data half-cycle of an operation: micro-step sequence, data address, next-instruction address (R130 to
R133). -/
def dataHalfCycle (seq : List MicroOp) (da ia : Nat) (s : State) : Host.Outcome State Fault Refusal :=
  dataLoop dataCycleBound seq ia (beginData da s)

end Sys2Proof.Machine
end

