-- ==== Sys2Proof/Machine/AddSubtract.lean ====
section
/-! DEFINITION. Sequence 2: the twelve add and subtract operations (spec/42_add_subtract.md R184, R186, R190 to R201). -/

namespace Sys2Proof.Machine

/-- Sequence 2: enable distributor, load distributor, accumulate, release interlock (spec/40_cycle_controller.md R134). -/
def accumulateSequence (kind : AccumulateKind) (form : OperandForm) (half : Half) : List MicroOp :=
  [.enable, .loadStorage, .accumulate kind form half, .release]

/-- AU (R190). -/
def execAu (da ia : Nat) (s : State) : Host.Outcome State Fault Refusal :=
  dataHalfCycle (accumulateSequence .accumulate .plain .upper) da ia s

/-- SU (R191). -/
def execSu (da ia : Nat) (s : State) : Host.Outcome State Fault Refusal :=
  dataHalfCycle (accumulateSequence .accumulate .negated .upper) da ia s

/-- AL (R192). -/
def execAl (da ia : Nat) (s : State) : Host.Outcome State Fault Refusal :=
  dataHalfCycle (accumulateSequence .accumulate .plain .lower) da ia s

/-- SL (R193). -/
def execSl (da ia : Nat) (s : State) : Host.Outcome State Fault Refusal :=
  dataHalfCycle (accumulateSequence .accumulate .negated .lower) da ia s

/-- AABL (R194). -/
def execAabl (da ia : Nat) (s : State) : Host.Outcome State Fault Refusal :=
  dataHalfCycle (accumulateSequence .accumulate .absolute .lower) da ia s

/-- SABL (R195). -/
def execSabl (da ia : Nat) (s : State) : Host.Outcome State Fault Refusal :=
  dataHalfCycle (accumulateSequence .accumulate .negatedAbsolute .lower) da ia s

/-- RAU (R196). -/
def execRau (da ia : Nat) (s : State) : Host.Outcome State Fault Refusal :=
  dataHalfCycle (accumulateSequence .reset .plain .upper) da ia s

/-- RSU (R197). -/
def execRsu (da ia : Nat) (s : State) : Host.Outcome State Fault Refusal :=
  dataHalfCycle (accumulateSequence .reset .negated .upper) da ia s

/-- RAL (R198). -/
def execRal (da ia : Nat) (s : State) : Host.Outcome State Fault Refusal :=
  dataHalfCycle (accumulateSequence .reset .plain .lower) da ia s

/-- RSL (R199). -/
def execRsl (da ia : Nat) (s : State) : Host.Outcome State Fault Refusal :=
  dataHalfCycle (accumulateSequence .reset .negated .lower) da ia s

/-- RAABL (R200). -/
def execRaabl (da ia : Nat) (s : State) : Host.Outcome State Fault Refusal :=
  dataHalfCycle (accumulateSequence .reset .absolute .lower) da ia s

/-- RSABL (R201). -/
def execRsabl (da ia : Nat) (s : State) : Host.Outcome State Fault Refusal :=
  dataHalfCycle (accumulateSequence .reset .negatedAbsolute .lower) da ia s

end Sys2Proof.Machine
end

