-- ==== Sys2Proof/Machine/Control.lean ====
section
/-! DEFINITION. Sequence 0: NOOP and STOP (spec/40_cycle_controller.md R140 to R143). -/

namespace Sys2Proof.Machine

/-- NOOP (R140): the data half-cycle runs the lookahead only. -/
def execNoop (da ia : Nat) (s : State) : Host.Outcome State Fault Refusal :=
  dataHalfCycle [] da ia s

/-- A halting STOP (R141): STOP_HALT_CYCLES cycles pass and the lookahead does not run, so AR keeps the STOP's data
address and the half-cycle stays data; with STOP_PERFORMS_LOOKAHEAD the cycles are those of I2 and I3. -/
def haltingStop (da ia : Nat) (s : State) : Host.Outcome State Fault Refusal :=
  if s.params.stopPerformsLookahead then dataHalfCycle [] da ia s
  else .next (tickN s.params.stopHaltCycles (beginData da s))

/-- STOP (R141, R142): it halts when programmed_mode is stop and otherwise continues as a NOOP. -/
def execStop (da ia : Nat) (s : State) : Host.Outcome State Fault Refusal :=
  match s.programmedMode with
  | .stop => haltingStop da ia s
  | .run => dataHalfCycle [] da ia s

end Sys2Proof.Machine
end

