-- ==== Sys2Proof/Machine/LoadStore.lean ====
section
/-! DEFINITION. Sequences 1, 3, 4 and 5: load and store (spec/41_load_store.md R160 to R172). -/

namespace Sys2Proof.Machine

/-- LD (R164): sequence 1. -/
def execLd (da ia : Nat) (s : State) : Host.Outcome State Fault Refusal :=
  dataHalfCycle [.enable, .loadStorage] da ia s

/-- STD (R165): sequence 3. -/
def execStd (da ia : Nat) (s : State) : Host.Outcome State Fault Refusal :=
  dataHalfCycle [.enable, .store] da ia s

/-- STL (R166): sequence 4. -/
def execStl (da ia : Nat) (s : State) : Host.Outcome State Fault Refusal :=
  dataHalfCycle [.enable, .loadLower, .store] da ia s

/-- STU (R167): sequence 4, with UP's own sign. -/
def execStu (da ia : Nat) (s : State) : Host.Outcome State Fault Refusal :=
  dataHalfCycle [.enable, .loadUpper, .store] da ia s

/-- STDA (R168): sequence 5, which has no enable step. -/
def execStda (da ia : Nat) (s : State) : Host.Outcome State Fault Refusal :=
  dataHalfCycle [.loadDataField, .store] da ia s

/-- STIA (R169): sequence 5. -/
def execStia (da ia : Nat) (s : State) : Host.Outcome State Fault Refusal :=
  dataHalfCycle [.loadInstructionField, .store] da ia s

end Sys2Proof.Machine
end

