-- ==== Sys2Proof/Machine/MultiplyDivide.lean ====
section
/-! DEFINITION. Sequences 6 and 7: MULT, DIV and DIVRU (spec/43_multiply_divide.md R223 to R228). -/

namespace Sys2Proof.Machine

/-- MULT (R223): sequence 6. -/
def execMult (da ia : Nat) (s : State) : Host.Outcome State Fault Refusal :=
  dataHalfCycle [.enable, .loadStorage, .multiply, .release] da ia s

/-- DIV (R224): sequence 7. -/
def execDiv (da ia : Nat) (s : State) : Host.Outcome State Fault Refusal :=
  dataHalfCycle [.enable, .loadStorage, .divide false, .release] da ia s

/-- DIVRU (R225): sequence 7; on completion the upper accumulator is zeroed with the quotient's sign. -/
def execDivru (da ia : Nat) (s : State) : Host.Outcome State Fault Refusal :=
  dataHalfCycle [.enable, .loadStorage, .divide true, .release] da ia s

end Sys2Proof.Machine
end

