-- ==== Sys2Proof/Machine/Dispatch.lean ====
section
/-! DEFINITION. The dispatch: one arm per operation (spec/30_encoding.md R104). exec is the data half-cycle of an instruction. -/

namespace Sys2Proof.Machine

def exec (i : Instr) (s : State) : Host.Outcome State Fault Refusal :=
  match i with
  | .noop da ia => Sys2Proof.Machine.execNoop da ia s
  | .stop da ia => Sys2Proof.Machine.execStop da ia s
  | .au da ia => Sys2Proof.Machine.execAu da ia s
  | .su da ia => Sys2Proof.Machine.execSu da ia s
  | .div da ia => Sys2Proof.Machine.execDiv da ia s
  | .al da ia => Sys2Proof.Machine.execAl da ia s
  | .sl da ia => Sys2Proof.Machine.execSl da ia s
  | .aabl da ia => Sys2Proof.Machine.execAabl da ia s
  | .sabl da ia => Sys2Proof.Machine.execSabl da ia s
  | .mult da ia => Sys2Proof.Machine.execMult da ia s
  | .stl da ia => Sys2Proof.Machine.execStl da ia s
  | .stu da ia => Sys2Proof.Machine.execStu da ia s
  | .stda da ia => Sys2Proof.Machine.execStda da ia s
  | .stia da ia => Sys2Proof.Machine.execStia da ia s
  | .std da ia => Sys2Proof.Machine.execStd da ia s
  | .rau da ia => Sys2Proof.Machine.execRau da ia s
  | .rsu da ia => Sys2Proof.Machine.execRsu da ia s
  | .divru da ia => Sys2Proof.Machine.execDivru da ia s
  | .ral da ia => Sys2Proof.Machine.execRal da ia s
  | .rsl da ia => Sys2Proof.Machine.execRsl da ia s
  | .raabl da ia => Sys2Proof.Machine.execRaabl da ia s
  | .rsabl da ia => Sys2Proof.Machine.execRsabl da ia s
  | .ld da ia => Sys2Proof.Machine.execLd da ia s

end Sys2Proof.Machine
end

