-- ==== Sys2Proof/Machine/Controller.lean ====
section
/-! DEFINITION. The instruction cycle controller: the instruction half-cycle, the choice of the data half-cycle, the outer loop's body and the manual program_start (spec/40_cycle_controller.md R120 to R130, spec/44_console_operations.md R230 to R232). -/

namespace Sys2Proof.Machine

/-! ### The instruction sequence -/

/-- I0, fetch (R125). -/
def fetchStep (s : State) : MicroResult :=
  match s.ar with
  | none => .fault .blankAddress
  | some a =>
    if gate s a then
      match memRead s a with
      | .ok w => .done { s with pr := some w }
      | .error f => .fault f
    else .notYet s

/-- I1, split operation and data address (R126); a word with an invalid digit has no defined decode
(spec/30_encoding.md R103). -/
def splitStep (s : State) : MicroResult :=
  match s.pr with
  | none => .fault .invalidInstructionWord
  | some w =>
    if w.valid then .done { s with op := some w.opCode, ar := some w.dataAddress, halfCycle := .data }
    else .fault .invalidInstructionWord

/-- I2, next-instruction address (R127), as the instruction half-cycle would call it. -/
def nextAddressStep (s : State) : MicroResult :=
  match s.pr with
  | none => .fault .invalidInstructionWord
  | some w =>
    if w.valid then .done { s with ar := some w.instructionAddress, halfCycle := .instruction }
    else .fault .invalidInstructionWord

/-- The step of the instruction sequence at cursor `ic` (R124). -/
def instructionStep (s : State) : MicroResult :=
  match s.ic with
  | 0 => fetchStep s
  | 1 => splitStep s
  | 2 => nextAddressStep s
  | _ => .done s

/-- The loop of the instruction half-cycle, for at most `fuel` cycles (R129). -/
def instructionLoop : Nat → State → Except Fault State
  | 0, _ => .error .noCompletion
  | fuel + 1, s =>
    if s.halfCycle = .instruction ∧ s.ic < 4 then
      match instructionStep s with
      | .done t => instructionLoop fuel (tick { t with ic := t.ic + 1 })
      | .notYet t => instructionLoop fuel (tick t)
      | .halt t => .ok (tick t)
      | .fault f => .error f
    else .ok s

/-- More cycles than any instruction half-cycle takes: at most 49 waits and two steps (R77, R129; log entry 20). -/
def instructionCycleBound : Nat := 64

/-- The instruction half-cycle (R129). -/
def instructionHalfCycle (s : State) : Except Fault State :=
  instructionLoop instructionCycleBound (if s.ic = 4 then { s with ic := 0 } else s)

/-! ### The data half-cycle -/

/-- The instruction whose data half-cycle is due: the operation of OP, the data address in AR and the successor in PR
(R130, R127); a blank or unassigned code has none (R136). -/
def dueInstruction (s : State) : Except Fault Instr :=
  match s.op with
  | none => .error (.unassignedOperation none)
  | some code =>
    match decodeFields s.params.opcodeMap code 0 0 with
    | none => .error (.unassignedOperation (some code))
    | some _ =>
      match s.ar with
      | none => .error .blankAddress
      | some da =>
        match s.pr with
        | none => .error .invalidInstructionWord
        | some w =>
          if w.valid then
            match decodeFields s.params.opcodeMap code da w.instructionAddress with
            | some i => .ok i
            | none => .error (.unassignedOperation (some code))
          else .error .invalidInstructionWord

/-- The data half-cycle of the instruction that is due. -/
def dueDataHalfCycle (s : State) : Host.Outcome State Fault Refusal :=
  match dueInstruction s with
  | .ok i => exec i s
  | .error f => .fault f

/-! ### program_start -/

/-- One pass of the outer loop of program_start in an automatic mode (R122, R123). -/
def automaticPass (s : State) : Host.Outcome State Fault Refusal :=
  match s.halfCycle with
  | .data => dueDataHalfCycle s
  | .instruction =>
    match instructionHalfCycle s with
    | .error f => .fault f
    | .ok t =>
      match t.halfCycleMode with
      | .halfStep => .next t
      | .run => dueDataHalfCycle t

/-- program_start in manual control mode (spec/44_console_operations.md R230 to R232): no cycle passes and no gate is
consulted. -/
def manualProgramStart (s : State) : Host.Outcome State Fault Refusal :=
  let t := { s with dist := s.se }
  match s.displayMode with
  | .readInStorage =>
    match s.ar with
    | none => .fault .blankAddress
    | some a => .next (memWrite t a t.dist)
  | .readOutStorage =>
    match s.ar with
    | none => .fault .blankAddress
    | some a =>
      match memRead t a with
      | .ok w => .next { t with dist := w }
      | .error f => .fault f
  | .distributor => .next t
  | .lowerAccumulator => .next t
  | .upperAccumulator => .next t
  | .programRegister => .next t

/-- `is_ready()` (spec/60_exceptions.md R290). -/
def isReady (s : State) : Bool := s.power && s.dc

/-- One step of program_start: refused where the machine is not ready (R291), the one-shot in manual mode, one pass of
the outer loop in the three automatic modes (R120; R271 to R274, log entry 21). -/
def programStartPass (s : State) : Host.Outcome State Fault Refusal :=
  if isReady s then
    match s.controlMode with
    | .manual => manualProgramStart s
    | .run => automaticPass s
    | .half => automaticPass s
    | .addressStop => automaticPass s
  else .refused .notReady

/-! ### Placing the next instruction -/

/-- The address the next fetch reads: AR where an instruction half-cycle is due at a valid address, else the
storage-entry address a reset in an automatic mode puts there (spec/70_reset_and_hazards.md R303). -/
def fetchAddress (s : State) : Nat :=
  match s.halfCycle, s.ar with
  | .instruction, some a => if validAddress a then a else Config.storageEntryAddress
  | _, _ => Config.storageEntryAddress

/-- A ready machine stays as it is; any other is made ready as power_on and 180 seconds make it (R281, R283). -/
def makeReady (s : State) : State :=
  if isReady s then s
  else { s with power := true, dc := true, masterDisabled := false, elapsed := Config.dcDelaySeconds, dcAutoFired := true }

/-- `s` with the word `w` where the next step fetches, an automatic mode without half-steps, and the instruction
half-cycle due at its fetch (spec/70_reset_and_hazards.md R310; log entry 30). -/
def placeForFetch (w : Word) (s : State) : State :=
  let t := makeReady s
  let a := fetchAddress s
  memWrite
    { t with
      controlMode := if s.controlMode = .manual then .run else s.controlMode
      halfCycleMode := .run
      halfCycle := .instruction
      ic := 0
      ar := some a }
    a w

end Sys2Proof.Machine
end

