-- ==== Sys2Proof/Machine/Step.lean ====
section
/-! DEFINITION. One step of the machine: one pass of program_start (spec/40_cycle_controller.md R120, R122; log entry 8). -/

namespace Sys2Proof.Machine

/-- One step: a call of program_start up to the end of one instruction, of one half-cycle in half-step mode, or of the
manual one-shot. -/
def step (s : State) : Host.Outcome State Fault Refusal := programStartPass s

/-- `s` with the table word `w` of `nbits` bits placed where the next step fetches its instruction (log entries 7, 30). -/
def State.withFetchWord (s : State) (nbits w : Nat) : State := placeForFetch (Word.ofTableBits nbits w) s

end Sys2Proof.Machine
end

