-- ==== Sys2Proof/Machine/Power.lean ====
section
/-! DEFINITION. The power state machine (spec/60_exceptions.md R280 to R292). -/

namespace Sys2Proof.Machine

/-- `power_on` (R281). -/
def powerOn (s : State) : State :=
  if s.power || s.masterDisabled then s else { s with elapsed := 0, power := true, dcAutoFired := false }

/-- `power_off` (R282); `powered_off_once` records an off that followed an on (R289). -/
def powerOff (s : State) : State :=
  { s with elapsed := 0, power := false, dc := false, poweredOffOnce := s.poweredOffOnce || s.power }

/-- `step(seconds)` (R283). -/
def passSeconds (seconds : Nat) (s : State) : State :=
  let t := { s with elapsed := s.elapsed + seconds }
  if t.power && !t.dcAutoFired && decide (Config.dcDelaySeconds ≤ t.elapsed) then
    { t with dc := true, dcAutoFired := true }
  else t

/-- `dc_on` (R284). -/
def dcOn (s : State) : State :=
  if s.power && decide (Config.dcDelaySeconds ≤ s.elapsed) then { s with dc := true } else s

/-- `dc_off` (R285). -/
def dcOff (s : State) : State := { s with dc := false }

/-- `master_power_off` (R286). -/
def masterPowerOff (s : State) : State := { powerOff s with masterDisabled := true }

/-- `is_on()` (R288). -/
def isOn (s : State) : Bool := s.power

/-- BLOWER_BEFORE_FIRST_POWER_ON, a free value where the parameter is left unspecified (R289, spec/00_scope.md R7; log entry
22). -/
def blowerUnpowered (p : Params) : Bool := p.blowerBeforeFirstPowerOn.getD Config.blowerBeforeFirstPowerOn

/-- `is_blower_on()` (R289): before the first power_off that follows a power_on the spec leaves the run-on open
(BLOWER_BEFORE_FIRST_POWER_ON), and that the 300 seconds bound it there too is the model's choice (log entry 22). -/
def isBlowerOn (s : State) : Bool :=
  s.power || (!s.masterDisabled && (s.poweredOffOnce || blowerUnpowered s.params) &&
    decide (s.elapsed < Config.blowerRunOnSeconds))

end Sys2Proof.Machine
end

