-- ==== Sys2Proof/Machine/Resets.lean ====
section
/-! DEFINITION. The five resets (spec/70_reset_and_hazards.md R301 to R307, spec/10_state.md R58). -/

namespace Sys2Proof.Machine

/-- What the two resets that name an entry point put into AR (R301, R303, R305). -/
def resetAddress : ControlMode → Option Nat
  | .manual => none
  | .run => some Config.storageEntryAddress
  | .half => some Config.storageEntryAddress
  | .addressStop => some Config.storageEntryAddress

/-- `program_reset` (R301). -/
def programReset (s : State) : State :=
  { s with
    pr := none
    op := none
    ar := resetAddress s.controlMode
    storageSelection := false
    clocking := false
    halfCycle := .instruction
    runTime := 0
    ic := 0
    restart := false
    restartSeen := false
    fillStarted := false
    shiftCount := 0
    loopCount := 0 }

/-- `accumulator_reset` (R302). -/
def accumulatorReset (s : State) : State :=
  { s with
    dist := Word.plusZero
    up := Word.plusZero
    lo := Word.plusZero
    overflow := false
    storageSelection := false
    clocking := false }

/-- `error_reset` (R304). -/
def errorReset (s : State) : State := { s with storageSelection := false, clocking := false }

/-- `error_sense_reset` (R304). -/
def errorSenseReset (s : State) : State := { s with errorSense := false }

/-- `computer_reset` (R305): the three resets in order; the entry address is forced again in the automatic modes. -/
def computerReset (s : State) : State :=
  let t := errorSenseReset (accumulatorReset (programReset s))
  match t.controlMode with
  | .manual => t
  | .run => { t with ar := some Config.storageEntryAddress }
  | .half => { t with ar := some Config.storageEntryAddress }
  | .addressStop => { t with ar := some Config.storageEntryAddress }

end Sys2Proof.Machine
end

