-- ==== Sys2Proof/Machine/Console.lean ====
section
/-! DEFINITION. The console operations, the queries, the harness bypass, every host call as data, and a whole program_start (spec/44_console_operations.md, spec/40_cycle_controller.md R122, R145). -/

namespace Sys2Proof.Machine

/-! ### transfer and the setters -/

/-- `transfer()` (R233). -/
def transfer (s : State) : State :=
  match s.controlMode with
  | .manual => { s with ar := s.ae }
  | .run => s
  | .half => s
  | .addressStop => s

/-- Leaving manual mode between the two half-cycles of an instruction (R236; log entry 26). -/
def resynchronises (new : ControlMode) (s : State) : Bool :=
  decide (s.controlMode = .manual) && decide (new ≠ .manual) && decide (s.halfCycle = .data)

/-- The setter of control_mode (R236). -/
def setControlMode (new : ControlMode) (s : State) : State :=
  let t :=
    if resynchronises new s then { s with halfCycle := .instruction, op := none, ar := none, ic := 0 } else s
  { t with controlMode := new }

/-- The setter of half_cycle_mode (R234). -/
def setHalfCycleMode (m : HalfCycleMode) (s : State) : State := { s with halfCycleMode := m }

/-- The setter of display_mode (R234). -/
def setDisplayMode (m : DisplayMode) (s : State) : State := { s with displayMode := m }

/-- The setter of programmed_mode (R234). -/
def setProgrammedMode (m : ProgrammedMode) (s : State) : State := { s with programmedMode := m }

/-- The setter of error_mode (R234, spec/10_state.md R44). -/
def setErrorMode (m : Nat) (s : State) : State := { s with errorMode := m }

/-- The setter of the storage-entry value (R235). -/
def setStorageEntry (w : Word) (s : State) : State := { s with se := w }

/-- The setter of the address-entry value (R235): any four-digit address. -/
def setAddressEntry (a : Nat) (s : State) : State := { s with ae := some a }

/-! ### Display and queries -/

/-- What the display shows: a word, or a blank word with a sign (R241; log entry 27). -/
inductive Displayed where
  | word (w : Word)
  | blank (sign : Sign)
  deriving DecidableEq, Repr

/-- `display()` (R241). -/
def display (s : State) : Displayed :=
  match s.displayMode with
  | .distributor => .word s.dist
  | .lowerAccumulator => .word s.lo
  | .upperAccumulator => .word s.up
  | .programRegister =>
    match s.pr with
    | some w => .word (withSign .dontCare w)
    | none => .blank .dontCare
  | .readInStorage => .word s.dist
  | .readOutStorage => .word s.dist

/-- `operation_register()` (R242). -/
def operationRegister (s : State) : Option Nat := s.op

/-- `address_register()` (R242). -/
def addressRegister (s : State) : Option Nat := s.ar

/-- `data_address()` (R243). -/
def dataAddressQuery (s : State) : Bool := decide (s.halfCycle = .data)

/-- `instruction_address()` (R243). -/
def instructionAddressQuery (s : State) : Bool := decide (s.halfCycle = .instruction)

/-- `overflow()` (R244). -/
def overflowQuery (s : State) : Bool := s.overflow

/-- `run_time()` (R244). -/
def runTimeQuery (s : State) : Nat := s.runTime

/-! ### The harness bypass -/

/-- `get_drum(a)`: a drum cell, without the gate (R248, spec/20_memory.md R89). -/
def getDrum (a : Nat) (s : State) : Option Word :=
  if a < Config.drumWords then some (Memory.read s.drum a) else none

/-- `set_drum(a, w)` for a drum address (R248). -/
def setDrum (a : Nat) (w : Word) (s : State) : State := { s with drum := Memory.write s.drum a w }

/-- `set_drum_index(d)` for a position d below 50: the position under the heads, as the host gives it
(spec/70_reset_and_hazards.md R311, R319, spec/10_state.md R30; R248 does not list it, log entry 28). -/
def setDrumIndex (d : Nat) (s : State) : State := { s with drumIndex := d }

/-! ### Every host call -/

/-- The host operations that change the state, other than program_start (R250). -/
inductive HostCall where
  | powerOn
  | powerOff
  | passSeconds (seconds : Nat)
  | dcOn
  | dcOff
  | masterPowerOff
  | transfer
  | setControlMode (m : ControlMode)
  | setHalfCycleMode (m : HalfCycleMode)
  | setDisplayMode (m : DisplayMode)
  | setProgrammedMode (m : ProgrammedMode)
  | setErrorMode (m : Nat)
  | setStorageEntry (w : Word)
  | setAddressEntry (a : Nat)
  | programReset
  | accumulatorReset
  | errorReset
  | errorSenseReset
  | computerReset
  | bypassDrum (a : Nat) (w : Word)
  | bypassDrumIndex (d : Nat)
  | bypassDistributor (w : Word)
  | bypassUpper (w : Word)
  | bypassLower (w : Word)
  | bypassErrorSense (b : Bool)
  | bypassClocking (b : Bool)
  deriving DecidableEq, Repr

/-- One host call, atomic and taking no cycle (R250); none where an argument is outside the operation's domain: an
address-entry value that has not four digits (R235), a drum address of 2000 or more (R248), a drum position of 50 or
more (spec/10_state.md R30). -/
def hostCall (c : HostCall) (s : State) : Option State :=
  match c with
  | .powerOn => some (powerOn s)
  | .powerOff => some (powerOff s)
  | .passSeconds n => some (passSeconds n s)
  | .dcOn => some (dcOn s)
  | .dcOff => some (dcOff s)
  | .masterPowerOff => some (masterPowerOff s)
  | .transfer => some (transfer s)
  | .setControlMode m => some (setControlMode m s)
  | .setHalfCycleMode m => some (setHalfCycleMode m s)
  | .setDisplayMode m => some (setDisplayMode m s)
  | .setProgrammedMode m => some (setProgrammedMode m s)
  | .setErrorMode m => some (setErrorMode m s)
  | .setStorageEntry w => some (setStorageEntry w s)
  | .setAddressEntry a => if addressWellFormed a then some (setAddressEntry a s) else none
  | .programReset => some (programReset s)
  | .accumulatorReset => some (accumulatorReset s)
  | .errorReset => some (errorReset s)
  | .errorSenseReset => some (errorSenseReset s)
  | .computerReset => some (computerReset s)
  | .bypassDrum a w => if a < Config.drumWords then some (setDrum a w s) else none
  | .bypassDrumIndex d => if d < Config.drumPositions then some (setDrumIndex d s) else none
  | .bypassDistributor w => some { s with dist := w }
  | .bypassUpper w => some { s with up := w }
  | .bypassLower w => some { s with lo := w }
  | .bypassErrorSense b => some { s with errorSense := b }
  | .bypassClocking b => some { s with clocking := b }

/-! ### A whole program_start -/

/-- OP holds the code of STOP. -/
def stopInOp (s : State) : Bool :=
  match s.op with
  | none => false
  | some code => decide (s.params.opcodeMap.operationOf code = some .stop)

/-- program_start returns to the host after the step that led to `s`: in manual mode, at every half-cycle boundary in
half-step mode, after a halting STOP, and with QUOTIENT_OVERFLOW_HALTS after a quotient overflow (R145). -/
def programStartReturns (s : State) : Bool :=
  decide (s.controlMode = .manual) || decide (s.halfCycleMode = .halfStep) ||
  (stopInOp s && decide (s.programmedMode = .stop)) ||
  (s.params.quotientOverflowHalts && decide (s.halfCycle = .data))

/-- `program_start()` up to its return, within `fuel` steps; none where it has not returned by then: a program with no
reachable halting STOP never returns (R145). -/
def programStart : Nat → State → Option (Host.Outcome State Fault Refusal)
  | 0, _ => none
  | fuel + 1, s =>
    match step s with
    | .next t => if programStartReturns t then some (.next t) else programStart fuel t
    | .fault f => some (.fault f)
    | .refused r => some (.refused r)

/-- The launch state of spec/70_reset_and_hazards.md R310, R311 from the machine at construction: powered and ready, an
automatic mode, computer_reset. -/
def State.launch : State := computerReset (passSeconds Config.dcDelaySeconds (powerOn State.reset))

end Sys2Proof.Machine
end

