-- ==== Sys2Proof/Safety.lean ====
section
/-! DEFINITION. The terms in which statements are made: the invariant every run keeps, the wait for the drum, and the state a data half-cycle leaves (spec/10_state.md R24 to R57, spec/40_cycle_controller.md R133, R146, spec/41_load_store.md R172). -/

namespace Sys2Proof.Machine

/-- A register that may be blank holds, if anything, a number below `n`. -/
def belowIfSet (n : Nat) : Option Nat → Bool
  | none => true
  | some a => decide (a < n)

/-- Between the half-cycles of an instruction the program register holds a valid word whose fields OP and AR hold; in
manual mode transfer may have replaced AR (spec/40_cycle_controller.md R123, spec/44_console_operations.md R233). -/
def dataDue (s : State) : Bool :=
  match s.pr with
  | none => false
  | some w =>
    w.valid && decide (s.op = some w.opCode) &&
    (decide (s.controlMode = .manual) || decide (s.ar = some w.dataAddress))

/-- The cursor of the instruction sequence and the registers agree with the half-cycle (R50, R123). -/
def cursorsAgree (s : State) : Bool :=
  match s.halfCycle with
  | .instruction => decide (s.ic = 0 ∨ s.ic = 4)
  | .data => decide (s.ic = 2) && dataDue s

/-- The invariant: the drum is in canonical form; drum_index is in [0,50) (R30); AR, AE and OP are addresses and codes
or blank (R27, R28, R46); the sequencer is idle between steps (R54 to R56); the cursors agree with the half-cycle; DC is
on only in a powered machine that has been on for 180 seconds and power is off for ever once the master switch is
thrown (spec/60_exceptions.md R280 to R286); the parameters are ones the spec allows (R105, R168, R169). -/
structure Inv (s : State) : Prop where
  params : s.params.wf = true
  drum : Memory.wf s.drum = true
  drumIndex : s.drumIndex < Config.drumPositions
  ar : belowIfSet 10000 s.ar = true
  ae : belowIfSet 10000 s.ae = true
  op : belowIfSet 100 s.op = true
  shiftCount : s.shiftCount = 0
  loopCount : s.loopCount = 0
  fillStarted : s.fillStarted = false
  cursors : cursorsAgree s = true
  dcNeedsPower : s.dc = true → s.power = true ∧ Config.dcDelaySeconds ≤ s.elapsed
  masterOff : s.masterDisabled = true → s.power = false

/-- The cycles a gated step waits when it is first called with drum_index `d` (spec/41_load_store.md R172). -/
def waitCycles (a d : Nat) : Nat :=
  if Config.storageEntryAddress ≤ a then 0
  else (a % Config.drumPositions + Config.drumPositions - d) % Config.drumPositions

/-- The wait of the load step, first called one cycle into the data half-cycle (R172). -/
def loadWait (da : Nat) (s : State) : Nat := waitCycles da ((s.drumIndex + 1) % Config.drumPositions)

/-- The wait of the store step of an operation with one step before it (R172). -/
def storeWait (da : Nat) (s : State) : Nat := waitCycles da ((s.drumIndex + 1) % Config.drumPositions)

/-- The wait of the store step of an operation with two steps before it (R172). -/
def lateStoreWait (da : Nat) (s : State) : Nat := waitCycles da ((s.drumIndex + 2) % Config.drumPositions)

/-- The cycle counter `n` cycles on: `t + n`, where RUN_TIME_WIDTH does not bound it (R31, R121). -/
def runTimeAfter (p : Params) : Nat → Nat → Nat
  | 0, t => t
  | n + 1, t => runTimeAfter p n (nextRunTime p t)

/-- The drum index `n` cycles on (R30, R121). -/
def drumIndexAfter : Nat → Nat → Nat
  | 0, d => d
  | n + 1, d => drumIndexAfter n ((d + 1) % Config.drumPositions)

/-- `s` after `n` cycles have passed. -/
def afterCycles (n : Nat) (s : State) : State :=
  { s with runTime := runTimeAfter s.params n s.runTime, drumIndex := drumIndexAfter n s.drumIndex }

/-- The state a completed data half-cycle leaves (R133): the successor `ia` in AR, half-cycle instruction, `ic` = 4, the
operation cursor at the end of `steps` micro-steps, `restart` raised or not, after `cycles` cycles; OP keeps the code. -/
def completed (steps ia : Nat) (raised : Bool) (cycles : Nat) (s : State) : State :=
  { afterCycles cycles s with
    ar := some ia
    halfCycle := .instruction
    ic := 4
    oc := steps
    restart := raised
    restartSeen := raised }

/-- The state a data half-cycle leaves that ends program_start before its lookahead: the data address in AR, the half-cycle
still data, `ic` = 2 (R141, R143; spec/43_multiply_divide.md R220). -/
def halted (steps da cycles : Nat) (s : State) : State :=
  { afterCycles cycles s with
    ar := some da
    halfCycle := .data
    ic := 2
    oc := steps
    restart := false
    restartSeen := false }

/-- The accumulator after an addition with exact result `r` (spec/42_add_subtract.md R181, R182): the low 20 digits of the
magnitude, the sign of the sum in LO (a zero sum takes ZERO_SIGN of LO's sign and the operand's, R183), UP's sign kept,
overflow raised when the magnitude needs more than 20 digits; the operand `w` is in the distributor. -/
def withSum (w : Word) (r : Int) (operandSign : Sign) (s : State) : State :=
  { s with
    dist := w
    up := Word.ofNat s.up.sign (r.natAbs % 10 ^ 20 / 10 ^ 10)
    lo := Word.ofNat (if 0 < r then .plus else if r < 0 then .minus else signBy s.params.zeroSign s.lo.sign operandSign)
      (r.natAbs % 10 ^ 20 % 10 ^ 10)
    overflow := s.overflow || decide (10 ^ 20 ≤ r.natAbs) }

/-- The cycles of the data half-cycle of sequence 2: enable, wait, load, two or three for the fill by the parity of
run_time at its first call, release, and the two of the lookahead (R187, spec/40_cycle_controller.md R133). -/
def fillCycles (da : Nat) (s : State) : Nat :=
  loadWait da s + 7 + runTimeAfter s.params (loadWait da s + 2) s.runTime % 2

/-- The sign of a quotient (spec/43_multiply_divide.md R218, R226). -/
def quotientSign (divisor dividend : Sign) : Sign := if divisor = dividend then .plus else .minus

/-- The sequencer is at rest: no fill, multiplication or division is in progress (R54 to R56). -/
structure AtRest (s : State) : Prop where
  fillStarted : s.fillStarted = false
  shiftCount : s.shiftCount = 0
  loopCount : s.loopCount = 0

/-- The state an instruction half-cycle leaves that fetched the word `w` from `a`: the fields split, the data half-cycle
due (spec/40_cycle_controller.md R123, R125, R126, R129). -/
def fetched (a : Nat) (w : Word) (s : State) : State :=
  { afterCycles (waitCycles a s.drumIndex + 2) s with
    pr := some w, op := some w.opCode, ar := some w.dataAddress, halfCycle := .data, ic := 2 }

/-- An automatic control mode (R40, R120). -/
def automatic (s : State) : Bool := decide (s.controlMode ≠ .manual)

/-- An instruction half-cycle is due (R122). -/
def instructionDue (s : State) : Prop := s.halfCycle = .instruction ∧ (s.ic = 0 ∨ s.ic = 4)

/-- The data half-cycle of the instruction in the word `w` is due (R122, R123). -/
def dataDueFor (w : Word) (s : State) : Prop :=
  s.halfCycle = .data ∧ s.pr = some w ∧ s.op = some w.opCode ∧ s.ar = some w.dataAddress

/-- The kinds of operation by what they write (spec/30_encoding.md R106, R107). -/
inductive OperationKind where
  | control
  | load
  | store
  | accumulate
  | reset
  | multiply
  | divide
  deriving DecidableEq, Repr

/-- The kind of an instruction's operation (R106, R107). -/
def operationKind : Instr → OperationKind
  | .noop _ _ => .control
  | .stop _ _ => .control
  | .ld _ _ => .load
  | .std _ _ => .store
  | .stl _ _ => .store
  | .stu _ _ => .store
  | .stda _ _ => .store
  | .stia _ _ => .store
  | .au _ _ => .accumulate
  | .su _ _ => .accumulate
  | .al _ _ => .accumulate
  | .sl _ _ => .accumulate
  | .aabl _ _ => .accumulate
  | .sabl _ _ => .accumulate
  | .rau _ _ => .reset
  | .rsu _ _ => .reset
  | .ral _ _ => .reset
  | .rsl _ _ => .reset
  | .raabl _ _ => .reset
  | .rsabl _ _ => .reset
  | .mult _ _ => .multiply
  | .div _ _ => .divide
  | .divru _ _ => .divide

/-- The drum address an instruction stores to: its data address where the operation is a store and the address is below
2000, otherwise none (spec/41_load_store.md R163). -/
def storeAddress (i : Instr) : Option Nat :=
  match operationKind i with
  | .store => if i.da < Config.drumWords then some i.da else none
  | .control => none
  | .load => none
  | .accumulate => none
  | .reset => none
  | .multiply => none
  | .divide => none

/-- What no operation writes: the flags of the host and the resets, the modes, the switches, the power state and the open
parameters. -/
structure HostStateKept (s t : State) : Prop where
  params : t.params = s.params
  clocking : t.clocking = s.clocking
  errorSense : t.errorSense = s.errorSense
  controlMode : t.controlMode = s.controlMode
  halfCycleMode : t.halfCycleMode = s.halfCycleMode
  displayMode : t.displayMode = s.displayMode
  programmedMode : t.programmedMode = s.programmedMode
  errorMode : t.errorMode = s.errorMode
  se : t.se = s.se
  ae : t.ae = s.ae
  power : t.power = s.power
  dc : t.dc = s.dc
  masterDisabled : t.masterDisabled = s.masterDisabled
  elapsed : t.elapsed = s.elapsed
  dcAutoFired : t.dcAutoFired = s.dcAutoFired
  poweredOffOnce : t.poweredOffOnce = s.poweredOffOnce

/-- Two states that agree in everything but the two counters of time. -/
def sameButTime (s t : State) : Prop := { s with runTime := 0, drumIndex := 0 } = { t with runTime := 0, drumIndex := 0 }

/-- Sum of the decimal digits of a word's magnitude. -/
def digitSum (w : Word) : Nat :=
  w.d10.val + w.d9.val + w.d8.val + w.d7.val + w.d6.val + w.d5.val + w.d4.val + w.d3.val + w.d2.val + w.d1.val

/-- The last of the `n` decimal digits of a number that is not zero; 0 where all are. -/
def lastDigit : Nat → Nat → Nat
  | 0, _ => 0
  | n + 1, x => if x % 10 ^ n = 0 then x / 10 ^ n else lastDigit n (x % 10 ^ n)

/-- The sign LO has, from `x` on, after a zero of sign `sg` has been added `n` times to an accumulator that is zero
(spec/42_add_subtract.md R183). -/
def zeroSums (zeroSign : SignRule) (sg : Sign) : Nat → Sign → Sign
  | 0, x => x
  | n + 1, x => zeroSums zeroSign sg n (signBy zeroSign x sg)

end Sys2Proof.Machine
end

