-- ==== Sys2Proof/Certificates/Slice0/Obligations.lean ====
section
/-! DEFINITION. The statements for the provers: each formalises rules of spec/, named in its docstring. -/

open Sys2Proof Sys2Proof.Machine

/-! ### Words, decoding and encoding -/

/-- Words the spec writes out decode to the instructions it says they are (spec/30_encoding.md R111,
spec/41_load_store.md R164 to R169, spec/40_cycle_controller.md R140); the sign is not decoded (R103). The codes are
the default of OPCODE_MAP (log entry 5), the field positions the spec's decision (log entry 6). -/
def Obligations.SpecWordsDecode : Prop :=
  decode .standard ⟨.dec 6, .dec 9, .dec 0, .dec 1, .dec 0, .dec 0, .dec 0, .dec 0, .dec 0, .dec 1, .plus⟩ = .ok (.ld 100 1) ∧
  decode .standard ⟨.dec 0, .dec 0, .dec 0, .dec 0, .dec 0, .dec 0, .dec 0, .dec 0, .dec 0, .dec 5, .plus⟩ = .ok (.noop 0 5) ∧
  decode .standard ⟨.dec 2, .dec 4, .dec 0, .dec 1, .dec 5, .dec 0, .dec 0, .dec 0, .dec 0, .dec 2, .minus⟩ = .ok (.std 150 2) ∧
  decode .standard ⟨.dec 2, .dec 0, .dec 0, .dec 2, .dec 0, .dec 0, .dec 0, .dec 0, .dec 0, .dec 3, .dontCare⟩ = .ok (.stl 200 3) ∧
  decode .standard ⟨.dec 2, .dec 3, .dec 0, .dec 3, .dec 0, .dec 1, .dec 0, .dec 0, .dec 0, .dec 6, .plus⟩ = .ok (.stia 301 6)

/-- Decode and encode agree, whatever opcode map the model is given: every well-formed instruction the map has a code for,
whatever the sign of its word, is what its word decodes to; the default map is a map of the kind R105 describes and has a
code for every instruction (R101 to R105, R111). -/
def Obligations.DecodeEncodeAgree : Prop :=
  (∀ (m : OpcodeMap) (i : Instr) (w : Word) (sg : Sign), m.wf = true → i.wf = true → encode m i = some w →
    decode m (withSign sg w) = .ok i) ∧
  OpcodeMap.standard.wf = true ∧
  ∀ i : Instr, ∃ w, encode OpcodeMap.standard i = some w

/-- The other direction, whatever the opcode map: a word that decodes holds a well-formed instruction and is that
instruction's word, up to the sign, which is not decoded (R101 to R103, R105). -/
def Obligations.EncodeDecodeAgree : Prop :=
  ∀ (m : OpcodeMap) (w : Word) (i : Instr), m.wf = true → decode m w = .ok i →
    i.wf = true ∧ (encode m i).map (withSign w.sign) = some w

/-- Exactly the valid words with a code of the opcode map decode; a word with an invalid digit and a word with any other
code are rejected by name (R103, R105, R109); the default map has the 23 codes of the table (R104, log entry 5). -/
def Obligations.OnlyTheTableDecodes : Prop :=
  (∀ (m : OpcodeMap) (w : Word),
    ((∃ i, decode m w = .ok i) ↔ w.valid = true ∧ w.opCode ∈ m.map Prod.fst) ∧
    (w.valid = false → decode m w = .error .invalidDigit) ∧
    (w.valid = true → w.opCode ∉ m.map Prod.fst → decode m w = .error (.unassignedCode w.opCode))) ∧
  OpcodeMap.standard.map Prod.fst =
    [0, 1, 10, 11, 14, 15, 16, 17, 18, 19, 20, 21, 22, 23, 24, 60, 61, 64, 65, 66, 67, 68, 69]

/-! ### Storage and the gate -/

/-- The ungated read follows the address map: the four special addresses are the live registers, a drum address its
cell, and any other address has no word (spec/20_memory.md R75; the fault there is the spec's decision, R82, log entry
15). -/
def Obligations.ReadsFollowTheAddressMap : Prop :=
  ∀ (s : State) (a : Nat),
    (a = 8000 → memRead s a = .ok s.se) ∧ (a = 8001 → memRead s a = .ok s.dist) ∧
    (a = 8002 → memRead s a = .ok s.lo) ∧ (a = 8003 → memRead s a = .ok s.up) ∧
    (a ≤ 1999 → memRead s a = .ok (Memory.read s.drum a)) ∧
    (1999 < a → a < 8000 ∨ 8003 < a → memRead s a = .error (.invalidAddress a))

/-- A gated access waits at most 49 cycles: the gate is false through exactly `waitCycles` cycles and true then (R74,
R77, spec/41_load_store.md R172). -/
def Obligations.GateOpensAfterItsWait : Prop :=
  ∀ (s : State) (a : Nat), s.drumIndex < 50 →
    waitCycles a s.drumIndex ≤ 49 ∧
    gate (afterCycles (waitCycles a s.drumIndex) s) a = true ∧
    ∀ m < waitCycles a s.drumIndex, gate (afterCycles m s) a = false

/-! ### The step -/

/-- A step runs the decoded instruction: with an instruction half-cycle due at a valid address, it waits for the gate,
fetches and splits in two cycles, and is then the data half-cycle of the decoded instruction (spec/40_cycle_controller.md
R122, R125, R126, R129). -/
def Obligations.StepRunsFetchedInstruction : Prop :=
  ∀ (s : State) (a : Nat) (w : Word) (i : Instr),
    isReady s = true → automatic s = true → s.halfCycleMode = .run → instructionDue s → s.drumIndex < 50 →
    s.ar = some a → memRead s a = .ok w → decode s.params.opcodeMap w = .ok i →
    step s = exec i (fetched a w s)

/-- A step that finds a data half-cycle due, after a half-step return or a halting STOP, goes straight to it (R122). -/
def Obligations.StepRunsDueInstruction : Prop :=
  ∀ (s : State) (w : Word) (i : Instr),
    isReady s = true → automatic s = true → dataDueFor w s → decode s.params.opcodeMap w = .ok i → step s = exec i s

/-- In half-step mode a step is one half-cycle: after an instruction half-cycle the data half-cycle is due with `ic` = 2
and OP and AR holding the code and the data address; after a data half-cycle, other than that of a halting STOP or of a
quotient overflow that halts, the instruction half-cycle is due with `ic` = 4 and AR holding the next-instruction address
(R123). -/
def Obligations.HalfStepReturnsAfterEachHalfCycle : Prop :=
  (∀ (s : State) (a : Nat) (w : Word),
    isReady s = true → automatic s = true → s.halfCycleMode = .halfStep → instructionDue s → s.drumIndex < 50 →
    s.ar = some a → memRead s a = .ok w → w.valid = true →
    ∃ t, step s = .next t ∧ t = fetched a w s ∧
      t.halfCycle = .data ∧ t.ic = 2 ∧ t.op = some w.opCode ∧ t.ar = some w.dataAddress) ∧
  (∀ (s t : State) (w : Word) (i : Instr),
    isReady s = true → automatic s = true → s.halfCycleMode = .halfStep → AtRest s → dataDueFor w s →
    decode s.params.opcodeMap w = .ok i →
    (i.operation = .stop → s.programmedMode = .run ∨ s.params.stopPerformsLookahead = true) →
    (operationKind i = .divide → s.params.quotientOverflowHalts = false) → step s = .next t →
    t.halfCycle = .instruction ∧ t.ic = 4 ∧ t.ar = some w.instructionAddress)

/-- Where the spec gives the fetch or the decode no behaviour, the step stops by name: a blank AR, an address outside the
valid set, a word with an invalid digit, a code outside OPCODE_MAP, at its fetch or where its data half-cycle is due, a
blank OP (R82, R103, R136; the stop is the spec's decision, log entries 15, 16, 19). -/
def Obligations.FetchAndDecodeFaults : Prop :=
  ∀ s : State, isReady s = true → automatic s = true → s.drumIndex < 50 →
    (instructionDue s → s.ar = none → step s = .fault .blankAddress) ∧
    (∀ a, instructionDue s → s.ar = some a → validAddress a = false → step s = .fault (.invalidAddress a)) ∧
    (∀ a w, instructionDue s → s.ar = some a → memRead s a = .ok w → w.valid = false →
      step s = .fault .invalidInstructionWord) ∧
    (∀ a w, instructionDue s → s.halfCycleMode = .run → s.ar = some a → memRead s a = .ok w → w.valid = true →
      decode s.params.opcodeMap w = .error (.unassignedCode w.opCode) →
      step s = .fault (.unassignedOperation (some w.opCode))) ∧
    (∀ c, s.halfCycle = .data → s.op = some c → c ∉ s.params.opcodeMap.map Prod.fst →
      step s = .fault (.unassignedOperation (some c))) ∧
    (s.halfCycle = .data → s.op = none → step s = .fault (.unassignedOperation none))

/-- program_start is refused exactly where the machine is not ready, and for no other reason (spec/60_exceptions.md R291; the
refusal is the spec's decision, log entry 18). -/
def Obligations.RefusedExactlyWhenNotReady : Prop :=
  ∀ (s : State) (r : Refusal), step s = .refused r ↔ (isReady s = false ∧ r = .notReady)

/-! ### NOOP and STOP -/

/-- NOOP: two cycles, AR takes the next-instruction address, no register, flag or cell changes (R140). -/
def Obligations.NoopCompletes : Prop :=
  ∀ (da ia : Nat) (s : State), exec (.noop da ia) s = .next (completed 0 ia false 2 s)

/-- STOP with programmed_mode stop halts: STOP_HALT_CYCLES cycles pass, the lookahead does not run, AR keeps the STOP's data
address and the half-cycle stays data with `ic` = 2; nothing else changes but the cleared signals of the data half-cycle.
With STOP_PERFORMS_LOOKAHEAD the cycles are the two of I2 and I3 instead, which leave what a NOOP leaves (R141; both
parameters are the spec's decision, by default two cycles and no lookahead, log entry 10). -/
def Obligations.StopHalts : Prop :=
  ∀ (da ia : Nat) (s : State), s.programmedMode = .stop →
    (s.params.stopPerformsLookahead = false →
      exec (.stop da ia) s =
        .next { afterCycles s.params.stopHaltCycles s with
          ar := some da, halfCycle := .data, ic := 2, oc := 0, restart := false, restartSeen := false }) ∧
    (s.params.stopPerformsLookahead = true → exec (.stop da ia) s = .next (completed 0 ia false 2 s))

/-- STOP with programmed_mode run continues exactly as a NOOP does: two data cycles and on to the instruction at its
next-instruction address (R142). -/
def Obligations.StopContinuesAsNoop : Prop :=
  ∀ (da ia : Nat) (s : State), s.programmedMode = .run →
    exec (.stop da ia) s = .next (completed 0 ia false 2 s)

/-- After a halting STOP another program_start halts again after STOP_HALT_CYCLES more cycles, two by default, or, once
programmed_mode is run, goes on at the STOP's next-instruction address (R143). The two cycles and the state of the halt
rest on the defaults of STOP_HALT_CYCLES and STOP_PERFORMS_LOOKAHEAD, the spec's decision (R141, log entry 10). -/
def Obligations.HaltedStopHaltsAgainOrResumes : Prop :=
  ∀ (s t : State) (w : Word) (da ia : Nat),
    isReady s = true → automatic s = true → dataDueFor w s → decode s.params.opcodeMap w = .ok (.stop da ia) →
    s.programmedMode = .stop → s.params.stopPerformsLookahead = false → step s = .next t →
    step t = .next (afterCycles s.params.stopHaltCycles t) ∧
    (s.params.stopHaltCycles = 2 → s.params.runTimeWidth = none →
      step t = .next { t with runTime := t.runTime + 2, drumIndex := (t.drumIndex + 2) % 50 }) ∧
    step { t with programmedMode := .run } = .next (completed 0 ia false 2 { t with programmedMode := .run })

/-! ### Load and store -/

/-- LD: the word at the data address goes to the distributor whole, whatever its digits and sign; 1 + wL + 1 cycles of the
sequence and two of the lookahead; an address outside the valid set has no word (R164, R133). -/
def Obligations.LoadDistributorCompletes : Prop :=
  ∀ (da ia : Nat) (s : State),
    (∀ w, memRead s da = .ok w →
      exec (.ld da ia) s = .next (completed 2 ia false (1 + loadWait da s + 1 + 2) { s with dist := w })) ∧
    (validAddress da = false → exec (.ld da ia) s = .fault (.invalidAddress da))

/-- STD: below 2000 the distributor is stored, after 1 + wS + 1 cycles and two of the lookahead; at or above 2000 nothing
is written and storage_selection is set, after 2 cycles and two of the lookahead (R165). -/
def Obligations.StoreDistributorCompletes : Prop :=
  ∀ (da ia : Nat) (s : State),
    (da < 2000 →
      exec (.std da ia) s = .next (completed 2 ia false (1 + storeWait da s + 1 + 2)
        { s with drum := Memory.write s.drum da s.dist })) ∧
    (2000 ≤ da →
      exec (.std da ia) s = .next (completed 2 ia false (2 + 2) { s with storageSelection := true }))

/-- STL: the distributor takes LO, sign included, and is stored; a store at or above 2000 is refused with the distributor
changed all the same (R166). -/
def Obligations.StoreLowerCompletes : Prop :=
  ∀ (da ia : Nat) (s : State),
    (da < 2000 →
      exec (.stl da ia) s = .next (completed 3 ia false (1 + 1 + lateStoreWait da s + 1 + 2)
        { s with dist := s.lo, drum := Memory.write s.drum da s.lo })) ∧
    (2000 ≤ da →
      exec (.stl da ia) s = .next (completed 3 ia false (3 + 2)
        { s with dist := s.lo, storageSelection := true }))

/-- STU: as STL with UP, whose own sign is stored (R167). -/
def Obligations.StoreUpperCompletes : Prop :=
  ∀ (da ia : Nat) (s : State),
    (da < 2000 →
      exec (.stu da ia) s = .next (completed 3 ia false (1 + 1 + lateStoreWait da s + 1 + 2)
        { s with dist := s.up, drum := Memory.write s.drum da s.up })) ∧
    (2000 ≤ da →
      exec (.stu da ia) s = .next (completed 3 ia false (3 + 2)
        { s with dist := s.up, storageSelection := true }))

/-- STDA and STIA: digits 8-5 of LO go to the four digits STDA_DEST of the distributor, digits 4-1 of LO to STIA_DEST, the
other six digits and the sign kept, and the distributor is stored (R168, R169). The destinations are parameters: by
default digits 4-1 and 10-7, in the other reading 8-5 and 4-1 (log entry 14). -/
def Obligations.StoreAddressFieldsComplete : Prop :=
  ∀ (da ia : Nat) (s : State),
    let a : Word := copyAddressField s.lo 5 s.dist s.params.stdaDest
    let b : Word := copyAddressField s.lo 1 s.dist s.params.stiaDest
    (s.params.stdaDest = 1 → a = { s.dist with d4 := s.lo.d8, d3 := s.lo.d7, d2 := s.lo.d6, d1 := s.lo.d5 }) ∧
    (s.params.stdaDest = 5 → a = { s.dist with d8 := s.lo.d8, d7 := s.lo.d7, d6 := s.lo.d6, d5 := s.lo.d5 }) ∧
    (s.params.stiaDest = 7 → b = { s.dist with d10 := s.lo.d4, d9 := s.lo.d3, d8 := s.lo.d2, d7 := s.lo.d1 }) ∧
    (s.params.stiaDest = 1 → b = { s.dist with d4 := s.lo.d4, d3 := s.lo.d3, d2 := s.lo.d2, d1 := s.lo.d1 }) ∧
    (da < 2000 →
      exec (.stda da ia) s = .next (completed 2 ia false (1 + storeWait da s + 1 + 2)
        { s with dist := a, drum := Memory.write s.drum da a }) ∧
      exec (.stia da ia) s = .next (completed 2 ia false (1 + storeWait da s + 1 + 2)
        { s with dist := b, drum := Memory.write s.drum da b })) ∧
    (2000 ≤ da →
      exec (.stda da ia) s = .next (completed 2 ia false (2 + 2) { s with dist := a, storageSelection := true }) ∧
      exec (.stia da ia) s = .next (completed 2 ia false (2 + 2) { s with dist := b, storageSelection := true }))

/-- A word stored below 2000 is what a later load of that address delivers, all ten digits and the sign, whatever the
distributor holds when it is loaded: the word comes from the cell (spec/20_memory.md R90). -/
def Obligations.StoredWordLoadsBack : Prop :=
  ∀ (da ia ib : Nat) (s : State), Memory.wf s.drum = true → da < 2000 →
    ∃ t, exec (.std da ia) s = .next t ∧ t.dist = s.dist ∧
      ∀ w' : Word, ∃ u, exec (.ld da ib) { t with dist := w' } = .next u ∧ u.dist = s.dist

/-- An instruction that stores over its own cell still goes on at the successor of the word that was fetched, and the next
fetch of that cell reads the stored word (R86, spec/40_cycle_controller.md R127). -/
def Obligations.StoreOverOwnCellKeepsSuccessor : Prop :=
  ∀ (s : State) (a ia : Nat) (w : Word),
    isReady s = true → automatic s = true → s.halfCycleMode = .run → instructionDue s → s.drumIndex < 50 →
    Memory.wf s.drum = true → a < 2000 → s.ar = some a → memRead s a = .ok w →
    decode s.params.opcodeMap w = .ok (.std a ia) →
    ∃ t, step s = .next t ∧ t.ar = some ia ∧ memRead t a = .ok s.dist ∧ t.pr = some w

/-! ### Add and subtract -/

/-- The six accumulating operations: the exact sum of the accumulator's value and the operand, shifted into the upper half
for AU and SU, negated for SU and SL, of the operand's absolute value for AABL and SABL (spec/42_add_subtract.md R190 to
R195; an exactly zero sum takes ZERO_SIGN, log entry 11). -/
def Obligations.AddAndSubtractComplete : Prop :=
  ∀ (da ia : Nat) (s : State) (w : Word),
    s.fillStarted = false → memRead s da = .ok w → arithmeticWord w = true → s.up.valid = true →
    arithmeticWord s.lo = true →
    let v : Int := signValue s.lo.sign * ((s.up.mag * 10 ^ 10 + s.lo.mag : Nat) : Int)
    let m : Int := (w.mag : Int)
    let ends (i : Instr) (r : Int) (operandSign : Sign) : Prop :=
      exec i s = .next (completed 4 ia true (fillCycles da s) (withSum w r operandSign s))
    ends (.au da ia) (v + signValue w.sign * m * 10 ^ 10) w.sign ∧
    ends (.su da ia) (v - signValue w.sign * m * 10 ^ 10) (signFlip w.sign) ∧
    ends (.al da ia) (v + signValue w.sign * m) w.sign ∧
    ends (.sl da ia) (v - signValue w.sign * m) (signFlip w.sign) ∧
    ends (.aabl da ia) (v + m) .plus ∧
    ends (.sabl da ia) (v - m) .minus

/-- The six reset operations: the operand, negated or absolute, goes to its half and the other half is ten zeros, both with
the operand's resulting sign; no flag is written (R196 to R201). -/
def Obligations.ResetAndLoadComplete : Prop :=
  ∀ (da ia : Nat) (s : State) (w : Word),
    s.fillStarted = false → memRead s da = .ok w → arithmeticWord w = true →
    let ends (i : Instr) (up lo : Word) : Prop :=
      exec i s = .next (completed 4 ia true (fillCycles da s) { s with dist := w, up := up, lo := lo })
    let n : Sign := signFlip w.sign
    ends (.rau da ia) w (Word.zero w.sign) ∧
    ends (.rsu da ia) (withSign n w) (Word.zero n) ∧
    ends (.ral da ia) (Word.zero w.sign) w ∧
    ends (.rsl da ia) (Word.zero n) (withSign n w) ∧
    ends (.raabl da ia) (Word.zero .plus) (withSign .plus w) ∧
    ends (.rsabl da ia) (Word.zero .minus) (withSign .minus w)

/-- Laws of the adder: a sum that fits leaves its value in the accumulator and the flag alone; one that does not comes
only of two non-zero numbers of one sign, keeps the low 20 digits and sets overflow; an upper-half operation leaves LO's
digits where the sign does not flip (R189 c, d, e). -/
def Obligations.AdderLaws : Prop :=
  ∀ (s : State) (e : Word) (half : Half), arithmeticWord e = true → arithmeticWord s.lo = true →
    let v := accValue s
    let o := operandValue e half
    let t := addToAccumulator e half s
    ((v + o).natAbs < 10 ^ 20 → accValue t = v + o ∧ t.overflow = s.overflow) ∧
    (10 ^ 20 ≤ (v + o).natAbs →
      accMag t + 10 ^ 20 = (v + o).natAbs ∧ t.overflow = true ∧ (0 < v ∧ 0 < o ∨ v < 0 ∧ o < 0)) ∧
    (half = .upper → (0 ≤ v ∧ 0 ≤ v + o ∨ v ≤ 0 ∧ v + o ≤ 0) → t.lo.mag = s.lo.mag) ∧
    t.up.sign = s.up.sign

/-- Arithmetic on words the spec gives no value stops by name: an invalid digit or a sign '_' in the operand or, for the
additions, the multiplication and the divisions, in LO, and for these an invalid digit in UP (R185,
spec/70_reset_and_hazards.md R322; the stop is the spec's decision, log entry 17). -/
def Obligations.ArithmeticOperandFaults : Prop :=
  ∀ (i : Instr) (s : State) (w : Word), AtRest s → memRead s i.da = .ok w →
    (operationKind i = .accumulate ∨ operationKind i = .multiply ∨ operationKind i = .divide →
      arithmeticWord w = false ∨ s.up.valid = false ∨ arithmeticWord s.lo = false → exec i s = .fault .invalidOperand) ∧
    (operationKind i = .reset → arithmeticWord w = false → exec i s = .fault .invalidOperand)

/-- Every operation that reads a data word stops by name where its data address is outside the valid set
(spec/20_memory.md R82; the stop is the spec's decision, log entry 15). -/
def Obligations.LoadOutsideValidSetFaults : Prop :=
  ∀ (i : Instr) (s : State), operationKind i ≠ .control → operationKind i ≠ .store → validAddress i.da = false →
    exec i s = .fault (.invalidAddress i.da)

/-! ### Multiply and divide -/

/-- MULT: where P = mag(UP)·mag(w) + mag(LO)·10^10 is below 10^20 the accumulator ends as P with the sign MULT_SIGN gives in
both halves, by default the operand's, and overflow unchanged, after ten calls and one more for each unit of the
multiplier's digits (spec/43_multiply_divide.md R216, R223; the sign is a parameter, log entry 12; the sign '_' in LO,
which is shut out, faults: ArithmeticOperandFaults). One case departs from that sign of LO, under a ZERO_SIGN other than
the default only: where the operand and LO are both zero, each add of the last multiplier digit that is not zero makes a
sum that is exactly zero, and LO takes the sign ZERO_SIGN gives it (R213; the model's choice, log entry 12). -/
def Obligations.MultiplyIsExact : Prop :=
  ∀ (da ia : Nat) (s : State) (w : Word), AtRest s → memRead s da = .ok w → arithmeticWord w = true →
    s.up.valid = true → arithmeticWord s.lo = true →
    let p := s.up.mag * w.mag + s.lo.mag * 10 ^ 10
    let sg := signBy s.params.multSign w.sign s.lo.sign
    let lowSign := if w.mag = 0 ∧ s.lo.mag = 0 then zeroSums s.params.zeroSign sg (lastDigit 10 s.up.mag) sg else sg
    (s.params.multSign = keepFirstSign → sg = w.sign) ∧
    (s.params.zeroSign = keepFirstSign → lowSign = sg) ∧
    (s.params.multSign = productSign → sg = if w.sign = s.lo.sign then .plus else .minus) ∧
    (p < 10 ^ 20 →
      exec (.mult da ia) s =
        .next (completed 4 ia false (1 + loadWait da s + 1 + (10 + digitSum s.up) + 1 + 2)
          { s with dist := w, up := Word.ofNat sg (p / 10 ^ 10), lo := Word.ofNat lowSign (p % 10 ^ 10) }))

/-- MULT where P is 10^20 or more: it runs to its end all the same, sets overflow, and leaves valid halves with the sign
MULT_SIGN gives, by default the operand's, whose digits the spec gives no law for (R214, R216; log entry 12; the sign '_'
in LO, which is shut out, faults: ArithmeticOperandFaults). -/
def Obligations.MultiplyOverflowIsFlagged : Prop :=
  ∀ (da ia : Nat) (s : State) (w : Word), AtRest s → memRead s da = .ok w → arithmeticWord w = true →
    s.up.valid = true → arithmeticWord s.lo = true → 10 ^ 20 ≤ s.up.mag * w.mag + s.lo.mag * 10 ^ 10 →
    ∃ (u l : Word) (calls : Nat), calls ≤ 100 ∧ u.valid = true ∧ l.valid = true ∧
      u.sign = signBy s.params.multSign w.sign s.lo.sign ∧ l.sign = u.sign ∧
      (s.params.multSign = keepFirstSign → u.sign = w.sign) ∧
      exec (.mult da ia) s =
        .next (completed 4 ia false (1 + loadWait da s + 1 + calls + 1 + 2)
          { s with dist := w, up := u, lo := l, overflow := true })

/-- DIV and DIVRU: where mag(UP) < D = mag(w), with N the 20-digit dividend, LO ends as N div D with '+' where the signs
of the operand and of LO agree and '-' where not; UP ends as N mod D with its own sign, or for DIVRU as zero with the
quotient's; overflow is unchanged; twenty calls and one more for each unit of the quotient's digits (R224 to R226; log
entry 13; the sign '_' in LO, which is shut out, faults: ArithmeticOperandFaults). -/
def Obligations.DivideIsExact : Prop :=
  ∀ (da ia : Nat) (s : State) (w : Word), AtRest s → memRead s da = .ok w → arithmeticWord w = true →
    s.up.valid = true → arithmeticWord s.lo = true → s.up.mag < w.mag →
    let n := s.up.mag * 10 ^ 10 + s.lo.mag
    let lo := Word.ofNat (quotientSign w.sign s.lo.sign) (n / w.mag)
    let cycles := 1 + loadWait da s + 1 + (20 + digitSum lo) + 1 + 2
    lo.mag = n / w.mag ∧
    exec (.div da ia) s =
      .next (completed 4 ia false cycles
        { s with dist := w, lo := lo, up := Word.ofNat s.up.sign (n % w.mag) }) ∧
    exec (.divru da ia) s =
      .next (completed 4 ia false cycles
        { s with dist := w, lo := lo, up := Word.zero lo.sign })

/-- Quotient overflow, division by zero included: where mag(w) ≤ mag(UP), DIV and DIVRU end in the eleventh call with
overflow set, the accumulator shifted once, LO's lowest digit 9 and UP the low ten digits of the partial dividend after
nine subtractions; UP is not zeroed, and the machine goes on or, with QUOTIENT_OVERFLOW_HALTS, program_start ends after that
call (R220; log entry 13; the sign '_' in LO, which is shut out, faults: ArithmeticOperandFaults). -/
def Obligations.QuotientOverflowEndsTheDivision : Prop :=
  ∀ (da ia : Nat) (s : State) (w : Word), AtRest s → memRead s da = .ok w → arithmeticWord w = true →
    s.up.valid = true → arithmeticWord s.lo = true → w.mag ≤ s.up.mag →
    let u : State :=
      { s with
        dist := w
        lo := Word.ofNat (quotientSign w.sign s.lo.sign) (s.lo.mag * 10 % 10 ^ 10 + 9)
        up := Word.ofNat s.up.sign ((s.up.mag * 10 + s.lo.mag / 10 ^ 9 - 9 * w.mag) % 10 ^ 10)
        overflow := true }
    let goesOn : Host.Outcome State Fault Refusal := .next (completed 4 ia false (1 + loadWait da s + 1 + 11 + 1 + 2) u)
    let halts : Host.Outcome State Fault Refusal := .next (halted 2 da (1 + loadWait da s + 1 + 11) u)
    (s.params.quotientOverflowHalts = false → exec (.div da ia) s = goesOn ∧ exec (.divru da ia) s = goesOn) ∧
    (s.params.quotientOverflowHalts = true → exec (.div da ia) s = halts ∧ exec (.divru da ia) s = halts)

/-! ### Frames -/

/-- The frame of NOOP, STOP and LD: both halves of the accumulator, both stored flags, OP, PR, every drum cell, the sequencers
and the host's state are unchanged, and for NOOP and STOP the distributor too (R140 to R142, spec/41_load_store.md R164). -/
def Obligations.ControlAndLoadFrame : Prop :=
  ∀ (i : Instr) (s t : State), operationKind i = .control ∨ operationKind i = .load → AtRest s → exec i s = .next t →
    (operationKind i = .control → t.dist = s.dist) ∧ t.up = s.up ∧ t.lo = s.lo ∧ t.overflow = s.overflow ∧
    t.storageSelection = s.storageSelection ∧ t.pr = s.pr ∧ t.op = s.op ∧ AtRest t ∧ HostStateKept s t ∧
    ∀ a, Memory.read t.drum a = Memory.read s.drum a

/-- The frame of the five stores: both halves of the accumulator, overflow, OP, PR, the sequencers and the host's state are
unchanged, STD keeps the distributor, storage_selection is unchanged where the store is made, and every drum cell other
than the address stored to reads as before; the cell stored to reads as the distributor (R163, R165 to R169, R171). -/
def Obligations.StoreFrame : Prop :=
  ∀ (i : Instr) (s t : State), operationKind i = .store → AtRest s → exec i s = .next t →
    t.up = s.up ∧ t.lo = s.lo ∧ t.overflow = s.overflow ∧ t.pr = s.pr ∧ t.op = s.op ∧ AtRest t ∧ HostStateKept s t ∧
    (∀ da ia, i = .std da ia → t.dist = s.dist) ∧
    (storeAddress i = none → t.storageSelection = true) ∧
    (storeAddress i ≠ none → t.storageSelection = s.storageSelection) ∧
    (∀ a, storeAddress i ≠ some a → Memory.read t.drum a = Memory.read s.drum a) ∧
    (∀ a, storeAddress i = some a → Memory.wf s.drum = true → Memory.read t.drum a = t.dist)

/-- The frame of the fifteen arithmetic operations: the distributor holds the word loaded and nothing the arithmetic made
of it, storage_selection, OP, PR, every drum cell, the sequencers and the host's state are unchanged, and the reset operations
leave overflow (R180, R203, R223 to R225). -/
def Obligations.ArithmeticFrame : Prop :=
  ∀ (i : Instr) (s t : State),
    operationKind i = .accumulate ∨ operationKind i = .reset ∨ operationKind i = .multiply ∨ operationKind i = .divide →
    AtRest s → exec i s = .next t →
    memRead s i.da = .ok t.dist ∧ t.storageSelection = s.storageSelection ∧ t.pr = s.pr ∧ t.op = s.op ∧ AtRest t ∧
    HostStateKept s t ∧
    (operationKind i = .reset → t.overflow = s.overflow) ∧
    (∀ a, Memory.read t.drum a = Memory.read s.drum a)

/-! ### Rules of the whole machine -/

/-- The sign of UP is written by no operation but the six reset operations, MULT and DIVRU (spec/10_state.md R24). -/
def Obligations.UpperSignWriters : Prop :=
  ∀ (i : Instr) (s t : State), AtRest s → exec i s = .next t → t.up.sign ≠ s.up.sign →
    operationKind i = .reset ∨ operationKind i = .multiply ∨ ∃ da ia, i = .divru da ia

/-- A step in an automatic mode only ever raises overflow and storage_selection: overflow by an add, subtract, multiply or
divide operation, storage_selection by a store whose data address is 2000 or more (R32, R33, spec/60_exceptions.md R261,
R294). -/
def Obligations.FlagsRiseOnlyByTheirOperations : Prop :=
  ∀ (i : Instr) (s t : State), AtRest s → exec i s = .next t →
    (t.overflow ≠ s.overflow → t.overflow = true ∧
      (operationKind i = .accumulate ∨ operationKind i = .multiply ∨ operationKind i = .divide)) ∧
    (t.storageSelection ≠ s.storageSelection → t.storageSelection = true ∧ operationKind i = .store ∧ 2000 ≤ i.da)

/-- clocking and error_sense: no step writes them in any mode; a host call sets them only by the bypass; program_reset,
accumulator_reset, error_reset and computer_reset clear clocking; error_sense_reset and computer_reset clear error_sense
and nothing else but the bypass does; both are false at construction (R34, R35; that the bypass writes them, and that the
list of host calls is closed, is an inference from R248, log entry 28). -/
def Obligations.ReservedFlags : Prop :=
  (∀ s t : State, step s = .next t → t.clocking = s.clocking ∧ t.errorSense = s.errorSense) ∧
  (∀ (c : HostCall) (s t : State), hostCall c s = some t →
    (t.clocking = true → s.clocking = true ∨ c = .bypassClocking true) ∧
    (t.errorSense = true → s.errorSense = true ∨ c = .bypassErrorSense true) ∧
    (c = .programReset ∨ c = .accumulatorReset ∨ c = .errorReset ∨ c = .computerReset → t.clocking = false) ∧
    (c = .errorSenseReset ∨ c = .computerReset → t.errorSense = false) ∧
    (s.errorSense = true → t.errorSense = false →
      c = .errorSenseReset ∨ c = .computerReset ∨ c = .bypassErrorSense false)) ∧
  State.reset.clocking = false ∧ State.reset.errorSense = false

/-- A step in an automatic mode changes no mode register, no console switch, no power variable and none of the flags of the
host (R34, R35, R41 to R46, R57, spec/60_exceptions.md R270); and no step in any mode and no host call changes the open
parameters, which are the model's argument (spec/00_scope.md R7; log entry 36). -/
def Obligations.StepLeavesHostStateAlone : Prop :=
  (∀ s t : State, automatic s = true → step s = .next t → HostStateKept s t) ∧
  (∀ s t : State, step s = .next t → t.params = s.params) ∧
  (∀ (c : HostCall) (s t : State), hostCall c s = some t → t.params = s.params)

/-- The invariant holds at construction, with the default parameters and with any others the spec allows (R105; log entry
36). -/
def Obligations.ResetSatisfiesInvariant : Prop :=
  Inv State.reset ∧ ∀ p : Params, p.wf = true → Inv { State.reset with params := p }

/-- Every step keeps the invariant: the drum's canonical form, drum_index in [0,50), four-digit addresses and two-digit
codes, the sequencers at rest, the cursors in agreement with the half-cycle, the power state legal (R27 to R30, R50, R54
to R57), the opcode map an injective one of two-digit codes (spec/30_encoding.md R105). -/
def Obligations.StepKeepsInvariant : Prop :=
  ∀ s t : State, Inv s → step s = .next t → Inv t

/-- Every host call keeps the invariant. -/
def Obligations.HostCallsKeepInvariant : Prop :=
  ∀ (c : HostCall) (s t : State), Inv s → hostCall c s = some t → Inv t

/-- Every half-cycle ends and the counters agree: from a state of the invariant no step runs on without end; in an automatic
mode some number `n` of cycles passes, by which both counters advance, each with its own width; with STOP_HALT_CYCLES at its
default of two, `n` is at least 2 and at most 215, and a whole instruction takes at least 4 (spec/70_reset_and_hazards.md
R325, spec/40_cycle_controller.md R121, R146; the costs rest on log entry 10, RUN_TIME_WIDTH on log entry 29). -/
def Obligations.EveryStepEndsInTime : Prop :=
  ∀ s : State, Inv s →
    step s ≠ .fault .noCompletion ∧
    ∀ t, automatic s = true → step s = .next t →
      ∃ n, t.runTime = runTimeAfter s.params n s.runTime ∧ t.drumIndex = (s.drumIndex + n) % 50 ∧
        (s.params.runTimeWidth = none → t.runTime = s.runTime + n) ∧
        (s.params.stopHaltCycles = 2 →
          2 ≤ n ∧ n ≤ 215 ∧ (s.halfCycle = .instruction → s.halfCycleMode = .run → 4 ≤ n))

/-- Rotational position and the parity of run_time are matters of time, never of the result: two states of the invariant
that differ in the two counters alone step to states that differ in the two counters alone, or stop alike
(spec/70_reset_and_hazards.md R315, R316). -/
def Obligations.TimingNeverChangesResults : Prop :=
  ∀ s t : State, Inv s → Inv t → sameButTime s t →
    (∀ s', step s = .next s' → ∃ t', step t = .next t' ∧ sameButTime s' t') ∧
    (∀ f, step s = .fault f → step t = .fault f) ∧
    (∀ r, step s = .refused r → step t = .refused r)

/-! ### Resets -/

/-- accumulator_reset: DIST, UP and LO are +0, overflow, storage_selection and clocking are cleared, nothing else changes
(R302). -/
def Obligations.AccumulatorResetRule : Prop :=
  ∀ s : State, accumulatorReset s =
    { s with
      dist := Word.zero .plus, up := Word.zero .plus, lo := Word.zero .plus, overflow := false, storageSelection := false,
      clocking := false }

/-- error_reset clears storage_selection and clocking only, error_sense_reset clears error_sense only (R304). -/
def Obligations.ErrorResetRules : Prop :=
  ∀ s : State,
    errorReset s = { s with storageSelection := false, clocking := false } ∧ errorSenseReset s = { s with errorSense := false }

/-- program_reset and computer_reset (R301, R305, spec/10_state.md R58; the cursors and counters are the spec's decision,
log entry 24). -/
def Obligations.ProgramAndComputerReset : Prop :=
  ∀ s : State,
    let entry : Option Nat := if s.controlMode = .manual then none else some 8000
    programReset s =
      { s with
        pr := none, op := none, ar := entry, storageSelection := false, clocking := false, halfCycle := .instruction,
        runTime := 0, ic := 0, restart := false, restartSeen := false, fillStarted := false, shiftCount := 0,
        loopCount := 0 } ∧
    computerReset s = errorSenseReset (accumulatorReset (programReset s)) ∧
    (computerReset s).overflow = false ∧ (computerReset s).storageSelection = false ∧
    (computerReset s).clocking = false ∧ (computerReset s).errorSense = false

/-- What no reset changes: the drum, drum_index, the five mode registers, SE, AE and the power variables (R306). -/
def Obligations.WhatNoResetChanges : Prop :=
  ∀ (c : HostCall) (s t : State),
    c ∈ [HostCall.programReset, .accumulatorReset, .errorReset, .errorSenseReset, .computerReset] →
    hostCall c s = some t →
    t.drum = s.drum ∧ t.drumIndex = s.drumIndex ∧ t.controlMode = s.controlMode ∧ t.halfCycleMode = s.halfCycleMode ∧
    t.displayMode = s.displayMode ∧ t.programmedMode = s.programmedMode ∧ t.errorMode = s.errorMode ∧ t.se = s.se ∧
    t.ae = s.ae ∧ t.power = s.power ∧ t.dc = s.dc ∧ t.masterDisabled = s.masterDisabled ∧ t.elapsed = s.elapsed ∧
    t.dcAutoFired = s.dcAutoFired ∧ t.poweredOffOnce = s.poweredOffOnce

/-- The entry point: after program_reset or computer_reset AR is 8000 in an automatic mode and the next step runs the
storage-entry word, fetched with no wait; in manual mode AR is blank and transfer supplies an address (R303). -/
def Obligations.ResetEntersAtStorageEntry : Prop :=
  ∀ (s u : State), u = programReset s ∨ u = computerReset s →
    (automatic s = true → u.ar = some 8000 ∧
      ∀ i, isReady s = true → s.halfCycleMode = .run → s.drumIndex < 50 → decode s.params.opcodeMap s.se = .ok i →
        step u = exec i (fetched 8000 s.se u) ∧
          (s.params.runTimeWidth = none → (fetched 8000 s.se u).runTime = 2)) ∧
    (automatic s = false → u.ar = none ∧ ∀ a, s.ae = some a → (transfer u).ar = some a)

/-- The values the spec gives for construction: registers +0 or blank, counters and cursors 0, flags false, half-cycle
instruction, power off (R58, R300; where the source gives none they are the spec's decisions, log entries 4 and 24); and
the default of every open parameter (spec/00_scope.md R7; log entries 5, 10 to 14, 22, 29). -/
def Obligations.ConstructionValues : Prop :=
  let s := State.reset
  s.dist = Word.zero .plus ∧ s.up = Word.zero .plus ∧ s.lo = Word.zero .plus ∧ s.pr = none ∧ s.op = none ∧ s.ar = none ∧
  s.ae = none ∧ s.drumIndex = 0 ∧ s.runTime = 0 ∧ s.overflow = false ∧ s.storageSelection = false ∧ s.clocking = false ∧
  s.errorSense = false ∧ s.halfCycle = .instruction ∧ s.ic = 0 ∧ s.restart = false ∧ s.restartSeen = false ∧
  s.fillStarted = false ∧ s.shiftCount = 0 ∧ s.loopCount = 0 ∧ s.power = false ∧ s.dc = false ∧
  s.masterDisabled = false ∧ s.elapsed = 0 ∧ s.dcAutoFired = false ∧ s.poweredOffOnce = false ∧
  s.params =
    { opcodeMap := OpcodeMap.standard, stopHaltCycles := 2, stopPerformsLookahead := false, zeroSign := keepFirstSign,
      multSign := keepFirstSign, quotientOverflowHalts := false, stdaDest := 1, stiaDest := 7,
      blowerBeforeFirstPowerOn := none, runTimeWidth := none }

/-! ### Power -/

/-- is_ready() is power and DC-ready; after a power_on that acts it is false while less than 180 seconds have passed, in
whatever pieces, and true from 180 on (R290); that DC is not already on is a part of the invariant (R281). -/
def Obligations.ReadyAfterTheDelay : Prop :=
  (∀ s : State, isReady s = (s.power && s.dc)) ∧
  ∀ (s : State) (pieces : List Nat), Inv s → s.power = false → s.masterDisabled = false →
    isReady (pieces.foldl (fun t n => passSeconds n t) (powerOn s)) = decide (180 ≤ pieces.sum)

/-- power_on: nothing where power is already on or the master switch is off; otherwise elapsed is 0, power is on and the
automatic transition of DC is armed (R281). power_off, always allowed: elapsed is 0 and power and DC are off, also where
power was off before, which is the spec's own inference; nothing else changes but the record of an off that followed an on
(R282, R289; log entry 22). -/
def Obligations.PowerOnRule : Prop :=
  ∀ s : State,
    (s.power = true ∨ s.masterDisabled = true → powerOn s = s) ∧
    (s.power = false → s.masterDisabled = false →
      powerOn s = { s with elapsed := 0, power := true, dcAutoFired := false } ∧ (Inv s → (powerOn s).dc = false)) ∧
    powerOff s =
      { s with elapsed := 0, power := false, dc := false, poweredOffOnce := s.poweredOffOnce || s.power }

/-- dc_on needs power and 180 seconds, dc_off is always permitted (R284, R285). -/
def Obligations.DcSwitchRules : Prop :=
  ∀ s : State,
    (s.power = true → 180 ≤ s.elapsed → dcOn s = { s with dc := true }) ∧
    (s.power = false ∨ s.elapsed < 180 → dcOn s = s) ∧
    dcOff s = { s with dc := false }

/-- master_power_off powers off and makes every later power_on a no-op: whatever host calls follow, power stays off and
program_start is refused (R286; that a machine that is not ready refuses the call is the spec's decision, R291, log entry
18). -/
def Obligations.MasterPowerOffIsPermanent : Prop :=
  ∀ s : State,
    masterPowerOff s = { powerOff s with masterDisabled := true } ∧
    ∀ (calls : List HostCall) (t : State), calls.foldlM (fun u c => hostCall c u) (masterPowerOff s) = some t →
      t.masterDisabled = true ∧ t.power = false ∧ powerOn t = t ∧ step t = .refused .notReady

/-- The blower is on while power is on, for 300 seconds after a power_off once there has been a power_on, and never once the
master switch is off and power with it (R289). On a machine that was never powered, where BLOWER_BEFORE_FIRST_POWER_ON is
given, it is on if the parameter says on and fewer than 300 seconds have passed, and off otherwise: that the 300-second
limit holds there too is the model's choice (log entry 22), and so a parameter of on no longer shows from 300 seconds on.
Left unspecified, as by default, it is a free value of which nothing is said (log entry 22). -/
def Obligations.BlowerRunsOn : Prop :=
  ∀ (s : State) (n : Nat),
    (s.power = true → isBlowerOn s = true) ∧
    (s.power = true ∨ s.poweredOffOnce = true → s.masterDisabled = false →
      isBlowerOn (passSeconds n (powerOff s)) = decide (n < 300)) ∧
    isBlowerOn (masterPowerOff s) = false ∧
    ∀ b, s.params.blowerBeforeFirstPowerOn = some b → s.power = false → s.poweredOffOnce = false →
      s.masterDisabled = false → isBlowerOn s = (b && decide (s.elapsed < 300))

/-! ### The console -/

/-- transfer copies the address-entry value into AR in manual mode and changes nothing else, and does nothing in any other
mode; an address outside the valid set shows at once in the storage-selection query; with an instruction half-cycle due
the address outlives the change to an automatic mode (R233; the last is the spec's own inference and rests on the
condition of the re-synchronisation, R236, log entry 26). -/
def Obligations.TransferOnlyInManualMode : Prop :=
  ∀ s : State,
    (s.controlMode = .manual → transfer s = { s with ar := s.ae }) ∧
    (s.controlMode ≠ .manual → transfer s = s) ∧
    (s.controlMode = .manual → ∀ a, s.ae = some a → validAddress a = false → storageSelectionError (transfer s) = true) ∧
    (s.controlMode = .manual → s.halfCycle = .instruction → ∀ m, (setControlMode m (transfer s)).ar = s.ae)

/-- program_start in manual mode: the storage-entry word goes to the distributor, and no more in the four other display
modes; read-in writes it to the cell or register AR names, or sets storage_selection where AR names none; no cycle
passes (R230, R231; that no cycle passes, and the plain load of the four other display modes, are the spec's decision, log
entry 25; a blank AR stops by its decision, log entry 15). -/
def Obligations.ManualReadIn : Prop :=
  ∀ s : State, isReady s = true → s.controlMode = .manual →
    (s.displayMode ≠ .readInStorage → s.displayMode ≠ .readOutStorage → step s = .next { s with dist := s.se }) ∧
    (s.displayMode = .readInStorage →
      (s.ar = none → step s = .fault .blankAddress) ∧
      ∀ a, s.ar = some a →
        (a < 2000 → step s = .next { s with dist := s.se, drum := Memory.write s.drum a s.se }) ∧
        (a = 8000 ∨ a = 8001 → step s = .next { s with dist := s.se }) ∧
        (a = 8002 → step s = .next { s with dist := s.se, lo := s.se }) ∧
        (a = 8003 → step s = .next { s with dist := s.se, up := s.se }) ∧
        (validAddress a = false → step s = .next { s with dist := s.se, storageSelection := true }))

/-- Manual read-out: the word AR names goes to the distributor, the storage-entry word where AR is 8001, and display()
shows it; an AR outside the valid set or blank has no word (R232; the two stops are the spec's decision, log entry 15, and
so is that no cycle passes, log entry 25). -/
def Obligations.ManualReadOut : Prop :=
  ∀ s : State, isReady s = true → s.controlMode = .manual → s.displayMode = .readOutStorage →
    (∀ a w, s.ar = some a → a ≠ 8001 → memRead s a = .ok w →
      ∃ t, step s = .next t ∧ t = { s with dist := w } ∧ display t = .word w) ∧
    (s.ar = some 8001 → ∃ t, step s = .next t ∧ t = { s with dist := s.se } ∧ display t = .word s.se) ∧
    (∀ a, s.ar = some a → validAddress a = false → step s = .fault (.invalidAddress a)) ∧
    (s.ar = none → step s = .fault .blankAddress)

/-- The setter of control_mode: leaving manual mode with a data half-cycle due sets the half-cycle to instruction, blanks
OP and AR and restarts the sequence; every other change of mode changes control_mode only; and a program_start right
after the re-synchronisation stops at the blank address (R236). The spec's decisions: the reading of the condition (log
entry 26), `ic` at 0 (log entry 24), the stop at the blank address (log entry 15). -/
def Obligations.LeavingManualMidInstruction : Prop :=
  ∀ (s : State) (m : ControlMode),
    (s.controlMode = .manual → m ≠ .manual → s.halfCycle = .data →
      setControlMode m s = { s with controlMode := m, halfCycle := .instruction, op := none, ar := none, ic := 0 } ∧
      (isReady s = true → step (setControlMode m s) = .fault .blankAddress)) ∧
    (s.controlMode ≠ .manual ∨ m = .manual ∨ s.halfCycle = .instruction → setControlMode m s = { s with controlMode := m })

/-- The other setters store the value given and change nothing else; an address-entry value has four digits; a new
storage-entry value is what address 8000 reads at once (R234, R235; the values of error_mode, which the spec does not list,
are natural numbers by the model's choice, log entry 21). So do the setters of the bypass, whose list is the model's
inference from R248 and spec/70_reset_and_hazards.md R319 (log entry 28): a drum cell, which reads back as the word set,
drum_index within its range, DIST, UP, LO, error_sense and clocking. -/
def Obligations.SettersStoreTheirValue : Prop :=
  ∀ s : State,
    (∀ m, hostCall (.setHalfCycleMode m) s = some { s with halfCycleMode := m }) ∧
    (∀ m, hostCall (.setDisplayMode m) s = some { s with displayMode := m }) ∧
    (∀ m, hostCall (.setProgrammedMode m) s = some { s with programmedMode := m }) ∧
    (∀ m, hostCall (.setErrorMode m) s = some { s with errorMode := m }) ∧
    (∀ w, hostCall (.setStorageEntry w) s = some { s with se := w } ∧ memRead { s with se := w } 8000 = .ok w) ∧
    (∀ a, a < 10000 → hostCall (.setAddressEntry a) s = some { s with ae := some a }) ∧
    (∀ a w, a < 2000 → hostCall (.bypassDrum a w) s = some { s with drum := Memory.write s.drum a w } ∧
      (Memory.wf s.drum = true → getDrum a { s with drum := Memory.write s.drum a w } = some w)) ∧
    (∀ d, hostCall (.bypassDrumIndex d) s = if d < 50 then some { s with drumIndex := d } else none) ∧
    (∀ w, hostCall (.bypassDistributor w) s = some { s with dist := w } ∧
      hostCall (.bypassUpper w) s = some { s with up := w } ∧ hostCall (.bypassLower w) s = some { s with lo := w }) ∧
    (∀ b, hostCall (.bypassErrorSense b) s = some { s with errorSense := b } ∧
      hostCall (.bypassClocking b) s = some { s with clocking := b })

/-- What the console shows and answers: the six display modes (R241), operation_register and address_register (R242), the
half-cycle queries (R243), overflow and run_time (R244), and the four error queries (R245): storage selection as the stored
flag or a non-blank AR outside the valid set (spec/60_exceptions.md R262), clocking, error sense, and validity as an invalid
digit in DIST, UP, LO or a non-blank PR (spec/10_state.md R36). The two parts of the storage-selection query are the spec's
decision (log entry 23), and so are the choice of the four error queries and what a blank PR shows and raises (log entry
27). -/
def Obligations.DisplayAndQueries : Prop :=
  ∀ s : State,
    (s.displayMode = .lowerAccumulator → display s = .word s.lo) ∧
    (s.displayMode = .upperAccumulator → display s = .word s.up) ∧
    (∀ w, s.displayMode = .programRegister → s.pr = some w → display s = .word (withSign .dontCare w)) ∧
    (s.displayMode = .programRegister → s.pr = none → display s = .blank .dontCare) ∧
    (s.displayMode = .distributor ∨ s.displayMode = .readInStorage ∨ s.displayMode = .readOutStorage →
      display s = .word s.dist) ∧
    operationRegister s = s.op ∧ addressRegister s = s.ar ∧
    (dataAddressQuery s = true ↔ s.halfCycle = .data) ∧ (instructionAddressQuery s = !dataAddressQuery s) ∧
    overflowQuery s = s.overflow ∧ runTimeQuery s = s.runTime ∧
    (storageSelectionError s = true ↔
      s.storageSelection = true ∨ ∃ a, s.ar = some a ∧ ¬ (a ≤ 1999 ∨ (8000 ≤ a ∧ a ≤ 8003))) ∧
    clockingError s = s.clocking ∧ errorSenseError s = s.errorSense ∧
    (validityError s = true ↔
      ∃ (w : Word) (k : Nat), (w = s.dist ∨ w = s.up ∨ w = s.lo ∨ s.pr = some w) ∧ 1 ≤ k ∧ k ≤ 10 ∧
        (digitOf w k).isDecimal = false)
end

