-- ==== Sys2Proof/Laws/State.lean ====
section
/-! SUPPORT. One lemma per field for each named update of the state, each true by rfl. -/

namespace Sys2Proof.Machine

@[simp] theorem tick_params (s : State) : (tick s).params = s.params := rfl
@[simp] theorem tick_dist (s : State) : (tick s).dist = s.dist := rfl
@[simp] theorem tick_up (s : State) : (tick s).up = s.up := rfl
@[simp] theorem tick_lo (s : State) : (tick s).lo = s.lo := rfl
@[simp] theorem tick_pr (s : State) : (tick s).pr = s.pr := rfl
@[simp] theorem tick_op (s : State) : (tick s).op = s.op := rfl
@[simp] theorem tick_ar (s : State) : (tick s).ar = s.ar := rfl
@[simp] theorem tick_drum (s : State) : (tick s).drum = s.drum := rfl
@[simp] theorem tick_drumIndex (s : State) : (tick s).drumIndex = (s.drumIndex + 1) % 50 := rfl
@[simp] theorem tick_runTime (s : State) : (tick s).runTime = nextRunTime s.params s.runTime := rfl
@[simp] theorem tick_overflow (s : State) : (tick s).overflow = s.overflow := rfl
@[simp] theorem tick_storageSelection (s : State) : (tick s).storageSelection = s.storageSelection := rfl
@[simp] theorem tick_clocking (s : State) : (tick s).clocking = s.clocking := rfl
@[simp] theorem tick_errorSense (s : State) : (tick s).errorSense = s.errorSense := rfl
@[simp] theorem tick_halfCycle (s : State) : (tick s).halfCycle = s.halfCycle := rfl
@[simp] theorem tick_controlMode (s : State) : (tick s).controlMode = s.controlMode := rfl
@[simp] theorem tick_halfCycleMode (s : State) : (tick s).halfCycleMode = s.halfCycleMode := rfl
@[simp] theorem tick_displayMode (s : State) : (tick s).displayMode = s.displayMode := rfl
@[simp] theorem tick_programmedMode (s : State) : (tick s).programmedMode = s.programmedMode := rfl
@[simp] theorem tick_errorMode (s : State) : (tick s).errorMode = s.errorMode := rfl
@[simp] theorem tick_se (s : State) : (tick s).se = s.se := rfl
@[simp] theorem tick_ae (s : State) : (tick s).ae = s.ae := rfl
@[simp] theorem tick_ic (s : State) : (tick s).ic = s.ic := rfl
@[simp] theorem tick_oc (s : State) : (tick s).oc = s.oc := rfl
@[simp] theorem tick_restart (s : State) : (tick s).restart = s.restart := rfl
@[simp] theorem tick_restartSeen (s : State) : (tick s).restartSeen = s.restartSeen := rfl
@[simp] theorem tick_shiftCount (s : State) : (tick s).shiftCount = s.shiftCount := rfl
@[simp] theorem tick_loopCount (s : State) : (tick s).loopCount = s.loopCount := rfl
@[simp] theorem tick_fillStarted (s : State) : (tick s).fillStarted = s.fillStarted := rfl
@[simp] theorem tick_power (s : State) : (tick s).power = s.power := rfl
@[simp] theorem tick_dc (s : State) : (tick s).dc = s.dc := rfl
@[simp] theorem tick_masterDisabled (s : State) : (tick s).masterDisabled = s.masterDisabled := rfl
@[simp] theorem tick_elapsed (s : State) : (tick s).elapsed = s.elapsed := rfl
@[simp] theorem tick_dcAutoFired (s : State) : (tick s).dcAutoFired = s.dcAutoFired := rfl
@[simp] theorem tick_poweredOffOnce (s : State) : (tick s).poweredOffOnce = s.poweredOffOnce := rfl

@[simp] theorem afterCycles_params (n : Nat) (s : State) : (afterCycles n s).params = s.params := rfl
@[simp] theorem afterCycles_dist (n : Nat) (s : State) : (afterCycles n s).dist = s.dist := rfl
@[simp] theorem afterCycles_up (n : Nat) (s : State) : (afterCycles n s).up = s.up := rfl
@[simp] theorem afterCycles_lo (n : Nat) (s : State) : (afterCycles n s).lo = s.lo := rfl
@[simp] theorem afterCycles_pr (n : Nat) (s : State) : (afterCycles n s).pr = s.pr := rfl
@[simp] theorem afterCycles_op (n : Nat) (s : State) : (afterCycles n s).op = s.op := rfl
@[simp] theorem afterCycles_ar (n : Nat) (s : State) : (afterCycles n s).ar = s.ar := rfl
@[simp] theorem afterCycles_drum (n : Nat) (s : State) : (afterCycles n s).drum = s.drum := rfl
@[simp] theorem afterCycles_drumIndex (n : Nat) (s : State) : (afterCycles n s).drumIndex = drumIndexAfter n s.drumIndex := rfl
@[simp] theorem afterCycles_runTime (n : Nat) (s : State) : (afterCycles n s).runTime = runTimeAfter s.params n s.runTime := rfl
@[simp] theorem afterCycles_overflow (n : Nat) (s : State) : (afterCycles n s).overflow = s.overflow := rfl
@[simp] theorem afterCycles_storageSelection (n : Nat) (s : State) : (afterCycles n s).storageSelection = s.storageSelection := rfl
@[simp] theorem afterCycles_clocking (n : Nat) (s : State) : (afterCycles n s).clocking = s.clocking := rfl
@[simp] theorem afterCycles_errorSense (n : Nat) (s : State) : (afterCycles n s).errorSense = s.errorSense := rfl
@[simp] theorem afterCycles_halfCycle (n : Nat) (s : State) : (afterCycles n s).halfCycle = s.halfCycle := rfl
@[simp] theorem afterCycles_controlMode (n : Nat) (s : State) : (afterCycles n s).controlMode = s.controlMode := rfl
@[simp] theorem afterCycles_halfCycleMode (n : Nat) (s : State) : (afterCycles n s).halfCycleMode = s.halfCycleMode := rfl
@[simp] theorem afterCycles_displayMode (n : Nat) (s : State) : (afterCycles n s).displayMode = s.displayMode := rfl
@[simp] theorem afterCycles_programmedMode (n : Nat) (s : State) : (afterCycles n s).programmedMode = s.programmedMode := rfl
@[simp] theorem afterCycles_errorMode (n : Nat) (s : State) : (afterCycles n s).errorMode = s.errorMode := rfl
@[simp] theorem afterCycles_se (n : Nat) (s : State) : (afterCycles n s).se = s.se := rfl
@[simp] theorem afterCycles_ae (n : Nat) (s : State) : (afterCycles n s).ae = s.ae := rfl
@[simp] theorem afterCycles_ic (n : Nat) (s : State) : (afterCycles n s).ic = s.ic := rfl
@[simp] theorem afterCycles_oc (n : Nat) (s : State) : (afterCycles n s).oc = s.oc := rfl
@[simp] theorem afterCycles_restart (n : Nat) (s : State) : (afterCycles n s).restart = s.restart := rfl
@[simp] theorem afterCycles_restartSeen (n : Nat) (s : State) : (afterCycles n s).restartSeen = s.restartSeen := rfl
@[simp] theorem afterCycles_shiftCount (n : Nat) (s : State) : (afterCycles n s).shiftCount = s.shiftCount := rfl
@[simp] theorem afterCycles_loopCount (n : Nat) (s : State) : (afterCycles n s).loopCount = s.loopCount := rfl
@[simp] theorem afterCycles_fillStarted (n : Nat) (s : State) : (afterCycles n s).fillStarted = s.fillStarted := rfl
@[simp] theorem afterCycles_power (n : Nat) (s : State) : (afterCycles n s).power = s.power := rfl
@[simp] theorem afterCycles_dc (n : Nat) (s : State) : (afterCycles n s).dc = s.dc := rfl
@[simp] theorem afterCycles_masterDisabled (n : Nat) (s : State) : (afterCycles n s).masterDisabled = s.masterDisabled := rfl
@[simp] theorem afterCycles_elapsed (n : Nat) (s : State) : (afterCycles n s).elapsed = s.elapsed := rfl
@[simp] theorem afterCycles_dcAutoFired (n : Nat) (s : State) : (afterCycles n s).dcAutoFired = s.dcAutoFired := rfl
@[simp] theorem afterCycles_poweredOffOnce (n : Nat) (s : State) : (afterCycles n s).poweredOffOnce = s.poweredOffOnce := rfl

@[simp] theorem beginData_params (da : Nat) (s : State) : (beginData da s).params = s.params := rfl
@[simp] theorem beginData_dist (da : Nat) (s : State) : (beginData da s).dist = s.dist := rfl
@[simp] theorem beginData_up (da : Nat) (s : State) : (beginData da s).up = s.up := rfl
@[simp] theorem beginData_lo (da : Nat) (s : State) : (beginData da s).lo = s.lo := rfl
@[simp] theorem beginData_pr (da : Nat) (s : State) : (beginData da s).pr = s.pr := rfl
@[simp] theorem beginData_op (da : Nat) (s : State) : (beginData da s).op = s.op := rfl
@[simp] theorem beginData_ar (da : Nat) (s : State) : (beginData da s).ar = some da := rfl
@[simp] theorem beginData_drum (da : Nat) (s : State) : (beginData da s).drum = s.drum := rfl
@[simp] theorem beginData_drumIndex (da : Nat) (s : State) : (beginData da s).drumIndex = s.drumIndex := rfl
@[simp] theorem beginData_runTime (da : Nat) (s : State) : (beginData da s).runTime = s.runTime := rfl
@[simp] theorem beginData_overflow (da : Nat) (s : State) : (beginData da s).overflow = s.overflow := rfl
@[simp] theorem beginData_storageSelection (da : Nat) (s : State) : (beginData da s).storageSelection = s.storageSelection := rfl
@[simp] theorem beginData_clocking (da : Nat) (s : State) : (beginData da s).clocking = s.clocking := rfl
@[simp] theorem beginData_errorSense (da : Nat) (s : State) : (beginData da s).errorSense = s.errorSense := rfl
@[simp] theorem beginData_halfCycle (da : Nat) (s : State) : (beginData da s).halfCycle = .data := rfl
@[simp] theorem beginData_controlMode (da : Nat) (s : State) : (beginData da s).controlMode = s.controlMode := rfl
@[simp] theorem beginData_halfCycleMode (da : Nat) (s : State) : (beginData da s).halfCycleMode = s.halfCycleMode := rfl
@[simp] theorem beginData_displayMode (da : Nat) (s : State) : (beginData da s).displayMode = s.displayMode := rfl
@[simp] theorem beginData_programmedMode (da : Nat) (s : State) : (beginData da s).programmedMode = s.programmedMode := rfl
@[simp] theorem beginData_errorMode (da : Nat) (s : State) : (beginData da s).errorMode = s.errorMode := rfl
@[simp] theorem beginData_se (da : Nat) (s : State) : (beginData da s).se = s.se := rfl
@[simp] theorem beginData_ae (da : Nat) (s : State) : (beginData da s).ae = s.ae := rfl
@[simp] theorem beginData_ic (da : Nat) (s : State) : (beginData da s).ic = 2 := rfl
@[simp] theorem beginData_oc (da : Nat) (s : State) : (beginData da s).oc = 0 := rfl
@[simp] theorem beginData_restart (da : Nat) (s : State) : (beginData da s).restart = false := rfl
@[simp] theorem beginData_restartSeen (da : Nat) (s : State) : (beginData da s).restartSeen = false := rfl
@[simp] theorem beginData_shiftCount (da : Nat) (s : State) : (beginData da s).shiftCount = s.shiftCount := rfl
@[simp] theorem beginData_loopCount (da : Nat) (s : State) : (beginData da s).loopCount = s.loopCount := rfl
@[simp] theorem beginData_fillStarted (da : Nat) (s : State) : (beginData da s).fillStarted = s.fillStarted := rfl
@[simp] theorem beginData_power (da : Nat) (s : State) : (beginData da s).power = s.power := rfl
@[simp] theorem beginData_dc (da : Nat) (s : State) : (beginData da s).dc = s.dc := rfl
@[simp] theorem beginData_masterDisabled (da : Nat) (s : State) : (beginData da s).masterDisabled = s.masterDisabled := rfl
@[simp] theorem beginData_elapsed (da : Nat) (s : State) : (beginData da s).elapsed = s.elapsed := rfl
@[simp] theorem beginData_dcAutoFired (da : Nat) (s : State) : (beginData da s).dcAutoFired = s.dcAutoFired := rfl
@[simp] theorem beginData_poweredOffOnce (da : Nat) (s : State) : (beginData da s).poweredOffOnce = s.poweredOffOnce := rfl

@[simp] theorem completed_params (steps ia : Nat) (r : Bool) (n : Nat) (s : State) : (completed steps ia r n s).params = s.params := rfl
@[simp] theorem completed_dist (steps ia : Nat) (r : Bool) (n : Nat) (s : State) : (completed steps ia r n s).dist = s.dist := rfl
@[simp] theorem completed_up (steps ia : Nat) (r : Bool) (n : Nat) (s : State) : (completed steps ia r n s).up = s.up := rfl
@[simp] theorem completed_lo (steps ia : Nat) (r : Bool) (n : Nat) (s : State) : (completed steps ia r n s).lo = s.lo := rfl
@[simp] theorem completed_pr (steps ia : Nat) (r : Bool) (n : Nat) (s : State) : (completed steps ia r n s).pr = s.pr := rfl
@[simp] theorem completed_op (steps ia : Nat) (r : Bool) (n : Nat) (s : State) : (completed steps ia r n s).op = s.op := rfl
@[simp] theorem completed_ar (steps ia : Nat) (r : Bool) (n : Nat) (s : State) : (completed steps ia r n s).ar = some ia := rfl
@[simp] theorem completed_drum (steps ia : Nat) (r : Bool) (n : Nat) (s : State) : (completed steps ia r n s).drum = s.drum := rfl
@[simp] theorem completed_drumIndex (steps ia : Nat) (r : Bool) (n : Nat) (s : State) : (completed steps ia r n s).drumIndex = drumIndexAfter n s.drumIndex := rfl
@[simp] theorem completed_runTime (steps ia : Nat) (r : Bool) (n : Nat) (s : State) : (completed steps ia r n s).runTime = runTimeAfter s.params n s.runTime := rfl
@[simp] theorem completed_overflow (steps ia : Nat) (r : Bool) (n : Nat) (s : State) : (completed steps ia r n s).overflow = s.overflow := rfl
@[simp] theorem completed_storageSelection (steps ia : Nat) (r : Bool) (n : Nat) (s : State) : (completed steps ia r n s).storageSelection = s.storageSelection := rfl
@[simp] theorem completed_clocking (steps ia : Nat) (r : Bool) (n : Nat) (s : State) : (completed steps ia r n s).clocking = s.clocking := rfl
@[simp] theorem completed_errorSense (steps ia : Nat) (r : Bool) (n : Nat) (s : State) : (completed steps ia r n s).errorSense = s.errorSense := rfl
@[simp] theorem completed_halfCycle (steps ia : Nat) (r : Bool) (n : Nat) (s : State) : (completed steps ia r n s).halfCycle = .instruction := rfl
@[simp] theorem completed_controlMode (steps ia : Nat) (r : Bool) (n : Nat) (s : State) : (completed steps ia r n s).controlMode = s.controlMode := rfl
@[simp] theorem completed_halfCycleMode (steps ia : Nat) (r : Bool) (n : Nat) (s : State) : (completed steps ia r n s).halfCycleMode = s.halfCycleMode := rfl
@[simp] theorem completed_displayMode (steps ia : Nat) (r : Bool) (n : Nat) (s : State) : (completed steps ia r n s).displayMode = s.displayMode := rfl
@[simp] theorem completed_programmedMode (steps ia : Nat) (r : Bool) (n : Nat) (s : State) : (completed steps ia r n s).programmedMode = s.programmedMode := rfl
@[simp] theorem completed_errorMode (steps ia : Nat) (r : Bool) (n : Nat) (s : State) : (completed steps ia r n s).errorMode = s.errorMode := rfl
@[simp] theorem completed_se (steps ia : Nat) (r : Bool) (n : Nat) (s : State) : (completed steps ia r n s).se = s.se := rfl
@[simp] theorem completed_ae (steps ia : Nat) (r : Bool) (n : Nat) (s : State) : (completed steps ia r n s).ae = s.ae := rfl
@[simp] theorem completed_ic (steps ia : Nat) (r : Bool) (n : Nat) (s : State) : (completed steps ia r n s).ic = 4 := rfl
@[simp] theorem completed_oc (steps ia : Nat) (r : Bool) (n : Nat) (s : State) : (completed steps ia r n s).oc = steps := rfl
@[simp] theorem completed_restart (steps ia : Nat) (r : Bool) (n : Nat) (s : State) : (completed steps ia r n s).restart = r := rfl
@[simp] theorem completed_restartSeen (steps ia : Nat) (r : Bool) (n : Nat) (s : State) : (completed steps ia r n s).restartSeen = r := rfl
@[simp] theorem completed_shiftCount (steps ia : Nat) (r : Bool) (n : Nat) (s : State) : (completed steps ia r n s).shiftCount = s.shiftCount := rfl
@[simp] theorem completed_loopCount (steps ia : Nat) (r : Bool) (n : Nat) (s : State) : (completed steps ia r n s).loopCount = s.loopCount := rfl
@[simp] theorem completed_fillStarted (steps ia : Nat) (r : Bool) (n : Nat) (s : State) : (completed steps ia r n s).fillStarted = s.fillStarted := rfl
@[simp] theorem completed_power (steps ia : Nat) (r : Bool) (n : Nat) (s : State) : (completed steps ia r n s).power = s.power := rfl
@[simp] theorem completed_dc (steps ia : Nat) (r : Bool) (n : Nat) (s : State) : (completed steps ia r n s).dc = s.dc := rfl
@[simp] theorem completed_masterDisabled (steps ia : Nat) (r : Bool) (n : Nat) (s : State) : (completed steps ia r n s).masterDisabled = s.masterDisabled := rfl
@[simp] theorem completed_elapsed (steps ia : Nat) (r : Bool) (n : Nat) (s : State) : (completed steps ia r n s).elapsed = s.elapsed := rfl
@[simp] theorem completed_dcAutoFired (steps ia : Nat) (r : Bool) (n : Nat) (s : State) : (completed steps ia r n s).dcAutoFired = s.dcAutoFired := rfl
@[simp] theorem completed_poweredOffOnce (steps ia : Nat) (r : Bool) (n : Nat) (s : State) : (completed steps ia r n s).poweredOffOnce = s.poweredOffOnce := rfl

@[simp] theorem halted_params (steps da n : Nat) (s : State) : (halted steps da n s).params = s.params := rfl
@[simp] theorem halted_dist (steps da n : Nat) (s : State) : (halted steps da n s).dist = s.dist := rfl
@[simp] theorem halted_up (steps da n : Nat) (s : State) : (halted steps da n s).up = s.up := rfl
@[simp] theorem halted_lo (steps da n : Nat) (s : State) : (halted steps da n s).lo = s.lo := rfl
@[simp] theorem halted_pr (steps da n : Nat) (s : State) : (halted steps da n s).pr = s.pr := rfl
@[simp] theorem halted_op (steps da n : Nat) (s : State) : (halted steps da n s).op = s.op := rfl
@[simp] theorem halted_ar (steps da n : Nat) (s : State) : (halted steps da n s).ar = some da := rfl
@[simp] theorem halted_drum (steps da n : Nat) (s : State) : (halted steps da n s).drum = s.drum := rfl
@[simp] theorem halted_drumIndex (steps da n : Nat) (s : State) : (halted steps da n s).drumIndex = drumIndexAfter n s.drumIndex := rfl
@[simp] theorem halted_runTime (steps da n : Nat) (s : State) : (halted steps da n s).runTime = runTimeAfter s.params n s.runTime := rfl
@[simp] theorem halted_overflow (steps da n : Nat) (s : State) : (halted steps da n s).overflow = s.overflow := rfl
@[simp] theorem halted_storageSelection (steps da n : Nat) (s : State) : (halted steps da n s).storageSelection = s.storageSelection := rfl
@[simp] theorem halted_clocking (steps da n : Nat) (s : State) : (halted steps da n s).clocking = s.clocking := rfl
@[simp] theorem halted_errorSense (steps da n : Nat) (s : State) : (halted steps da n s).errorSense = s.errorSense := rfl
@[simp] theorem halted_halfCycle (steps da n : Nat) (s : State) : (halted steps da n s).halfCycle = .data := rfl
@[simp] theorem halted_controlMode (steps da n : Nat) (s : State) : (halted steps da n s).controlMode = s.controlMode := rfl
@[simp] theorem halted_halfCycleMode (steps da n : Nat) (s : State) : (halted steps da n s).halfCycleMode = s.halfCycleMode := rfl
@[simp] theorem halted_displayMode (steps da n : Nat) (s : State) : (halted steps da n s).displayMode = s.displayMode := rfl
@[simp] theorem halted_programmedMode (steps da n : Nat) (s : State) : (halted steps da n s).programmedMode = s.programmedMode := rfl
@[simp] theorem halted_errorMode (steps da n : Nat) (s : State) : (halted steps da n s).errorMode = s.errorMode := rfl
@[simp] theorem halted_se (steps da n : Nat) (s : State) : (halted steps da n s).se = s.se := rfl
@[simp] theorem halted_ae (steps da n : Nat) (s : State) : (halted steps da n s).ae = s.ae := rfl
@[simp] theorem halted_ic (steps da n : Nat) (s : State) : (halted steps da n s).ic = 2 := rfl
@[simp] theorem halted_oc (steps da n : Nat) (s : State) : (halted steps da n s).oc = steps := rfl
@[simp] theorem halted_restart (steps da n : Nat) (s : State) : (halted steps da n s).restart = false := rfl
@[simp] theorem halted_restartSeen (steps da n : Nat) (s : State) : (halted steps da n s).restartSeen = false := rfl
@[simp] theorem halted_shiftCount (steps da n : Nat) (s : State) : (halted steps da n s).shiftCount = s.shiftCount := rfl
@[simp] theorem halted_loopCount (steps da n : Nat) (s : State) : (halted steps da n s).loopCount = s.loopCount := rfl
@[simp] theorem halted_fillStarted (steps da n : Nat) (s : State) : (halted steps da n s).fillStarted = s.fillStarted := rfl
@[simp] theorem halted_power (steps da n : Nat) (s : State) : (halted steps da n s).power = s.power := rfl
@[simp] theorem halted_dc (steps da n : Nat) (s : State) : (halted steps da n s).dc = s.dc := rfl
@[simp] theorem halted_masterDisabled (steps da n : Nat) (s : State) : (halted steps da n s).masterDisabled = s.masterDisabled := rfl
@[simp] theorem halted_elapsed (steps da n : Nat) (s : State) : (halted steps da n s).elapsed = s.elapsed := rfl
@[simp] theorem halted_dcAutoFired (steps da n : Nat) (s : State) : (halted steps da n s).dcAutoFired = s.dcAutoFired := rfl
@[simp] theorem halted_poweredOffOnce (steps da n : Nat) (s : State) : (halted steps da n s).poweredOffOnce = s.poweredOffOnce := rfl

/-! ### Time -/

/-- Cycles that pass one after the other add up, for the cycle counter. -/
@[simp] theorem runTimeAfter_runTimeAfter (p : Params) (m n t : Nat) :
    runTimeAfter p n (runTimeAfter p m t) = runTimeAfter p (m + n) t := by
  induction m generalizing t with
  | zero => rw [Nat.zero_add]; rfl
  | succ m ih => rw [Nat.succ_add]; exact ih (nextRunTime p t)

/-- Cycles that pass one after the other add up, for the drum. -/
@[simp] theorem drumIndexAfter_drumIndexAfter (m n d : Nat) :
    drumIndexAfter n (drumIndexAfter m d) = drumIndexAfter (m + n) d := by
  induction m generalizing d with
  | zero => rw [Nat.zero_add]; rfl
  | succ m ih => rw [Nat.succ_add]; exact ih ((d + 1) % 50)

/-- A counter without bound counts every cycle (R31). -/
theorem runTimeAfter_unbounded {p : Params} (h : p.runTimeWidth = none) (n t : Nat) : runTimeAfter p n t = t + n := by
  induction n generalizing t with
  | zero => rfl
  | succ n ih => rw [runTimeAfter, ih]; simp only [nextRunTime, h]; omega

/-- The drum index after `n` cycles, from an index in range (R30). -/
theorem drumIndexAfter_of_lt {d : Nat} (h : d < 50) (n : Nat) : drumIndexAfter n d = (d + n) % 50 := by
  induction n generalizing d with
  | zero => exact (Nat.mod_eq_of_lt h).symm
  | succ n ih =>
    rw [drumIndexAfter, ih (Nat.mod_lt _ (by decide))]
    show ((d + 1) % 50 + n) % 50 = _
    omega

theorem drumIndexAfter_lt {d : Nat} (h : d < 50) (n : Nat) : drumIndexAfter n d < 50 := by
  rw [drumIndexAfter_of_lt h]; exact Nat.mod_lt _ (by decide)

theorem drumIndexAfter_succ_lt (n d : Nat) : drumIndexAfter (n + 1) d < 50 :=
  drumIndexAfter_lt (Nat.mod_lt _ (by decide)) n

/-- One cycle after an odd run_time comes an even one, whatever the width of the counter. -/
theorem nextRunTime_parity (p : Params) {t : Nat} (h : t % 2 = 1) : nextRunTime p t % 2 = 0 := by
  unfold nextRunTime
  split
  · omega
  · next w _ =>
    cases w with
    | zero => omega
    | succ w =>
      rw [Nat.mod_mod_of_dvd _ (show 2 ∣ 10 ^ (w + 1) from ⟨5 * 10 ^ w, by rw [Nat.pow_succ]; omega⟩)]
      omega

/-- The two counters after equally many cycles. -/
theorem time_congr {m n : Nat} (h : m = n) (p : Params) (t d : Nat) :
    drumIndexAfter m d = drumIndexAfter n d ∧ runTimeAfter p m t = runTimeAfter p n t := by
  subst h; exact ⟨rfl, rfl⟩

/-- One `Tick()` is one cycle passed. -/
theorem tick_eq_afterCycles (s : State) : tick s = afterCycles 1 s := rfl

/-- Cycles that pass one after the other add up. -/
@[simp] theorem afterCycles_afterCycles (m n : Nat) (s : State) :
    afterCycles n (afterCycles m s) = afterCycles (m + n) s := by
  simp only [afterCycles, runTimeAfter_runTimeAfter, drumIndexAfter_drumIndexAfter]

/-- No cycle passed changes nothing. -/
theorem afterCycles_zero (s : State) : afterCycles 0 s = s := rfl

/-- `n` idle cycles are `n` cycles passed. -/
theorem tickN_eq_afterCycles (n : Nat) (s : State) : tickN n s = afterCycles n s := by
  induction n generalizing s with
  | zero => rfl
  | succ n ih => rw [tickN, ih]; rfl

/-- Storage reads do not see the two counters of time. -/
@[simp] theorem memRead_afterCycles (n : Nat) (s : State) (a : Nat) : memRead (afterCycles n s) a = memRead s a := rfl

/-- Storage reads do not see what the start of a data half-cycle writes. -/
@[simp] theorem memRead_beginData (da : Nat) (s : State) (a : Nat) :
    memRead (beginData da s) a = memRead s a := rfl

end Sys2Proof.Machine
end

