-- ==== Sys2Proof/Laws/Cycle.lean ====
section
/-! SUPPORT. Laws of the data half-cycle: what a cycle does, how long a micro-step takes, and how a sequence runs to its end. -/

namespace Sys2Proof.Machine

/-! ### What a micro-step leaves alone -/

/-- Everything no micro-step writes: time, the fields I1 and I2 own, the cursors, the modes, the switches, the power
state, the open parameters and the flags that only the host or a reset writes. -/
structure MicroFrame (s t : State) : Prop where
  params : t.params = s.params
  pr : t.pr = s.pr
  op : t.op = s.op
  ar : t.ar = s.ar
  drumIndex : t.drumIndex = s.drumIndex
  runTime : t.runTime = s.runTime
  clocking : t.clocking = s.clocking
  errorSense : t.errorSense = s.errorSense
  halfCycle : t.halfCycle = s.halfCycle
  controlMode : t.controlMode = s.controlMode
  halfCycleMode : t.halfCycleMode = s.halfCycleMode
  displayMode : t.displayMode = s.displayMode
  programmedMode : t.programmedMode = s.programmedMode
  errorMode : t.errorMode = s.errorMode
  se : t.se = s.se
  ae : t.ae = s.ae
  ic : t.ic = s.ic
  oc : t.oc = s.oc
  restartSeen : t.restartSeen = s.restartSeen
  power : t.power = s.power
  dc : t.dc = s.dc
  masterDisabled : t.masterDisabled = s.masterDisabled
  elapsed : t.elapsed = s.elapsed
  dcAutoFired : t.dcAutoFired = s.dcAutoFired
  poweredOffOnce : t.poweredOffOnce = s.poweredOffOnce

/-- The state a result carries. -/
def MicroResult.state? : MicroResult → Option State
  | .done t => some t
  | .notYet t => some t
  | .halt t => some t
  | .fault _ => none

theorem loadFromStorage_frame {s t : State} (h : (loadFromStorage s).state? = some t) : MicroFrame s t := by
  unfold loadFromStorage at h
  split at h
  · cases h
  · split at h
    · split at h <;> cases h; constructor <;> rfl
    · cases h; constructor <;> rfl

theorem storeDistributor_frame {s t : State} (h : (storeDistributor s).state? = some t) : MicroFrame s t := by
  unfold storeDistributor at h
  split at h
  · cases h
  · split at h
    · cases h; constructor <;> rfl
    · split at h <;> (cases h; constructor <;> rfl)

theorem accumulateEffect_frame {kind : AccumulateKind} {form : OperandForm} {half : Half} {s t : State}
    (h : accumulateEffect kind form half s = .ok t) : MicroFrame s t := by
  cases kind <;> cases half <;> simp only [accumulateEffect] at h <;> split at h <;>
    (cases h; try constructor <;> rfl)

theorem accumulateStep_frame {kind : AccumulateKind} {form : OperandForm} {half : Half} {s t : State}
    (h : (accumulateStep kind form half s).state? = some t) : MicroFrame s t := by
  unfold accumulateStep at h
  split at h
  · split at h
    · next u hu =>
      cases h
      have := accumulateEffect_frame hu
      constructor <;> first | exact this.params | exact this.pr | exact this.op | exact this.ar | exact this.drumIndex | exact this.runTime | exact this.clocking | exact this.errorSense | exact this.halfCycle | exact this.controlMode | exact this.halfCycleMode | exact this.displayMode | exact this.programmedMode | exact this.errorMode | exact this.se | exact this.ae | exact this.ic | exact this.oc | exact this.restartSeen | exact this.power | exact this.dc | exact this.masterDisabled | exact this.elapsed | exact this.dcAutoFired | exact this.poweredOffOnce
    · cases h
  · split at h <;> (cases h; constructor <;> rfl)

theorem MicroFrame.refl (s : State) : MicroFrame s s := by constructor <;> rfl

theorem MicroFrame.trans {s t u : State} (h : MicroFrame s t) (k : MicroFrame t u) : MicroFrame s u := by
  obtain ⟨⟩ := h
  obtain ⟨⟩ := k
  constructor <;> simp_all only

theorem multiplyEntry_frame (s : State) : MicroFrame s (multiplyEntry s) := by
  unfold multiplyEntry; split <;> (constructor <;> rfl)

theorem divideEntry_frame (s : State) : MicroFrame s (divideEntry s) := by
  unfold divideEntry; split <;> (constructor <;> rfl)

theorem multiplyFinish_frame {s t : State} (h : (multiplyFinish s).state? = some t) : MicroFrame s t := by
  unfold multiplyFinish at h; split at h <;> (cases h; constructor <;> rfl)

theorem multiplyStep_frame {s t : State} (h : (multiplyStep s).state? = some t) : MicroFrame s t := by
  unfold multiplyStep at h
  simp only at h
  split at h
  · refine (multiplyEntry_frame s).trans (MicroFrame.trans ?_ (multiplyFinish_frame h))
    split <;> (constructor <;> rfl)
  · cases h

theorem divideTrial_frame {r : Bool} {s t : State} (h : (divideTrial r s).state? = some t) : MicroFrame s t := by
  unfold divideTrial at h
  split at h
  · split at h
    · unfold quotientOverflow at h
      simp only at h
      split at h <;> (cases h; constructor <;> rfl)
    · cases h; constructor <;> rfl
  · unfold divideRestore at h
    split at h <;> (cases h; constructor <;> rfl)

theorem divideStep_frame {r : Bool} {s t : State} (h : (divideStep r s).state? = some t) : MicroFrame s t := by
  unfold divideStep at h
  simp only at h
  split at h
  · refine (divideEntry_frame s).trans ?_
    split at h
    · cases h; constructor <;> rfl
    · exact divideTrial_frame h
  · cases h

/-- No micro-step writes what the frame names. -/
theorem runMicro_frame {m : MicroOp} {s t : State} (h : (runMicro m s).state? = some t) : MicroFrame s t := by
  cases m with
  | enable => cases h; exact MicroFrame.refl s
  | release => cases h; exact MicroFrame.refl s
  | loadStorage => exact loadFromStorage_frame h
  | loadLower => cases h; constructor <;> rfl
  | loadUpper => cases h; constructor <;> rfl
  | loadDataField => cases h; constructor <;> rfl
  | loadInstructionField => cases h; constructor <;> rfl
  | store => exact storeDistributor_frame h
  | accumulate kind form half => exact accumulateStep_frame h
  | multiply => exact multiplyStep_frame h
  | divide r => exact divideStep_frame h

theorem multiplyFinish_notYet {s t : State} (h : multiplyFinish s = .notYet t) : t = s := by
  simp only [multiplyFinish] at h
  split at h <;> cases h
  rfl

/-- A step that is to be called again has not raised `restart`. -/
theorem runMicro_notYet_restart {m : MicroOp} {s t : State} (hr : s.restart = false) (h : runMicro m s = .notYet t) :
    t.restart = false := by
  cases m with
  | enable => cases h
  | release => cases h
  | loadLower => cases h
  | loadUpper => cases h
  | loadDataField => cases h
  | loadInstructionField => cases h
  | loadStorage =>
    simp only [runMicro, loadFromStorage] at h
    split at h
    · cases h
    · split at h
      · split at h <;> cases h
      · cases h; exact hr
  | store =>
    simp only [runMicro, storeDistributor] at h
    split at h
    · cases h
    · split at h
      · cases h
      · split at h <;> cases h; exact hr
  | accumulate kind form half =>
    simp only [runMicro, accumulateStep] at h
    split at h
    · split at h <;> cases h
    · split at h <;> (cases h; exact hr)
  | multiply =>
    have he : (multiplyEntry s).restart = false := by simp only [multiplyEntry]; split <;> exact hr
    simp only [runMicro, multiplyStep] at h
    split at h
    · rw [multiplyFinish_notYet h]; split <;> exact he
    · cases h
  | divide r =>
    simp only [runMicro, divideStep] at h
    split at h
    · have he : (divideEntry s).restart = false := by simp only [divideEntry]; split <;> exact hr
      split at h
      · cases h; exact he
      · simp only [divideTrial, quotientOverflow, divideRestore] at h
        split at h
        · split at h
          · split at h <;> cases h
          · cases h; exact he
        · split at h <;> cases h; exact he
    · cases h

/-! ### How long a micro-step takes -/

/-- Called once a cycle from `s` on, micro-step `m` answers `e` in its `n`-th call, and `not-yet` before. -/
inductive Ends (m : MicroOp) (e : MicroResult) : Nat → State → Prop where
  | last {s : State} : runMicro m s = e → Ends m e 1 s
  | again {n : Nat} {s u : State} : runMicro m s = .notYet u → Ends m e n (tick u) → Ends m e (n + 1) s

/-- Called once a cycle from `s` on, micro-step `m` is done in its `n`-th call, with `t`. -/
abbrev Takes (m : MicroOp) (n : Nat) (s t : State) : Prop := Ends m (.done t) n s

/-- Called once a cycle from `s` on, micro-step `m` ends in the fault `f` in its `n`-th call. -/
abbrev TakesFault (m : MicroOp) (f : Fault) (n : Nat) (s : State) : Prop := Ends m (.fault f) n s

/-- Called once a cycle from `s` on, micro-step `m` ends program_start in its `n`-th call, with `t`. -/
abbrev TakesHalt (m : MicroOp) (n : Nat) (s t : State) : Prop := Ends m (.halt t) n s

/-! ### Cycles of the data half-cycle -/

theorem dataLoop_succ (n : Nat) (seq : List MicroOp) (ia : Nat) (s : State) :
    dataLoop (n + 1) seq ia s =
      if seq.length ≤ s.oc ∧ s.ic = 4 then .next s
      else
        match dataCycle seq ia s with
        | .done t => dataLoop n seq ia t
        | .notYet t => dataLoop n seq ia t
        | .halt t => .next t
        | .fault f => .fault f := rfl

/-- A cycle in which the operation's step has to be called again. -/
theorem dataLoop_wait {seq : List MicroOp} {m : MicroOp} {s u : State} (n ia : Nat) (hm : seq[s.oc]? = some m)
    (hr : s.restart = false) (hs : s.restartSeen = false) (h : runMicro m s = .notYet u) :
    dataLoop (n + 1) seq ia s = dataLoop n seq ia (tick u) := by
  have hlt : s.oc < seq.length := (List.getElem?_eq_some_iff.mp hm).1
  have hf := runMicro_frame (m := m) (s := s) (t := u) (by rw [h]; rfl)
  rw [dataLoop_succ, if_neg (by omega)]
  simp only [dataCycle, operationCall, hm, h, hr, hs, Nat.not_le.mpr hlt, endCycle, decide_false,
    Bool.false_and, Bool.false_eq_true, if_false, Bool.or_false]

/-- A cycle in which the operation's step is done and `restart` was not raised before. -/
theorem dataLoop_done {seq : List MicroOp} {m : MicroOp} {s t : State} (n ia : Nat) (hm : seq[s.oc]? = some m)
    (hr : s.restart = false) (hs : s.restartSeen = false) (h : runMicro m s = .done t) :
    dataLoop (n + 1) seq ia s = dataLoop n seq ia (tick { t with oc := t.oc + 1 }) := by
  have hlt : s.oc < seq.length := (List.getElem?_eq_some_iff.mp hm).1
  rw [dataLoop_succ, if_neg (by omega)]
  simp only [dataCycle, operationCall, hm, h, hr, hs, Nat.not_le.mpr hlt, endCycle, decide_false,
    Bool.false_and, Bool.false_eq_true, if_false, Bool.or_false]

/-- A cycle in which the operation's step is done and `restart`, raised in an earlier cycle, is recognised (R132). -/
theorem dataLoop_recognise {seq : List MicroOp} {m : MicroOp} {s t : State} (n ia : Nat) (hm : seq[s.oc]? = some m)
    (hr : s.restart = true) (hs : s.restartSeen = false) (h : runMicro m s = .done t) :
    dataLoop (n + 1) seq ia s = dataLoop n seq ia (tick { t with oc := t.oc + 1, restartSeen := true }) := by
  have hlt : s.oc < seq.length := (List.getElem?_eq_some_iff.mp hm).1
  rw [dataLoop_succ, if_neg (by omega)]
  simp only [dataCycle, operationCall, hm, h, hr, hs, Nat.not_le.mpr hlt, endCycle, decide_false, Bool.false_or,
    Bool.true_and, Bool.false_eq_true, if_false, Bool.or_true, Bool.not_false]

/-- A cycle in which the operation's step has no behaviour. -/
theorem dataLoop_fault {seq : List MicroOp} {m : MicroOp} {s : State} {f : Fault} (n ia : Nat) (hm : seq[s.oc]? = some m)
    (h : runMicro m s = .fault f) : dataLoop (n + 1) seq ia s = .fault f := by
  have hlt : s.oc < seq.length := (List.getElem?_eq_some_iff.mp hm).1
  rw [dataLoop_succ, if_neg (by omega)]
  simp only [dataCycle, operationCall, hm, h]

/-- A cycle in which the operation's step ends program_start. -/
theorem dataLoop_halt {seq : List MicroOp} {m : MicroOp} {s t : State} (n ia : Nat) (hm : seq[s.oc]? = some m)
    (h : runMicro m s = .halt t) : dataLoop (n + 1) seq ia s = .next (tick t) := by
  have hlt : s.oc < seq.length := (List.getElem?_eq_some_iff.mp hm).1
  rw [dataLoop_succ, if_neg (by omega)]
  simp only [dataCycle, operationCall, hm, h]

/-- A micro-step runs to its end, whatever the end makes of the loop. -/
theorem dataLoop_ends {seq : List MicroOp} {m : MicroOp} {e : MicroResult} {k : Nat} {s : State} (h : Ends m e k s)
    (n ia : Nat) (o : Host.Outcome State Fault Refusal)
    (hend : ∀ u : State, seq[u.oc]? = some m → u.restart = false → u.restartSeen = false → runMicro m u = e →
      dataLoop (n + 1) seq ia u = o)
    (hm : seq[s.oc]? = some m) (hr : s.restart = false) (hs : s.restartSeen = false) :
    dataLoop (n + k) seq ia s = o := by
  induction h with
  | last h => exact hend _ hm hr hs h
  | @again k s u h _ ih =>
    have hf := runMicro_frame (m := m) (s := s) (t := u) (by rw [h]; rfl)
    rw [← Nat.add_assoc, dataLoop_wait (n + k) ia hm hr hs h]
    exact ih (by simpa [hf.oc] using hm) ((tick_restart u).trans (runMicro_notYet_restart hr h)) (by simpa [hf.restartSeen] using hs)

/-- A micro-step runs to its end in as many cycles as it takes. -/
theorem dataLoop_takes {seq : List MicroOp} {m : MicroOp} {k : Nat} {s t : State} (h : Takes m k s t) (n ia : Nat)
    (hm : seq[s.oc]? = some m) (hr : s.restart = false) (hs : s.restartSeen = false) :
    dataLoop (n + k) seq ia s = dataLoop n seq ia (tick { t with oc := t.oc + 1 }) :=
  dataLoop_ends h n ia _ (fun _ hm hr hs h => dataLoop_done n ia hm hr hs h) hm hr hs

/-- A micro-step runs to its fault. -/
theorem dataLoop_takesFault {seq : List MicroOp} {m : MicroOp} {k : Nat} {s : State} {f : Fault}
    (h : TakesFault m f k s) (n ia : Nat) (hm : seq[s.oc]? = some m) (hr : s.restart = false)
    (hs : s.restartSeen = false) :
    dataLoop (n + k) seq ia s = .fault f :=
  dataLoop_ends h n ia _ (fun _ hm _ _ h => dataLoop_fault n ia hm h) hm hr hs

/-- A micro-step runs to the end of program_start. -/
theorem dataLoop_takesHalt {seq : List MicroOp} {m : MicroOp} {k : Nat} {s t : State} (h : TakesHalt m k s t) (n ia : Nat)
    (hm : seq[s.oc]? = some m) (hr : s.restart = false) (hs : s.restartSeen = false) :
    dataLoop (n + k) seq ia s = .next (tick t) :=
  dataLoop_ends h n ia _ (fun _ hm _ _ h => dataLoop_halt n ia hm h) hm hr hs

/-- The lookahead after the last step of the operation: two cycles, I2 and I3, and the data half-cycle is over (R131,
R133). -/
theorem dataLoop_lookahead {seq : List MicroOp} {s : State} (n ia : Nat) (ho : seq.length ≤ s.oc) (hi : s.ic = 2)
    (hr : s.restart = s.restartSeen) :
    dataLoop (n + 3) seq ia s = .next { afterCycles 2 s with ar := some ia, halfCycle := .instruction, ic := 4 } := by
  have hnone : seq[s.oc]? = none := List.getElem?_eq_none ho
  have hb : (s.restart && !s.restartSeen) = false := by rw [hr]; cases s.restartSeen <;> rfl
  rw [dataLoop_succ, if_neg (by omega)]
  simp only [dataCycle, operationCall, hnone, ho, decide_true, Bool.true_or, endCycle, if_true, lookahead, hi, hb,
    Bool.or_false]
  rw [dataLoop_succ, if_neg (by simp)]
  simp only [dataCycle, operationCall, tick_oc, hnone, ho, decide_true, Bool.true_or, endCycle, if_true, lookahead, tick_ic,
    tick_restart, tick_restartSeen, hb, Bool.or_false]
  rw [dataLoop_succ, if_pos (by simpa using ho)]
  rfl

/-! ### What a data half-cycle leaves alone -/

theorem HostStateKept.refl (s : State) : HostStateKept s s := by constructor <;> rfl

theorem HostStateKept.trans {s t u : State} (h : HostStateKept s t) (k : HostStateKept t u) : HostStateKept s u := by
  obtain ⟨⟩ := h; obtain ⟨⟩ := k
  constructor <;> simp_all

theorem MicroFrame.kept {s t : State} (h : MicroFrame s t) : HostStateKept s t ∧ t.pr = s.pr := by
  obtain ⟨⟩ := h
  refine ⟨?_, by assumption⟩
  constructor <;> assumption

theorem endCycle_kept (ia : Nat) (allowed recognising : Bool) (s : State) :
    HostStateKept s (endCycle ia allowed recognising s) ∧ (endCycle ia allowed recognising s).pr = s.pr := by
  have h : HostStateKept s (lookahead ia s) ∧ (lookahead ia s).pr = s.pr := by
    unfold lookahead
    split <;> exact ⟨by constructor <;> rfl, rfl⟩
  cases allowed
  · exact ⟨by constructor <;> rfl, rfl⟩
  · exact ⟨h.1.trans (by constructor <;> rfl), h.2⟩

theorem operationCall_kept {seq : List MicroOp} {s t : State} (h : (operationCall seq s).state? = some t) :
    HostStateKept s t ∧ t.pr = s.pr := by
  unfold operationCall at h
  split at h
  · cases h; exact ⟨HostStateKept.refl s, rfl⟩
  · split at h
    · next u hu =>
      cases h
      have := (runMicro_frame (t := u) (by rw [hu]; rfl)).kept
      exact ⟨this.1.trans (by constructor <;> rfl), this.2⟩
    · exact (runMicro_frame h).kept

theorem dataCycle_kept {seq : List MicroOp} {ia : Nat} {s t : State} (h : (dataCycle seq ia s).state? = some t) :
    HostStateKept s t ∧ t.pr = s.pr := by
  unfold dataCycle at h
  simp only at h
  split at h
  all_goals first
    | (next u hu =>
        have hk := operationCall_kept (t := u) (by rw [hu]; rfl)
        cases h
        first
          | exact ⟨hk.1.trans (endCycle_kept _ _ _ u).1, (endCycle_kept _ _ _ u).2.trans hk.2⟩
          | exact ⟨hk.1.trans (by constructor <;> rfl), hk.2⟩)
    | cases h

/-- No data half-cycle, from whatever state, writes the host's state or the program register. -/
theorem dataLoop_kept {n : Nat} {seq : List MicroOp} {ia : Nat} {s t : State} (h : dataLoop n seq ia s = .next t) :
    HostStateKept s t ∧ t.pr = s.pr := by
  induction n generalizing s with
  | zero => cases h
  | succ n ih =>
    rw [dataLoop_succ] at h
    split at h
    · cases h; exact ⟨HostStateKept.refl _, rfl⟩
    · split at h
      all_goals first
        | (next u hu =>
            have hk := dataCycle_kept (t := u) (by rw [hu]; rfl)
            first
              | exact ⟨hk.1.trans (ih h).1, (ih h).2.trans hk.2⟩
              | (cases h; exact hk))
        | cases h

/-- No data half-cycle is refused. -/
theorem dataLoop_ne_refused {n : Nat} {seq : List MicroOp} {ia : Nat} {s : State} {r : Refusal} :
    dataLoop n seq ia s ≠ .refused r := by
  induction n generalizing s with
  | zero => intro h; cases h
  | succ n ih =>
    rw [dataLoop_succ]
    split
    · intro h; cases h
    · split
      all_goals first
        | exact ih
        | (intro h; cases h)

/-! ### The gated micro-steps -/

/-- The gate of a valid address opens after the cycles R172 says. -/
theorem gate_eq (s : State) (a : Nat) : gate s a = decide (8000 ≤ a ∨ s.drumIndex = a % 50) := by
  simp [gate, Bool.decide_or]

/-- The wait that is left after one more cycle. -/
theorem waitCycles_tick {a d : Nat} (hd : d < 50) (ha : a < 8000) (h : d ≠ a % 50) :
    waitCycles a d = waitCycles a ((d + 1) % 50) + 1 := by
  simp only [waitCycles, Config.storageEntryAddress, Config.drumPositions]
  rw [if_neg (by omega), if_neg (by omega)]
  omega

/-- At the gate there is no wait. -/
theorem waitCycles_open {a d : Nat} (h : 8000 ≤ a ∨ d = a % 50) : waitCycles a d = 0 := by
  simp only [waitCycles, Config.storageEntryAddress, Config.drumPositions]
  split
  · rfl
  · omega

/-- A gated step waits at most 49 cycles (R77). -/
theorem waitCycles_le (a d : Nat) : waitCycles a d ≤ 49 := by
  simp only [waitCycles, Config.storageEntryAddress, Config.drumPositions]
  split <;> omega

/-- The wait of a gated step by induction: a property of the open gate that one closed cycle hands on holds after the
wait. -/
theorem gate_induction {P : Nat → State → Prop} {a : Nat}
    (hopen : ∀ s : State, s.drumIndex < 50 → gate s a = true → P 0 s)
    (hwait : ∀ (n : Nat) (s : State), s.drumIndex < 50 → gate s a = false → P n (tick s) → P (n + 1) s)
    (s : State) (hd : s.drumIndex < 50) : P (waitCycles a s.drumIndex) s := by
  generalize hn : waitCycles a s.drumIndex = n
  induction n generalizing s with
  | zero =>
    by_cases hg : 8000 ≤ a ∨ s.drumIndex = a % 50
    · exact hopen s hd (by rw [gate_eq]; exact decide_eq_true hg)
    · rw [not_or] at hg
      rw [waitCycles_tick hd (by omega) hg.2] at hn
      omega
  | succ n ih =>
    by_cases hg : 8000 ≤ a ∨ s.drumIndex = a % 50
    · rw [waitCycles_open hg] at hn; omega
    · have hg' := not_or.mp hg
      rw [waitCycles_tick hd (by omega) hg'.2] at hn
      refine hwait n s hd (by rw [gate_eq]; exact decide_eq_false hg) (ih (tick s) (Nat.mod_lt _ (by decide)) ?_)
      show waitCycles a ((s.drumIndex + 1) % 50) = n
      omega

/-- The storage form of the load waits for the gate and then loads the word (R161). -/
theorem takes_loadStorage {a : Nat} {w : Word} (s : State) (hd : s.drumIndex < 50) (ha : s.ar = some a)
    (hw : memRead s a = .ok w) :
    Takes .loadStorage (waitCycles a s.drumIndex + 1) s
      { afterCycles (waitCycles a s.drumIndex) s with dist := w } := by
  refine gate_induction (a := a)
    (P := fun n s => s.ar = some a → memRead s a = .ok w →
      Takes .loadStorage (n + 1) s { afterCycles n s with dist := w }) ?_ ?_ s hd ha hw
  · intro s hd hg ha hw
    rw [afterCycles_zero]
    exact .last (by simp only [runMicro, loadFromStorage, ha, hg, hw, if_true])
  · intro n s _ hg ih ha hw
    have := ih ha hw
    rw [tick_eq_afterCycles, afterCycles_afterCycles, Nat.add_comm 1 n] at this
    exact .again (u := s) (by simp [runMicro, loadFromStorage, ha, hg]) this

/-- The storage form of the load at an address outside the valid set ends in the fault of the read. -/
theorem takesFault_loadStorage {a : Nat} {f : Fault} (s : State) (hd : s.drumIndex < 50) (ha : s.ar = some a)
    (hw : memRead s a = .error f) : TakesFault .loadStorage f (waitCycles a s.drumIndex + 1) s := by
  refine gate_induction (a := a)
    (P := fun n s => s.ar = some a → memRead s a = .error f → TakesFault .loadStorage f (n + 1) s) ?_ ?_ s hd ha hw
  · intro s _ hg ha hw
    exact .last (by simp only [runMicro, loadFromStorage, ha, hg, hw, if_true])
  · intro n s _ hg ih ha hw
    exact .again (u := s) (by simp [runMicro, loadFromStorage, ha, hg]) (ih ha hw)

/-- The store step below 2000 waits for the gate and then writes the cell (R163). -/
theorem takes_store {a : Nat} (s : State) (hd : s.drumIndex < 50) (ha : s.ar = some a) (hlt : a < 2000) :
    Takes .store (waitCycles a s.drumIndex + 1) s
      { afterCycles (waitCycles a s.drumIndex) s with drum := Memory.write s.drum a s.dist } := by
  have hnle : ¬ (2000 ≤ a) := by omega
  refine gate_induction (a := a)
    (P := fun n s => s.ar = some a →
      Takes .store (n + 1) s { afterCycles n s with drum := Memory.write s.drum a s.dist }) ?_ ?_ s hd ha
  · intro s hd hg ha
    rw [afterCycles_zero]
    exact .last (by simp [runMicro, storeDistributor, ha, hg, hnle])
  · intro n s _ hg ih ha
    have := ih ha
    rw [tick_eq_afterCycles, afterCycles_afterCycles, Nat.add_comm 1 n] at this
    exact .again (u := s) (by simp [runMicro, storeDistributor, ha, hg, hnle]) this

/-- The store step at or above 2000 is refused in its first call (R163). -/
theorem takes_refusedStore {a : Nat} (s : State) (ha : s.ar = some a) (hle : 2000 ≤ a) :
    Takes .store 1 s { s with storageSelection := true } :=
  .last (by simp [runMicro, storeDistributor, ha, hle])

end Sys2Proof.Machine
end

