-- ==== Sys2Proof/Laws/PerInstr.lean ====
section
/-! SUPPORT. The family of laws that hold of every instruction as syntax, one lemma per constructor. -/

namespace Sys2Proof.Laws.Encoding

/-- `i` is the instruction of its operation and its two addresses, and in the default opcode map its operation and one
two-digit code select each other (spec/30_encoding.md R104, R105). -/
def Statement (i : Instr) : Prop :=
  i.operation.instr i.da i.ia = i ∧
  ∃ code < 100, OpcodeMap.standard.codeOf i.operation = some code ∧ OpcodeMap.standard.operationOf code = some i.operation

theorem noop (da ia : Nat) : Statement (.noop da ia) := ⟨rfl, 0, by decide, rfl, rfl⟩
theorem stop (da ia : Nat) : Statement (.stop da ia) := ⟨rfl, 1, by decide, rfl, rfl⟩
theorem au (da ia : Nat) : Statement (.au da ia) := ⟨rfl, 10, by decide, rfl, rfl⟩
theorem su (da ia : Nat) : Statement (.su da ia) := ⟨rfl, 11, by decide, rfl, rfl⟩
theorem div (da ia : Nat) : Statement (.div da ia) := ⟨rfl, 14, by decide, rfl, rfl⟩
theorem al (da ia : Nat) : Statement (.al da ia) := ⟨rfl, 15, by decide, rfl, rfl⟩
theorem sl (da ia : Nat) : Statement (.sl da ia) := ⟨rfl, 16, by decide, rfl, rfl⟩
theorem aabl (da ia : Nat) : Statement (.aabl da ia) := ⟨rfl, 17, by decide, rfl, rfl⟩
theorem sabl (da ia : Nat) : Statement (.sabl da ia) := ⟨rfl, 18, by decide, rfl, rfl⟩
theorem mult (da ia : Nat) : Statement (.mult da ia) := ⟨rfl, 19, by decide, rfl, rfl⟩
theorem stl (da ia : Nat) : Statement (.stl da ia) := ⟨rfl, 20, by decide, rfl, rfl⟩
theorem stu (da ia : Nat) : Statement (.stu da ia) := ⟨rfl, 21, by decide, rfl, rfl⟩
theorem stda (da ia : Nat) : Statement (.stda da ia) := ⟨rfl, 22, by decide, rfl, rfl⟩
theorem stia (da ia : Nat) : Statement (.stia da ia) := ⟨rfl, 23, by decide, rfl, rfl⟩
theorem std (da ia : Nat) : Statement (.std da ia) := ⟨rfl, 24, by decide, rfl, rfl⟩
theorem rau (da ia : Nat) : Statement (.rau da ia) := ⟨rfl, 60, by decide, rfl, rfl⟩
theorem rsu (da ia : Nat) : Statement (.rsu da ia) := ⟨rfl, 61, by decide, rfl, rfl⟩
theorem divru (da ia : Nat) : Statement (.divru da ia) := ⟨rfl, 64, by decide, rfl, rfl⟩
theorem ral (da ia : Nat) : Statement (.ral da ia) := ⟨rfl, 65, by decide, rfl, rfl⟩
theorem rsl (da ia : Nat) : Statement (.rsl da ia) := ⟨rfl, 66, by decide, rfl, rfl⟩
theorem raabl (da ia : Nat) : Statement (.raabl da ia) := ⟨rfl, 67, by decide, rfl, rfl⟩
theorem rsabl (da ia : Nat) : Statement (.rsabl da ia) := ⟨rfl, 68, by decide, rfl, rfl⟩
theorem ld (da ia : Nat) : Statement (.ld da ia) := ⟨rfl, 69, by decide, rfl, rfl⟩

end Sys2Proof.Laws.Encoding
end

