-- ==== Sys2Proof/Laws/Word.lean ====
section
/-! SUPPORT. Laws of digits and words: bounds, the number a word holds and the word of a number. -/

namespace Sys2Proof

theorem Digit.val_lt (d : Digit) : d.val < 10 := by
  cases d with
  | dec v => exact v.isLt
  | invalid => decide

@[simp] theorem Digit.val_ofNat (n : Nat) : (Digit.ofNat n).val = n % 10 := rfl

@[simp] theorem Digit.isDecimal_ofNat (n : Nat) : (Digit.ofNat n).isDecimal = true := rfl

theorem Digit.ofNat_eq_of_isDecimal {d : Digit} {n : Nat} (hd : d.isDecimal = true) (h : n % 10 = d.val) :
    Digit.ofNat n = d := by
  cases d with
  | dec v => simp only [Digit.ofNat, Digit.dec.injEq]; exact Fin.ext h
  | invalid => simp [Digit.isDecimal] at hd

theorem Digit.ofNat_congr {m n : Nat} (h : m % 10 = n % 10) : Digit.ofNat m = Digit.ofNat n :=
  Digit.ofNat_eq_of_isDecimal rfl h

theorem Word.opCode_lt (w : Word) : w.opCode < 100 := by
  have := w.d10.val_lt; have := w.d9.val_lt
  simp only [Word.opCode]; omega

theorem Word.dataAddress_lt (w : Word) : w.dataAddress < 10000 := by
  have := w.d8.val_lt; have := w.d7.val_lt; have := w.d6.val_lt; have := w.d5.val_lt
  simp only [Word.dataAddress]; omega

theorem Word.instructionAddress_lt (w : Word) : w.instructionAddress < 10000 := by
  have := w.d4.val_lt; have := w.d3.val_lt; have := w.d2.val_lt; have := w.d1.val_lt
  simp only [Word.instructionAddress]; omega

theorem Word.mag_lt (w : Word) : w.mag < 10000000000 := by
  have := w.opCode_lt; have := w.dataAddress_lt; have := w.instructionAddress_lt
  simp only [Word.mag]; omega

@[simp] theorem Word.sign_ofNat (s : Sign) (n : Nat) : (Word.ofNat s n).sign = s := rfl

@[simp] theorem Word.valid_ofNat (s : Sign) (n : Nat) : (Word.ofNat s n).valid = true := rfl

/-- The code field of a number's word. -/
theorem Word.opCode_ofNat (s : Sign) (n : Nat) : (Word.ofNat s n).opCode = n / 100000000 % 100 := by
  simp only [Word.opCode, Word.ofNat, Digit.val_ofNat]; omega

/-- The data-address field of a number's word. -/
theorem Word.dataAddress_ofNat (s : Sign) (n : Nat) : (Word.ofNat s n).dataAddress = n / 10000 % 10000 := by
  simp only [Word.dataAddress, Word.ofNat, Digit.val_ofNat]; omega

/-- The next-instruction-address field of a number's word. -/
theorem Word.instructionAddress_ofNat (s : Sign) (n : Nat) : (Word.ofNat s n).instructionAddress = n % 10000 := by
  simp only [Word.instructionAddress, Word.ofNat, Digit.val_ofNat]; omega

/-- A number's word holds the number modulo 10^10. -/
@[simp] theorem Word.mag_ofNat (s : Sign) (n : Nat) : (Word.ofNat s n).mag = n % 10000000000 := by
  rw [Word.mag, Word.opCode_ofNat, Word.dataAddress_ofNat, Word.instructionAddress_ofNat]; omega

/-- The highest digit of a word is its magnitude divided by 10^9. -/
theorem Word.d10_val (w : Word) : w.d10.val = w.mag / 1000000000 := by
  have := w.d9.val_lt; have := w.dataAddress_lt; have := w.instructionAddress_lt
  simp only [Word.mag, Word.opCode]; omega

/-- The lowest digit of a word is its magnitude modulo 10. -/
theorem Word.d1_val (w : Word) : w.d1.val = w.mag % 10 := by
  have := w.d1.val_lt
  simp only [Word.mag, Word.instructionAddress]; omega

/-- A valid word is the word of its sign and magnitude. -/
theorem Word.ofNat_mag {w : Word} (h : w.valid = true) : Word.ofNat w.sign w.mag = w := by
  have b10 := w.d10.val_lt; have b9 := w.d9.val_lt; have b8 := w.d8.val_lt; have b7 := w.d7.val_lt
  have b6 := w.d6.val_lt; have b5 := w.d5.val_lt; have b4 := w.d4.val_lt; have b3 := w.d3.val_lt
  have b2 := w.d2.val_lt; have b1 := w.d1.val_lt
  obtain ⟨d10, d9, d8, d7, d6, d5, d4, d3, d2, d1, s⟩ := w
  simp only [Word.valid, Bool.and_eq_true] at h
  obtain ⟨⟨⟨⟨⟨⟨⟨⟨⟨h10, h9⟩, h8⟩, h7⟩, h6⟩, h5⟩, h4⟩, h3⟩, h2⟩, h1⟩ := h
  simp only [Word.ofNat, Word.mag, Word.opCode, Word.dataAddress, Word.instructionAddress, Word.mk.injEq, and_true] at *
  refine ⟨?_, ?_, ?_, ?_, ?_, ?_, ?_, ?_, ?_, ?_⟩ <;> apply Digit.ofNat_eq_of_isDecimal <;> first | assumption | omega

/-- Words of equal numbers below 10^10 are equal. -/
theorem Word.ofNat_mod (s : Sign) (n : Nat) : Word.ofNat s (n % 10000000000) = Word.ofNat s n := by
  have h := Word.ofNat_mag (Word.valid_ofNat s n)
  rwa [Word.sign_ofNat, Word.mag_ofNat] at h

theorem Word.zero_eq_ofNat (s : Sign) : Word.zero s = Word.ofNat s 0 := rfl

@[simp] theorem Word.mag_zero (s : Sign) : (Word.zero s).mag = 0 := by rw [Word.zero_eq_ofNat, Word.mag_ofNat]

@[simp] theorem Word.valid_zero (s : Sign) : (Word.zero s).valid = true := rfl

@[simp] theorem Word.sign_zero (s : Sign) : (Word.zero s).sign = s := rfl

namespace Machine

@[simp] theorem withSign_sign (s : Sign) (w : Word) : (withSign s w).sign = s := rfl

@[simp] theorem withSign_mag (s : Sign) (w : Word) : (withSign s w).mag = w.mag := rfl

@[simp] theorem withSign_valid (s : Sign) (w : Word) : (withSign s w).valid = w.valid := rfl

/-- A valid word under another sign is the word of its magnitude with that sign. -/
theorem withSign_eq_ofNat {w : Word} (h : w.valid = true) (s : Sign) : withSign s w = Word.ofNat s w.mag := by
  have := Word.ofNat_mag (w := withSign s w) h
  rw [← this]; rfl

@[simp] theorem effectiveOperand_mag (f : OperandForm) (w : Word) : (effectiveOperand f w).mag = w.mag := by
  cases f <;> rfl

theorem arithmeticWord_iff (w : Word) : arithmeticWord w = true ↔ w.valid = true ∧ w.sign ≠ .dontCare := by
  cases hs : w.sign <;> simp [arithmeticWord, signed, hs]

end Machine

end Sys2Proof
end

