-- ==== Sys2Proof/Laws/Encoding.lean ====
section
/-! SUPPORT. Laws of the decoder and the encoder: the case split over all instructions, the fields of an encoded word, and which codes select an instruction. -/

namespace Sys2Proof

/-- Every instruction satisfies the family's statement. -/
theorem Instr.encoding (i : Instr) : Laws.Encoding.Statement i := by
  cases i with
  | noop da ia => exact Laws.Encoding.noop da ia
  | stop da ia => exact Laws.Encoding.stop da ia
  | au da ia => exact Laws.Encoding.au da ia
  | su da ia => exact Laws.Encoding.su da ia
  | div da ia => exact Laws.Encoding.div da ia
  | al da ia => exact Laws.Encoding.al da ia
  | sl da ia => exact Laws.Encoding.sl da ia
  | aabl da ia => exact Laws.Encoding.aabl da ia
  | sabl da ia => exact Laws.Encoding.sabl da ia
  | mult da ia => exact Laws.Encoding.mult da ia
  | stl da ia => exact Laws.Encoding.stl da ia
  | stu da ia => exact Laws.Encoding.stu da ia
  | stda da ia => exact Laws.Encoding.stda da ia
  | stia da ia => exact Laws.Encoding.stia da ia
  | std da ia => exact Laws.Encoding.std da ia
  | rau da ia => exact Laws.Encoding.rau da ia
  | rsu da ia => exact Laws.Encoding.rsu da ia
  | divru da ia => exact Laws.Encoding.divru da ia
  | ral da ia => exact Laws.Encoding.ral da ia
  | rsl da ia => exact Laws.Encoding.rsl da ia
  | raabl da ia => exact Laws.Encoding.raabl da ia
  | rsabl da ia => exact Laws.Encoding.rsabl da ia
  | ld da ia => exact Laws.Encoding.ld da ia

@[simp] theorem Operation.instr_operation (o : Operation) (da ia : Nat) : (o.instr da ia).operation = o := by cases o <;> rfl
@[simp] theorem Operation.instr_da (o : Operation) (da ia : Nat) : (o.instr da ia).da = da := by cases o <;> rfl
@[simp] theorem Operation.instr_ia (o : Operation) (da ia : Nat) : (o.instr da ia).ia = ia := by cases o <;> rfl

/-! ### The opcode map -/

/-- What a code selects stands in the map with it. -/
theorem OpcodeMap.mem_of_operationOf {m : OpcodeMap} {c : Nat} {o : Operation} (h : m.operationOf c = some o) : (c, o) ∈ m := by
  induction m with
  | nil => cases h
  | cons p m ih =>
    obtain ⟨c', o'⟩ := p
    rw [OpcodeMap.operationOf] at h
    split at h
    · next hc => cases h; rw [hc]; exact List.mem_cons_self
    · exact List.mem_cons_of_mem _ (ih h)

/-- The code of an operation stands in the map with it. -/
theorem OpcodeMap.mem_of_codeOf {m : OpcodeMap} {c : Nat} {o : Operation} (h : m.codeOf o = some c) : (c, o) ∈ m := by
  induction m with
  | nil => cases h
  | cons p m ih =>
    obtain ⟨c', o'⟩ := p
    rw [OpcodeMap.codeOf] at h
    split at h
    · next hc => cases h; rw [hc]; exact List.mem_cons_self
    · exact List.mem_cons_of_mem _ (ih h)

theorem OpcodeMap.operationOf_of_mem {m : OpcodeMap} {c : Nat} {o : Operation} (hn : (m.map Prod.fst).Nodup) (h : (c, o) ∈ m) :
    m.operationOf c = some o := by
  induction m with
  | nil => cases h
  | cons p m ih =>
    obtain ⟨c', o'⟩ := p
    rw [List.map_cons, List.nodup_cons] at hn
    rw [OpcodeMap.operationOf]
    rcases List.mem_cons.mp h with hh | hh
    · cases hh; rw [if_pos rfl]
    · have hmem := List.mem_map_of_mem (f := Prod.fst) hh
      split
      · next e => exact absurd (e ▸ hmem) hn.1
      · exact ih hn.2 hh

theorem OpcodeMap.codeOf_of_mem {m : OpcodeMap} {c : Nat} {o : Operation} (hn : (m.map Prod.snd).Nodup) (h : (c, o) ∈ m) :
    m.codeOf o = some c := by
  induction m with
  | nil => cases h
  | cons p m ih =>
    obtain ⟨c', o'⟩ := p
    rw [List.map_cons, List.nodup_cons] at hn
    rw [OpcodeMap.codeOf]
    rcases List.mem_cons.mp h with hh | hh
    · cases hh; rw [if_pos rfl]
    · have hmem := List.mem_map_of_mem (f := Prod.snd) hh
      split
      · next e => exact absurd (e ▸ hmem) hn.1
      · exact ih hn.2 hh

theorem OpcodeMap.wf_iff (m : OpcodeMap) :
    m.wf = true ↔ (∀ p ∈ m, p.1 < 100) ∧ (m.map Prod.fst).Nodup ∧ (m.map Prod.snd).Nodup := by
  simp only [OpcodeMap.wf, Bool.and_eq_true, List.all_eq_true, decide_eq_true_eq, and_assoc]

/-- In an opcode map a code and its operation select each other (R105). -/
theorem OpcodeMap.operationOf_iff {m : OpcodeMap} (h : m.wf = true) (c : Nat) (o : Operation) :
    m.operationOf c = some o ↔ m.codeOf o = some c := by
  obtain ⟨-, h1, h2⟩ := m.wf_iff.mp h
  exact ⟨fun k => OpcodeMap.codeOf_of_mem h2 (OpcodeMap.mem_of_operationOf k),
    fun k => OpcodeMap.operationOf_of_mem h1 (OpcodeMap.mem_of_codeOf k)⟩

/-- The codes of an opcode map have two digits. -/
theorem OpcodeMap.code_lt {m : OpcodeMap} (h : m.wf = true) {c : Nat} {o : Operation} (k : m.codeOf o = some c) : c < 100 :=
  (m.wf_iff.mp h).1 _ (OpcodeMap.mem_of_codeOf k)

/-- Exactly the codes that stand in the map select an operation. -/
theorem OpcodeMap.operationOf_isSome (m : OpcodeMap) (c : Nat) : (m.operationOf c).isSome = true ↔ c ∈ m.map Prod.fst := by
  induction m with
  | nil => simp [OpcodeMap.operationOf]
  | cons p m ih =>
    obtain ⟨c', o'⟩ := p
    rw [OpcodeMap.operationOf]
    split
    · next hc => simp [hc]
    · next hc => simp [ih, hc]

/-! ### Decoding and encoding -/

/-- The instruction a code selects carries the operation and the two addresses. -/
theorem decodeFields_eq_some {m : OpcodeMap} {code da ia : Nat} {i : Instr} :
    decodeFields m code da ia = some i ↔ ∃ o, m.operationOf code = some o ∧ o.instr da ia = i := by
  simp [decodeFields]

theorem decodeFields_eq_none {m : OpcodeMap} {code da ia : Nat} : decodeFields m code da ia = none ↔ m.operationOf code = none := by
  simp [decodeFields]

/-- A decoded word is valid and its fields are the instruction's. -/
theorem decode_ok {m : OpcodeMap} {w : Word} {i : Instr} (h : decode m w = .ok i) :
    w.valid = true ∧ m.operationOf w.opCode = some i.operation ∧ i.da = w.dataAddress ∧ i.ia = w.instructionAddress := by
  unfold decode at h
  split at h
  · next hv =>
    split at h
    · next j hj =>
      cases h
      obtain ⟨o, ho, rfl⟩ := decodeFields_eq_some.mp hj
      exact ⟨hv, by simpa using ho, by simp, by simp⟩
    · cases h
  · cases h

/-- A valid word whose code selects an operation decodes to that operation with the word's addresses. -/
theorem decode_of_operationOf {m : OpcodeMap} {w : Word} {o : Operation} (hv : w.valid = true)
    (h : m.operationOf w.opCode = some o) : decode m w = .ok (o.instr w.dataAddress w.instructionAddress) := by
  rw [decode, if_pos hv, decodeFields_eq_some.mpr ⟨o, h, rfl⟩]

/-- A valid word whose code selects none. -/
theorem decode_of_unassigned {m : OpcodeMap} {w : Word} (hv : w.valid = true) (h : m.operationOf w.opCode = none) :
    decode m w = .error (.unassignedCode w.opCode) := by
  rw [decode, if_pos hv, decodeFields_eq_none.mpr h]

theorem Instr.wf_iff (i : Instr) : i.wf = true ↔ i.da < 10000 ∧ i.ia < 10000 := by
  simp [Instr.wf, addressWellFormed]

/-- The fields of an encoded well-formed instruction, under any sign. -/
theorem encode_fields {m : OpcodeMap} (hm : m.wf = true) {i : Instr} {w : Word} (h : i.wf = true) (he : encode m i = some w)
    (sg : Sign) :
    (Machine.withSign sg w).valid = true ∧ m.codeOf i.operation = some (Machine.withSign sg w).opCode ∧
      (Machine.withSign sg w).dataAddress = i.da ∧ (Machine.withSign sg w).instructionAddress = i.ia := by
  obtain ⟨hd, hi⟩ := i.wf_iff.mp h
  simp only [encode, Option.map_eq_some_iff] at he
  obtain ⟨c, hc, rfl⟩ := he
  have hlt := OpcodeMap.code_lt hm hc
  show Word.valid (.ofNat .plus _) = true ∧ m.codeOf i.operation = some (Word.opCode (.ofNat .plus _)) ∧
    Word.dataAddress (.ofNat .plus _) = _ ∧ Word.instructionAddress (.ofNat .plus _) = _
  rw [Word.opCode_ofNat, Word.dataAddress_ofNat, Word.instructionAddress_ofNat, hc]
  refine ⟨rfl, ?_, by omega, by omega⟩
  congr 1; omega

end Sys2Proof
end

