-- ==== Sys2Proof/Laws/Sequencer.lean ====
section
/-! SUPPORT. Laws of the adder and of the accumulate, multiply and divide micro-steps: what each computes and in how many calls. -/

namespace Sys2Proof.Machine

/-! ### Accumulate -/

theorem adderOperandsOk_iff (s : State) :
    adderOperandsOk s = true ↔ arithmeticWord s.dist = true ∧ s.up.valid = true ∧ arithmeticWord s.lo = true := by
  simp [adderOperandsOk, and_assoc]

/-- The completing call does not see the counters of time. -/
theorem accumulateEffect_afterCycles {kind : AccumulateKind} {form : OperandForm} {half : Half} {s t : State} (n : Nat)
    (h : accumulateEffect kind form half s = .ok t) :
    accumulateEffect kind form half (afterCycles n s) = .ok (afterCycles n t) := by
  cases kind
  · simp only [accumulateEffect] at h ⊢
    split at h
    · next ho => cases h; rw [if_pos (by exact ho)]; rfl
    · cases h
  · simp only [accumulateEffect] at h ⊢
    split at h
    · next ho => cases h; rw [if_pos (by exact ho)]; cases half <;> rfl
    · cases h

theorem accumulateEffect_afterCycles_error {kind : AccumulateKind} {form : OperandForm} {half : Half} {s : State}
    {f : Fault} (n : Nat) (h : accumulateEffect kind form half s = .error f) :
    accumulateEffect kind form half (afterCycles n s) = .error f := by
  cases kind <;> simp only [accumulateEffect] at h ⊢ <;> split at h
  · cases h
  · next ho => cases h; rw [if_neg (by exact ho)]
  · cases h
  · next ho => cases h; rw [if_neg (by exact ho)]

theorem setFill_self {s : State} (h : s.fillStarted = false) : { s with fillStarted := false } = s := by
  obtain ⟨⟩ := s; simp_all

theorem accumulate_second {kind : AccumulateKind} {form : OperandForm} {half : Half} {s t : State}
    (hf : s.fillStarted = false) (he : accumulateEffect kind form half s = .ok t) :
    runMicro (.accumulate kind form half) (tick { s with fillStarted := true }) =
      .done { afterCycles 1 t with restart := true } := by
  have h := accumulateEffect_afterCycles 1 he
  have hs : { tick { s with fillStarted := true } with fillStarted := false } = afterCycles 1 s := by
    have := setFill_self hf
    rw [tick_eq_afterCycles]
    conv_rhs => rw [← this]
    rfl
  simp only [runMicro, accumulateStep, tick_fillStarted, if_true, hs, h]

/-- The accumulate step takes two calls from an even run_time and three from an odd one (R186). -/
theorem takes_accumulate {kind : AccumulateKind} {form : OperandForm} {half : Half} {s t : State}
    (hf : s.fillStarted = false) (he : accumulateEffect kind form half s = .ok t) :
    Takes (.accumulate kind form half) (2 + s.runTime % 2) s
      { afterCycles (1 + s.runTime % 2) t with restart := true } := by
  rcases Nat.mod_two_eq_zero_or_one s.runTime with h0 | h1
  · rw [h0]
    refine .again (u := { s with fillStarted := true }) ?_ (.last (accumulate_second hf he))
    simp [runMicro, accumulateStep, hf, h0]
  · rw [h1]
    refine .again (u := s) ?_ (.again (u := { tick s with fillStarted := true }) ?_ (.last ?_))
    · simp [runMicro, accumulateStep, hf, h1]
    · simp [runMicro, accumulateStep, hf, nextRunTime_parity s.params h1]
    · have he' := accumulateEffect_afterCycles 1 he
      have := accumulate_second (s := tick s) (by simpa using hf) he'
      rw [this, afterCycles_afterCycles]

theorem accumulate_second_error {kind : AccumulateKind} {form : OperandForm} {half : Half} {s : State} {f : Fault}
    (hf : s.fillStarted = false) (he : accumulateEffect kind form half s = .error f) :
    runMicro (.accumulate kind form half) (tick { s with fillStarted := true }) = .fault f := by
  have h := accumulateEffect_afterCycles_error 1 he
  have hs : { tick { s with fillStarted := true } with fillStarted := false } = afterCycles 1 s := by
    have := setFill_self hf
    rw [tick_eq_afterCycles]
    conv_rhs => rw [← this]
    rfl
  simp only [runMicro, accumulateStep, tick_fillStarted, if_true, hs, h]

/-- The accumulate step on operands the arithmetic is not specified on ends in its fault (R185). -/
theorem takesFault_accumulate {kind : AccumulateKind} {form : OperandForm} {half : Half} {s : State} {f : Fault}
    (hf : s.fillStarted = false) (he : accumulateEffect kind form half s = .error f) :
    TakesFault (.accumulate kind form half) f (2 + s.runTime % 2) s := by
  rcases Nat.mod_two_eq_zero_or_one s.runTime with h0 | h1
  · rw [h0]
    refine .again (u := { s with fillStarted := true }) ?_ (.last (accumulate_second_error hf he))
    simp [runMicro, accumulateStep, hf, h0]
  · rw [h1]
    refine .again (u := s) ?_ (.again (u := { tick s with fillStarted := true }) ?_ (.last ?_))
    · simp [runMicro, accumulateStep, hf, h1]
    · simp [runMicro, accumulateStep, hf, nextRunTime_parity s.params h1]
    · exact accumulate_second_error (s := tick s) (by simpa using hf) (accumulateEffect_afterCycles_error 1 he)

/-! ### Decimal digits of a number -/

/-- The sum of the `n` lowest decimal digits of `x`, highest first. -/
def digitsSum : Nat → Nat → Nat
  | 0, _ => 0
  | n + 1, x => x / 10 ^ n + digitsSum n (x % 10 ^ n)

/-- Digits are at most nine. -/
theorem digitsSum_le (n x : Nat) (h : x < 10 ^ n) : digitsSum n x ≤ 9 * n := by
  induction n generalizing x with
  | zero => simp [digitsSum]
  | succ n ih =>
    have h1 := ih (x % 10 ^ n) (Nat.mod_lt _ (by positivity))
    have h2 : x / 10 ^ n < 10 := by rw [Nat.div_lt_iff_lt_mul (by positivity)]; rw [Nat.pow_succ] at h; omega
    rw [digitsSum]; omega

theorem digitsSum_cons {n d r : Nat} (h : r < 10 ^ n) : digitsSum (n + 1) (d * 10 ^ n + r) = d + digitsSum n r := by
  have hp : 0 < 10 ^ n := by positivity
  rw [digitsSum, Nat.add_comm (d * 10 ^ n), Nat.add_mul_div_right _ _ hp, Nat.div_eq_of_lt h,
    Nat.add_mul_mod_self_right, Nat.mod_eq_of_lt h, Nat.zero_add]

/-- The digit sum of a word is that of its magnitude. -/
theorem digitSum_eq (w : Word) : digitSum w = digitsSum 10 w.mag := by
  have b9 := w.d9.val_lt; have b8 := w.d8.val_lt; have b7 := w.d7.val_lt
  have b6 := w.d6.val_lt; have b5 := w.d5.val_lt; have b4 := w.d4.val_lt; have b3 := w.d3.val_lt
  have b2 := w.d2.val_lt; have b1 := w.d1.val_lt
  have hm : w.mag = w.d10.val * 10 ^ 9 + (w.d9.val * 10 ^ 8 + (w.d8.val * 10 ^ 7 + (w.d7.val * 10 ^ 6 +
      (w.d6.val * 10 ^ 5 + (w.d5.val * 10 ^ 4 + (w.d4.val * 10 ^ 3 + (w.d3.val * 10 ^ 2 + (w.d2.val * 10 ^ 1 +
      (w.d1.val * 10 ^ 0 + 0))))))))) := by
    simp only [Word.mag, Word.opCode, Word.dataAddress, Word.instructionAddress]; omega
  rw [hm, digitsSum_cons, digitsSum_cons, digitsSum_cons, digitsSum_cons, digitsSum_cons, digitsSum_cons,
    digitsSum_cons, digitsSum_cons, digitsSum_cons, digitsSum_cons] <;> [skip; omega; omega; omega; omega; omega; omega; omega; omega; omega; omega]
  simp only [digitSum, digitsSum]; omega

@[simp] theorem lastDigit_zero (n : Nat) : lastDigit n 0 = 0 := by cases n <;> simp [lastDigit]

/-! ### The accumulator as one number -/

/-- `b` with the accumulator holding the 20-digit magnitude `A`, under the sign `sg` in UP and `sl` in LO, and the
sequencer's counters. -/
def mulState (b : State) (sg sl : Sign) (A sc lc : Nat) (ov : Bool) : State :=
  { b with
    up := Word.ofNat sg (A / 10000000000)
    lo := Word.ofNat sl (A % 10000000000)
    shiftCount := sc
    loopCount := lc
    overflow := ov }

theorem accMag_lt (s : State) : accMag s < 100000000000000000000 := by
  have := s.up.mag_lt; have := s.lo.mag_lt
  simp only [accMag, Config.wordBase]; omega

theorem accMag_mulState {A : Nat} (h : A < 100000000000000000000) (b : State) (sg sl : Sign) (sc lc : Nat) (ov : Bool) :
    accMag (mulState b sg sl A sc lc ov) = A := by
  simp only [accMag, mulState, Word.mag_ofNat, Config.wordBase]; omega

theorem adderOperandsOk_mulState {b : State} (hd : arithmeticWord b.dist = true) (sg : Sign) {sl : Sign}
    (hs : sl ≠ .dontCare) (A sc lc : Nat) (ov : Bool) : adderOperandsOk (mulState b sg sl A sc lc ov) = true := by
  rw [adderOperandsOk_iff]
  exact ⟨hd, rfl, (arithmeticWord_iff _).mpr ⟨rfl, hs⟩⟩

theorem accMag_split (s : State) : accMag s % 10000000000 = s.lo.mag ∧ accMag s / 10000000000 = s.up.mag := by
  have := s.lo.mag_lt; simp only [accMag, Config.wordBase]; omega

/-- A rule of signs gives a sign to two signs. -/
theorem signBy_ne {r : SignRule} {a b : Sign} (ha : a ≠ .dontCare) (hb : b ≠ .dontCare) : signBy r a b ≠ .dontCare := by
  cases a <;> cases b <;> first | contradiction | (simp only [signBy]; split <;> simp)

/-- The rule "the first of the two signs" gives the first. -/
@[simp] theorem signBy_keepFirstSign {a b : Sign} (hb : b ≠ .dontCare) : signBy keepFirstSign a b = a := by
  cases a <;> cases b <;> first | contradiction | rfl

theorem multiplySign_ne {s : State} (hd : arithmeticWord s.dist = true) (hl : arithmeticWord s.lo = true) :
    multiplySign s ≠ .dontCare :=
  signBy_ne ((arithmeticWord_iff _).mp hd).2 ((arithmeticWord_iff _).mp hl).2

/-- First entry puts the accumulator into the form `mulState` (R211). -/
theorem multiplyEntry_idle {s : State} (hu : s.up.valid = true) (hl : s.lo.valid = true) (hsc : s.shiftCount = 0)
    (hlc : s.loopCount = 0) :
    multiplyEntry s = mulState s (multiplySign s) (multiplySign s) (accMag s) 0 0 s.overflow := by
  have hi : sequencerIdle s = true := by simp [sequencerIdle, hsc, hlc]
  obtain ⟨h2, h1⟩ := accMag_split s
  simp only [multiplyEntry, hi, if_true, mulState, h1, h2, withSign_eq_ofNat hu, withSign_eq_ofNat hl]
  obtain ⟨⟩ := s
  simp_all

/-- What a multiply call does after the first-entry action. -/
def multiplyCall (t : State) : MicroResult :=
  multiplyFinish (if t.loopCount = 0 then multiplyShift t else multiplyAdd t)

/-- A later multiply call. -/
theorem multiplyStep_busy {b : State} (hd : arithmeticWord b.dist = true) {sg sl : Sign} (hs : sl ≠ .dontCare) {A sc lc : Nat}
    {ov : Bool} (h : sc ≠ 0 ∨ lc ≠ 0) :
    runMicro .multiply (mulState b sg sl A sc lc ov) = multiplyCall (mulState b sg sl A sc lc ov) := by
  have hi : sequencerIdle (mulState b sg sl A sc lc ov) = false := by
    rw [sequencerIdle, Bool.and_eq_false_iff]; exact h.imp (fun h => decide_eq_false h) (fun h => decide_eq_false h)
  rw [runMicro, multiplyStep, if_pos (adderOperandsOk_mulState hd sg hs A sc lc ov), multiplyEntry, hi]
  rfl

/-- The first multiply call (R211). -/
theorem multiplyStep_idle {s : State} (hd : arithmeticWord s.dist = true) (hu : s.up.valid = true)
    (hl : arithmeticWord s.lo = true) (hsc : s.shiftCount = 0) (hlc : s.loopCount = 0) :
    runMicro .multiply s = multiplyCall (mulState s (multiplySign s) (multiplySign s) (accMag s) 0 0 s.overflow) := by
  rw [runMicro, multiplyStep, if_pos ((adderOperandsOk_iff s).mpr ⟨hd, hu, hl⟩),
    multiplyEntry_idle hu ((arithmeticWord_iff _).mp hl).1 hsc hlc]
  rfl

/-! ### Multiply -/

/-- A shift call (R212). -/
theorem multiply_shiftCall (b : State) (sg sl : Sign) {A : Nat} (hA : A < 100000000000000000000) (sc : Nat) (ov : Bool) :
    multiplyCall (mulState b sg sl A sc 0 ov) =
      multiplyFinish (mulState b sg sl (A * 10 % 100000000000000000000) (sc + 1) (A / 10000000000000000000) ov) := by
  have ht : topDigit (mulState b sg sl A sc 0 ov) = A / 10000000000000000000 := by
    simp only [topDigit, Word.d10_val, mulState, Word.mag_ofNat]; omega
  rw [multiplyCall, if_pos (show (mulState b sg sl A sc 0 ov).loopCount = 0 from rfl)]
  congr 1
  simp only [multiplyShift, shiftLeft, ht, accMag_mulState hA, Config.accBase, Config.wordBase]
  rfl

/-- Whether an add carries out of the field of the partial product, below the multiplier digits left (R214). -/
def carriesOut (A D sc : Nat) : Bool := decide (10 ^ (10 + sc) ≤ A % 10 ^ (10 + sc) + D)

/-- The two overflow checks of an add call together see exactly the carry out of the partial product (R214). -/
theorem multiply_flag {A D sc n : Nat} (hA : A < 100000000000000000000) (hD : D < 10000000000) (hn : sc + n = 10) :
    (decide (100000000000000000000 ≤ A + D) ||
      (decide (sc < 10) && decide (guardDigit ((A + D) % 100000000000000000000) sc ≠ guardDigit A sc))) =
    carriesOut A D sc := by
  have hW : 10 ^ (10 + sc) * 10 ^ n = 100000000000000000000 := by
    rw [← Nat.pow_add, show 10 + sc + n = 20 by omega]
  have hle : 10000000000 ≤ 10 ^ (10 + sc) :=
    calc 10000000000 = 10 ^ 10 := by norm_num
      _ ≤ 10 ^ (10 + sc) := Nat.pow_le_pow_right (by decide) (by omega)
  have hsc : sc = 10 → 10 ^ (10 + sc) = 100000000000000000000 := by intro h; subst h; norm_num
  rw [Bool.eq_iff_iff]
  simp only [carriesOut, Bool.or_eq_true, Bool.and_eq_true, decide_eq_true_eq]
  simp only [guardDigit]
  generalize 10 ^ (10 + sc) = W at *
  have hp : 0 < W := by omega
  have hq : A / W < 10 ^ n := by rw [Nat.div_lt_iff_lt_mul hp, Nat.mul_comm, hW]; exact hA
  have hqW : (A / W + 1) * W ≤ 100000000000000000000 := by
    rw [← hW, Nat.mul_comm W]; exact Nat.mul_le_mul_right W hq
  have hdiv : A / W * W + A % W = A := by rw [Nat.mul_comm]; exact Nat.div_add_mod A W
  have hmod := Nat.mod_lt A hp
  have hadd := Nat.add_div (a := A) (b := D) hp
  rw [Nat.div_eq_of_lt (show D < W by omega), Nat.mod_eq_of_lt (show D < W by omega)] at hadd
  rw [Nat.add_mul, Nat.one_mul] at hqW
  by_cases hc : W ≤ A % W + D
  · rw [if_pos hc] at hadd
    refine iff_of_true ?_ hc
    by_cases ho : 100000000000000000000 ≤ A + D
    · exact .inl ho
    · refine .inr ⟨?_, ?_⟩
      · by_contra h
        have := hsc (by omega)
        rw [Nat.mod_eq_of_lt (show A < W by omega)] at hc
        omega
      · rw [Nat.mod_eq_of_lt (show A + D < 100000000000000000000 by omega), hadd]; omega
  · rw [if_neg hc] at hadd
    refine iff_of_false ?_ hc
    rw [Nat.mod_eq_of_lt (show A + D < 100000000000000000000 by omega), hadd]
    omega

/-- Two numbers of one sign add their magnitudes. -/
theorem sameSign_sum {sg : Sign} (h : sg ≠ .dontCare) (A D : Nat) :
    (signValue sg * (A : Int) + signValue sg * (D : Int)).natAbs = A + D := by
  cases sg
  · simp only [signValue]; omega
  · simp only [signValue]; omega
  · exact absurd rfl h

/-- The sign of LO in a multiplication by a word of magnitude `D`: the product's, until a sum of two zeros has been
exactly zero (R213). -/
structure LowSign (sg : Sign) (D A : Nat) (sl : Sign) : Prop where
  ne : sl ≠ .dontCare
  eq : A ≠ 0 ∨ D ≠ 0 → sl = sg

/-- The sign of LO after `l` adds of a word of magnitude `D` to an accumulator of magnitude `A` (R183, R213). -/
def lowAfter (Z : SignRule) (sg sl : Sign) (A D l : Nat) : Sign :=
  if A = 0 ∧ D = 0 then zeroSums Z sg l sl else sg

theorem zeroSums_ne {Z : SignRule} {sg : Sign} (hg : sg ≠ .dontCare) (l : Nat) :
    ∀ {sl : Sign}, sl ≠ .dontCare → zeroSums Z sg l sl ≠ .dontCare := by
  induction l with
  | zero => intro sl h; exact h
  | succ l ih => intro sl h; exact ih (signBy_ne h hg)

theorem lowAfter_lowSign {Z : SignRule} {sg sl : Sign} (hg : sg ≠ .dontCare) (hs : sl ≠ .dontCare) {A A' D l : Nat}
    (hz : A = 0 → D = 0 → A' = 0) : LowSign sg D A' (lowAfter Z sg sl A D l) := by
  unfold lowAfter
  split
  · next h => exact ⟨zeroSums_ne hg l hs, fun h' => by have := hz h.1 h.2; omega⟩
  · exact ⟨hg, fun _ => rfl⟩

theorem lowAfter_zero {Z : SignRule} {sg sl : Sign} {A D : Nat} (h : LowSign sg D A sl) : lowAfter Z sg sl A D 0 = sl := by
  unfold lowAfter
  split
  · rfl
  · exact (h.eq (by omega)).symm

theorem lowAfter_succ {Z : SignRule} {sg sl : Sign} {A D : Nat} (hA : A < 100000000000000000000) (l : Nat) :
    lowAfter Z sg (lowAfter Z sg sl A D 1) ((A + D) % 100000000000000000000) D l = lowAfter Z sg sl A D (l + 1) := by
  by_cases h : A = 0 ∧ D = 0
  · obtain ⟨rfl, rfl⟩ := h; rfl
  · rw [lowAfter, if_neg (by omega), lowAfter, if_neg h]

theorem lowAfter_ne_zero {Z : SignRule} {sg sl : Sign} {A D : Nat} (h : A ≠ 0 ∨ D ≠ 0) (l : Nat) :
    lowAfter Z sg sl A D l = sg := by rw [lowAfter, if_neg (by omega)]

theorem lowAfter_congr {Z : SignRule} {sg sl : Sign} {A₁ A₂ D l : Nat} (h : A₁ = 0 ↔ A₂ = 0) :
    lowAfter Z sg sl A₁ D l = lowAfter Z sg sl A₂ D l := by simp only [lowAfter, h]

/-- The sign the adder gives the sum of an add call. -/
theorem sumSign_add {Z : SignRule} {sg sl : Sign} (hg : sg ≠ .dontCare) {A D : Nat} (h : LowSign sg D A sl) :
    sumSign Z (signValue sl * (A : Int) + signValue sg * (D : Int)) sl sg = lowAfter Z sg sl A D 1 := by
  by_cases hz : A = 0 ∧ D = 0
  · obtain ⟨rfl, rfl⟩ := hz; simp [sumSign, lowAfter, zeroSums]
  · rw [lowAfter_ne_zero (by omega), h.eq (by omega)]
    cases sg
    · rw [sumSign, if_pos (by simp only [signValue]; omega)]
    · rw [sumSign, if_neg (by simp only [signValue]; omega), if_pos (by simp only [signValue]; omega)]
    · exact absurd rfl hg

/-- An add call (R213, R214). -/
theorem multiply_addCall (b : State) {sg sl : Sign} (hg : sg ≠ .dontCare) {A sc n : Nat} (hs : LowSign sg b.dist.mag A sl)
    (hA : A < 100000000000000000000) (hn : sc + n = 10) (lc : Nat) (ov : Bool) :
    multiplyCall (mulState b sg sl A sc (lc + 1) ov) =
      multiplyFinish (mulState b sg (lowAfter b.params.zeroSign sg sl A b.dist.mag 1)
        ((A + b.dist.mag) % 100000000000000000000) sc lc (ov || carriesOut A b.dist.mag sc)) := by
  rw [multiplyCall, if_neg (by simp [mulState])]
  congr 1
  have hr : (accValue (mulState b sg sl A sc (lc + 1) ov) + operandValue (withSign sg b.dist) .lower) =
      signValue sl * (A : Int) + signValue sg * (b.dist.mag : Int) := by
    simp only [accValue, accMag_mulState hA, operandValue]
    rfl
  have hn' : (signValue sl * (A : Int) + signValue sg * (b.dist.mag : Int)).natAbs = A + b.dist.mag := by
    by_cases hz : A = 0 ∧ b.dist.mag = 0
    · rw [hz.1, hz.2]; simp
    · rw [hs.eq (by omega)]; exact sameSign_sum hg A b.dist.mag
  have ht : addToAccumulator (withSign (mulState b sg sl A sc (lc + 1) ov).up.sign (mulState b sg sl A sc (lc + 1) ov).dist)
      .lower (mulState b sg sl A sc (lc + 1) ov) =
      mulState b sg (lowAfter b.params.zeroSign sg sl A b.dist.mag 1) ((A + b.dist.mag) % 100000000000000000000) sc (lc + 1)
        (ov || decide (100000000000000000000 ≤ A + b.dist.mag)) := by
    have hw : withSign (mulState b sg sl A sc (lc + 1) ov).up.sign (mulState b sg sl A sc (lc + 1) ov).dist =
      withSign sg b.dist := rfl
    simp only [addToAccumulator, sumOverflows, Config.accBase, Config.wordBase, hw, hr, hn']
    rw [← sumSign_add hg hs]
    rfl
  simp only [multiplyAdd, ht, accMag_mulState hA, accMag_mulState (Nat.mod_lt _ (by decide))]
  rw [← multiply_flag hA b.dist.mag_lt hn, ← Bool.or_assoc]
  rfl

/-- After a call answered `x`, the micro-step answers `e` in the `k`-th call from there; with no call left, `x` is `e`. -/
def Rest (m : MicroOp) (e : MicroResult) (k : Nat) : MicroResult → Prop
  | .notYet u => Ends m e k (tick u)
  | .done u => k = 0 ∧ .done u = e
  | .halt u => k = 0 ∧ .halt u = e
  | .fault f => k = 0 ∧ .fault f = e

theorem ends_of_rest {m : MicroOp} {e : MicroResult} {k : Nat} {s : State} (h : Rest m e k (runMicro m s)) :
    Ends m e (k + 1) s := by
  cases hr : runMicro m s <;> rw [hr] at h
  · obtain ⟨rfl, rfl⟩ := h; exact .last hr
  · exact .again hr h
  · obtain ⟨rfl, rfl⟩ := h; exact .last hr
  · obtain ⟨rfl, rfl⟩ := h; exact .last hr

theorem tick_mulState (b : State) (sg sl : Sign) (A sc lc : Nat) (ov : Bool) :
    tick (mulState b sg sl A sc lc ov) = mulState (tick b) sg sl A sc lc ov := rfl

theorem multiplyFinish_more (b : State) (sg sl : Sign) (A sc lc : Nat) (ov : Bool) :
    multiplyFinish (mulState b sg sl A sc (lc + 1) ov) = .notYet (mulState b sg sl A sc (lc + 1) ov) := by
  rw [multiplyFinish, if_neg]; simp [mulState]

/-- What `l` adds leave: the sum where none carries out of the partial product, and the flag where one does. -/
structure Adds (A D sc l : Nat) (ov : Bool) (A' : Nat) (ov' : Bool) : Prop where
  lt : A' < 100000000000000000000
  mono : ov = true → ov' = true
  quiet : A % 10 ^ (10 + sc) + l * D < 10 ^ (10 + sc) → ov' = ov ∧ A' = A + l * D
  loud : 10 ^ (10 + sc) ≤ A % 10 ^ (10 + sc) + l * D → ov' = true

theorem add_fits {A W n : Nat} (hA : A < 100000000000000000000) (hW : W * 10 ^ n = 100000000000000000000) {x : Nat}
    (hp : 0 < W) (h : A % W + x < W) :
    A + x < 100000000000000000000 ∧ (A + x) % W = A % W + x ∧ (A + x) / W = A / W := by
  have hq : A / W < 10 ^ n := by rw [Nat.div_lt_iff_lt_mul hp, Nat.mul_comm, hW]; exact hA
  have hqW : (A / W + 1) * W ≤ 100000000000000000000 := by
    rw [← hW, Nat.mul_comm W]; exact Nat.mul_le_mul_right W hq
  have hdiv : W * (A / W) + A % W = A := Nat.div_add_mod A W
  have hcomm : A / W * W = W * (A / W) := Nat.mul_comm _ _
  rw [Nat.add_mul, Nat.one_mul] at hqW
  have e : A + x = W * (A / W) + (A % W + x) := by omega
  refine ⟨by omega, ?_, ?_⟩
  · rw [e, Nat.mul_add_mod, Nat.mod_eq_of_lt h]
  · rw [e, Nat.mul_add_div hp, Nat.div_eq_of_lt h, Nat.add_zero]

theorem base_pow {sc n : Nat} (hn : sc + n = 10) : 10 ^ (10 + sc) * 10 ^ n = 100000000000000000000 := by
  rw [← Nat.pow_add, show 10 + sc + n = 20 by omega]

/-- The add calls of one multiplier digit, one after the other: what they leave depends on the words alone, not on the
rest of the state. -/
theorem multiply_adds {W : Word} {Z : SignRule} {sg : Sign} {sc n : Nat} (hd : arithmeticWord W = true) (hg : sg ≠ .dontCare) (hn : sc + n = 10)
    (l : Nat) :
    ∀ {A : Nat} {sl : Sign} (ov : Bool), A < 100000000000000000000 → LowSign sg W.mag A sl →
    ∃ A' ov', Adds A W.mag sc l ov A' ov' ∧
      ∀ (b : State) (k : Nat) (e : MicroResult), b.dist = W → b.params.zeroSign = Z →
      Rest .multiply e k
        (multiplyFinish (mulState (afterCycles l b) sg (lowAfter Z sg sl A W.mag l) A' sc 0 ov')) →
      Rest .multiply e (k + l) (multiplyFinish (mulState b sg sl A sc l ov)) := by
  have hW := base_pow hn
  have hp : 0 < 10 ^ (10 + sc) := by positivity
  generalize hD : W.mag = D
  induction l with
  | zero =>
    intro A sl ov hA hs
    have hm := Nat.mod_lt A hp
    refine ⟨A, ov, ⟨hA, id, fun _ => ⟨rfl, by omega⟩, fun _ => by omega⟩, ?_⟩
    intro b k e _ _ h; rwa [lowAfter_zero hs] at h
  | succ l ih =>
    intro A sl ov hA hs
    have hlt : (A + D) % 100000000000000000000 < 100000000000000000000 := Nat.mod_lt _ (by decide)
    obtain ⟨A', ov', had, hrun⟩ := ih (A := (A + D) % 100000000000000000000) (ov || carriesOut A D sc) hlt
      (lowAfter_lowSign (Z := Z) (A := A) (l := 1) hg hs.ne (by intro h1 h2; rw [h1, h2]))
    have hl : (l + 1) * D = l * D + D := by rw [Nat.add_mul, Nat.one_mul]
    refine ⟨A', ov', ⟨had.lt, fun h => had.mono (by simp [h]), ?_, ?_⟩, ?_⟩
    · intro h
      have hc : A % 10 ^ (10 + sc) + D < 10 ^ (10 + sc) := by omega
      obtain ⟨f1, f2, f3⟩ := add_fits hA hW hp hc
      have hc' : carriesOut A D sc = false := by simpa [carriesOut] using hc
      have := had.quiet (by rw [Nat.mod_eq_of_lt f1, f2]; omega)
      rw [hc', Bool.or_false, Nat.mod_eq_of_lt f1] at this
      exact ⟨this.1, by omega⟩
    · intro h
      by_cases hc : A % 10 ^ (10 + sc) + D < 10 ^ (10 + sc)
      · obtain ⟨f1, f2, f3⟩ := add_fits hA hW hp hc
        exact had.loud (by rw [Nat.mod_eq_of_lt f1, f2]; omega)
      · have hc' : carriesOut A D sc = true := by simpa [carriesOut] using hc
        exact had.mono (by simp [hc'])
    · intro b k e hb hZ h
      rw [multiplyFinish_more]
      show Ends .multiply e (k + l + 1) (tick (mulState b sg sl A sc (l + 1) ov))
      rw [tick_mulState]
      refine ends_of_rest ?_
      have hcall := multiply_addCall (tick b) hg (by rwa [tick_dist, hb, hD]) hA hn l ov
      simp only [tick_dist, hb, hD, tick_params, hZ] at hcall
      rw [multiplyStep_busy (by simpa [hb] using hd) hs.ne (.inr (Nat.succ_ne_zero l)), hcall]
      refine hrun (tick b) k e hb hZ ?_
      rw [lowAfter_succ hA]
      rwa [tick_eq_afterCycles, afterCycles_afterCycles, Nat.add_comm 1 l]

/-- What a run of the multiply step leaves, from the `sc` shifts made to the `n` still due: the partial product moved
up plus the product of the multiplier digits left, where that fits the accumulator, and the flag where it does not. -/
structure MulRun (A D sc n : Nat) (ov : Bool) (k A' : Nat) (ov' : Bool) : Prop where
  pos : 1 ≤ k
  bound : k ≤ 10 * n
  lt : A' < 100000000000000000000
  mono : ov = true → ov' = true
  quiet : A % 10 ^ (10 + sc) * 10 ^ n + A / 10 ^ (10 + sc) * D < 100000000000000000000 →
    ov' = ov ∧ A' = A % 10 ^ (10 + sc) * 10 ^ n + A / 10 ^ (10 + sc) * D ∧
      k = n + digitsSum n (A / 10 ^ (10 + sc))
  loud : 100000000000000000000 ≤ A % 10 ^ (10 + sc) * 10 ^ n + A / 10 ^ (10 + sc) * D → ov' = true

/-- The split of the accumulator by a shift call (R212). -/
theorem shift_split {A W n : Nat} (_hW : W * 10 ^ (n + 1) = 100000000000000000000)
    (_hA : A < 100000000000000000000) (hp : 0 < W) (hW20 : 10000000000000000000 = W * 10 ^ n) :
    A / 10000000000000000000 = A / W / 10 ^ n ∧
      A * 10 % 100000000000000000000 % (W * 10) = A % W * 10 ∧
      A * 10 % 100000000000000000000 / (W * 10) = A / W % 10 ^ n := by
  have hdiv : W * (A / W) + A % W = A := Nat.div_add_mod A W
  have hmod := Nat.mod_lt A hp
  have hpn : 0 < 10 ^ n := by positivity
  have hdR : 10 ^ n * (A / W / 10 ^ n) + A / W % 10 ^ n = A / W := Nat.div_add_mod _ _
  have hmR := Nat.mod_lt (A / W) hpn
  generalize A / W / 10 ^ n = q at *
  generalize A / W % 10 ^ n = r at *
  generalize A / W = R at *
  generalize A % W = p at *
  have e : A = 10000000000000000000 * q + (W * r + p) := by
    rw [← hdiv, ← hdR, hW20]; ring
  have hr : W * r + p < W * 10 ^ n := by
    calc W * r + p < W * r + W := by omega
      _ = W * (r + 1) := by ring
      _ ≤ W * 10 ^ n := Nat.mul_le_mul_left W hmR
  have e10 : A * 10 = 100000000000000000000 * q + (W * 10 * r + p * 10) := by
    have : W * 10 * r = 10 * (W * r) := by ring
    omega
  have hr10 : W * 10 * r + p * 10 < 100000000000000000000 := by
    have : W * 10 * r = 10 * (W * r) := by ring
    omega
  refine ⟨?_, ?_, ?_⟩
  · omega
  · rw [e10, Nat.mul_add_mod, Nat.mod_eq_of_lt hr10, Nat.mul_add_mod, Nat.mod_eq_of_lt (by omega)]
  · rw [e10, Nat.mul_add_mod, Nat.mod_eq_of_lt hr10, Nat.mul_add_div (by omega), Nat.div_eq_of_lt (by omega),
      Nat.add_zero]

/-- The multiply step from `sc` shifts on, to its end (R210 to R216). -/
theorem multiply_run {W : Word} {Z : SignRule} {sg : Sign} (hd : arithmeticWord W = true) (hg : sg ≠ .dontCare) (n : Nat) :
    ∀ {A sc : Nat} {sl : Sign} (ov : Bool), sc + (n + 1) = 10 → A < 100000000000000000000 → LowSign sg W.mag A sl →
    ∃ k A' ov', MulRun A W.mag sc (n + 1) ov k A' ov' ∧ ∀ b : State, b.dist = W → b.params.zeroSign = Z →
      Rest .multiply (.done (mulState (afterCycles (k - 1) b) sg
        (lowAfter Z sg sl (A % 10 ^ (10 + sc)) W.mag (lastDigit (n + 1) (A / 10 ^ (10 + sc)))) A' 0 0 ov')) (k - 1)
        (multiplyCall (mulState b sg sl A sc 0 ov)) := by
  generalize hD : W.mag = D
  induction n with
  | zero =>
    intro A sc sl ov hn hA hs
    obtain rfl : sc = 9 := by omega
    obtain ⟨h1, h2, h3⟩ := shift_split (W := 10 ^ 19) (n := 0) (by norm_num) hA (by norm_num) (by norm_num)
    have hq : A / 10000000000000000000 < 10 := by omega
    obtain ⟨A', ov', had, hrun⟩ := multiply_adds hd hg (sc := 10) (n := 0) rfl (A / 10000000000000000000)
      (A := A * 10 % 100000000000000000000) ov (Nat.mod_lt _ (by decide)) (by rw [hD]; exact ⟨hs.ne, fun h => hs.eq (by omega)⟩)
    rw [hD] at had
    refine ⟨A / 10000000000000000000 + 1, A', ov', ⟨by omega, by omega, had.lt, had.mono, ?_, ?_⟩, ?_⟩
    · intro h
      norm_num only at h
      have := had.quiet (by norm_num only; omega)
      refine ⟨this.1, ?_, ?_⟩
      · rw [this.2]; norm_num only; omega
      · simp only [digitsSum]; norm_num only; omega
    · intro h
      norm_num only at h
      exact had.loud (by norm_num only; omega)
    · intro b hb hZ
      rw [multiply_shiftCall b sg sl hA 9 ov]
      have hl : lowAfter Z sg sl (A * 10 % 100000000000000000000) D (A / 10000000000000000000) =
          lowAfter Z sg sl (A % 10 ^ (10 + 9)) D (lastDigit (0 + 1) (A / 10 ^ (10 + 9))) := by
        rw [lowAfter_congr (A₂ := A % 10 ^ (10 + 9)) (by norm_num only; omega)]
        simp only [lastDigit, Nat.pow_zero, Nat.mod_one, if_true, Nat.div_one, Nat.reduceAdd, Nat.reducePow]
      have := hrun b 0 _ hb hZ ⟨rfl, rfl⟩
      rwa [Nat.zero_add, hD, hl] at this
  | succ n ih =>
    intro A sc sl ov hn hA hs
    have hW := base_pow (sc := sc) (n := n + 2) (by omega)
    have hW1 := base_pow (sc := sc + 1) (n := n + 1) (by omega)
    have hp : 0 < 10 ^ (10 + sc) := by positivity
    have hp1 : 0 < 10 ^ (10 + (sc + 1)) := by positivity
    have hpn : 0 < 10 ^ (n + 1) := by positivity
    have hWW : 10 ^ (10 + (sc + 1)) = 10 ^ (10 + sc) * 10 := by rw [← Nat.add_assoc, Nat.pow_succ]
    have h19 : 10000000000000000000 = 10 ^ (10 + sc) * 10 ^ (n + 1) := by
      have : 10 ^ (10 + sc) * 10 ^ (n + 2) = 10 ^ (10 + sc) * 10 ^ (n + 1) * 10 := by ring
      omega
    obtain ⟨h1, h2, h3⟩ := shift_split hW hA hp h19
    rw [← hWW] at h2 h3
    have hq : A / 10000000000000000000 < 10 := by omega
    obtain ⟨A1, ov1, had, hrun⟩ := multiply_adds hd hg (sc := sc + 1) (n := n + 1) (by omega)
      (A / 10000000000000000000) (A := A * 10 % 100000000000000000000) ov (Nat.mod_lt _ (by decide)) (by rw [hD]; exact ⟨hs.ne, fun h => hs.eq (by omega)⟩)
    rw [hD] at had
    have hz : A * 10 % 100000000000000000000 = 0 → D = 0 → A1 = 0 := by
      intro h0 hD0
      have := (had.quiet (by rw [h0, hD0]; simp)).2
      rw [this, h0, hD0]; simp
    obtain ⟨k, A', ov', hm, ht⟩ := ih (A := A1) (sc := sc + 1) ov1 (by omega) had.lt
      (lowAfter_lowSign (Z := Z) (l := A / 10000000000000000000) hg hs.ne hz)
    have hdR : 10 ^ (n + 1) * (A / 10 ^ (10 + sc) / 10 ^ (n + 1)) + A / 10 ^ (10 + sc) % 10 ^ (n + 1) =
      A / 10 ^ (10 + sc) := Nat.div_add_mod _ _
    have e : A % 10 ^ (10 + sc) * 10 ^ (n + 1 + 1) + A / 10 ^ (10 + sc) * D =
        (A % 10 ^ (10 + sc) * 10 + A / 10 ^ (10 + sc) / 10 ^ (n + 1) * D) * 10 ^ (n + 1) +
          A / 10 ^ (10 + sc) % 10 ^ (n + 1) * D := by
      conv_lhs => rw [← hdR]
      ring
    have hfit : A * 10 % 100000000000000000000 % 10 ^ (10 + (sc + 1)) + A / 10000000000000000000 * D <
        10 ^ (10 + (sc + 1)) → ov1 = ov ∧
        A1 % 10 ^ (10 + (sc + 1)) = A % 10 ^ (10 + sc) * 10 + A / 10 ^ (10 + sc) / 10 ^ (n + 1) * D ∧
        A1 / 10 ^ (10 + (sc + 1)) = A / 10 ^ (10 + sc) % 10 ^ (n + 1) := by
      intro hf
      obtain ⟨_, f2, f3⟩ := add_fits (A := A * 10 % 100000000000000000000) (Nat.mod_lt _ (by decide)) hW1 hp1 hf
      obtain ⟨q1, q2⟩ := had.quiet hf
      rw [q2, f2, f3, h1, h2, h3]
      exact ⟨q1, rfl, rfl⟩
    have hlow : lowAfter Z sg (lowAfter Z sg sl (A * 10 % 100000000000000000000) D (A / 10000000000000000000))
        (A1 % 10 ^ (10 + (sc + 1))) D (lastDigit (n + 1) (A1 / 10 ^ (10 + (sc + 1)))) =
        lowAfter Z sg sl (A % 10 ^ (10 + sc)) D (lastDigit (n + 1 + 1) (A / 10 ^ (10 + sc))) := by
      by_cases hD0 : D = 0
      · subst hD0
        have hmod := Nat.mod_lt (A * 10 % 100000000000000000000) hp1
        obtain ⟨-, g2, g3⟩ := hfit (by omega)
        rw [g2, g3, Nat.mul_zero, Nat.add_zero]
        by_cases hp0 : A % 10 ^ (10 + sc) = 0
        · rw [hp0, show lastDigit (n + 1 + 1) (A / 10 ^ (10 + sc)) = if A / 10 ^ (10 + sc) % 10 ^ (n + 1) = 0 then
            A / 10 ^ (10 + sc) / 10 ^ (n + 1) else lastDigit (n + 1) (A / 10 ^ (10 + sc) % 10 ^ (n + 1)) from rfl]
          have hdm := Nat.div_add_mod (A * 10 % 100000000000000000000) (10 ^ (10 + (sc + 1)))
          rw [h2, h3, hp0] at hdm
          by_cases hr : A / 10 ^ (10 + sc) % 10 ^ (n + 1) = 0
          · rw [if_pos hr, hr, ← h1, lastDigit_zero, lowAfter_congr (A₁ := A * 10 % 100000000000000000000) (A₂ := 0)]
            · rfl
            · rw [hr] at hdm; omega
          · have hne : A * 10 % 100000000000000000000 ≠ 0 := by
              intro h0
              rw [h0] at hdm
              have := Nat.mul_ne_zero (Nat.ne_of_gt hp1) hr
              omega
            rw [if_neg hr, lowAfter_ne_zero (.inl hne), hs.eq (.inl (by rintro rfl; simp at hne))]
        · rw [lowAfter_ne_zero (.inl (by omega)), lowAfter_ne_zero (.inl hp0)]
      · rw [lowAfter_ne_zero (.inr hD0), lowAfter_ne_zero (.inr hD0)]
    refine ⟨A / 10000000000000000000 + k + 1, A', ov', ⟨by omega, ?_, hm.lt, fun h => hm.mono (had.mono h), ?_, ?_⟩, ?_⟩
    · have := hm.bound; omega
    · intro h
      rw [e] at h ⊢
      have hf : A * 10 % 100000000000000000000 % 10 ^ (10 + (sc + 1)) + A / 10000000000000000000 * D <
          10 ^ (10 + (sc + 1)) := by
        rw [h2, h1]
        refine Nat.lt_of_mul_lt_mul_right (a := 10 ^ (n + 1)) ?_
        rw [hW1]
        exact lt_of_le_of_lt (Nat.le_add_right _ _) h
      obtain ⟨g1, g2, g3⟩ := hfit hf
      have := hm.quiet (by rw [g2, g3]; exact h)
      rw [g2, g3] at this
      refine ⟨this.1.trans g1, this.2.1, ?_⟩
      have hds : digitsSum (n + 1 + 1) (A / 10 ^ (10 + sc)) = A / 10 ^ (10 + sc) / 10 ^ (n + 1) +
        digitsSum (n + 1) (A / 10 ^ (10 + sc) % 10 ^ (n + 1)) := rfl
      rw [this.2.2, hds, h1]
      omega
    · intro h
      rw [e] at h
      by_cases hf : A * 10 % 100000000000000000000 % 10 ^ (10 + (sc + 1)) + A / 10000000000000000000 * D <
          10 ^ (10 + (sc + 1))
      · obtain ⟨g1, g2, g3⟩ := hfit hf
        exact hm.loud (by rw [g2, g3]; exact h)
      · exact hm.mono (had.loud (Nat.le_of_not_lt hf))
    · intro b hb hZ
      rw [multiply_shiftCall b sg sl hA sc ov, ← hlow]
      have hk := hm.pos
      have h9 : sc + 1 ≠ 10 := by omega
      have hne := (lowAfter_lowSign (Z := Z) (sg := sg) (l := A / 10000000000000000000) hg hs.ne hz).ne
      have ht := ht (afterCycles (A / 10000000000000000000 + 1) b) hb hZ
      rw [← multiplyStep_busy (by simpa [hb] using hd) hne (.inl (Nat.succ_ne_zero sc))] at ht
      have ht := ends_of_rest ht
      rw [Nat.sub_add_cancel hk, afterCycles_afterCycles,
        show A / 10000000000000000000 + 1 + (k - 1) = A / 10000000000000000000 + k by omega] at ht
      have := hrun b k _ hb hZ (by
        rw [hD]
        rw [multiplyFinish, if_neg (by simp [mulState, h9])]
        show Ends .multiply _ k (tick (mulState _ _ _ _ _ _ _))
        rwa [tick_mulState, tick_eq_afterCycles, afterCycles_afterCycles])
      rwa [Nat.add_comm k] at this

/-- The multiply step of an idle sequencer, where the exact sum fits the accumulator: the 20-digit result under the
product's sign, but for the zero sums of LO, in ten calls and one more for each unit of the multiplier's digits (R210 to R216). -/
theorem takes_multiply {s : State} (hd : arithmeticWord s.dist = true) (hu : s.up.valid = true)
    (hl : arithmeticWord s.lo = true) (hsc : s.shiftCount = 0) (hlc : s.loopCount = 0)
    (hfit : s.lo.mag * 10000000000 + s.up.mag * s.dist.mag < 100000000000000000000) :
    Takes .multiply (10 + digitSum s.up) s
      (mulState (afterCycles (9 + digitSum s.up) s) (multiplySign s)
        (lowAfter s.params.zeroSign (multiplySign s) (multiplySign s) s.lo.mag s.dist.mag (lastDigit 10 s.up.mag))
        (s.lo.mag * 10000000000 + s.up.mag * s.dist.mag) 0 0
        s.overflow) := by
  obtain ⟨h1, h2⟩ := accMag_split s
  obtain ⟨k, A', ov', hm, ht⟩ := multiply_run hd (multiplySign_ne hd hl) 9 (A := accMag s) (sc := 0) s.overflow rfl (accMag_lt s)
    ⟨multiplySign_ne hd hl, fun _ => rfl⟩
  have ht := ht s rfl rfl
  norm_num only at ht
  rw [h1, h2] at ht
  have hq := hm.quiet
  norm_num only at hq
  rw [h1, h2] at hq
  obtain ⟨rfl, rfl, rfl⟩ := hq hfit
  rw [digitSum_eq]
  have hk : 10 + digitsSum 10 s.up.mag - 1 = 9 + digitsSum 10 s.up.mag := by omega
  rw [hk, ← multiplyStep_idle hd hu hl hsc hlc] at ht
  have := ends_of_rest ht
  rwa [show 9 + digitsSum 10 s.up.mag + 1 = 10 + digitsSum 10 s.up.mag by omega] at this

/-- The multiply step of an idle sequencer, where the exact sum does not fit: it ends all the same, with overflow
(R214). What it leaves depends on the two factors, the addend, the sign and the flag alone. -/
theorem takes_multiply_overflow {W u l : Word} {sg : Sign} {Z : SignRule} (ov : Bool) (hd : arithmeticWord W = true) (hu : u.valid = true)
    (hl : arithmeticWord l = true) (hg : sg ≠ .dontCare)
    (hfit : 100000000000000000000 ≤ l.mag * 10000000000 + u.mag * W.mag) :
    ∃ k A, k < 100 ∧ ∀ s : State, s.dist = W → s.up = u → s.lo = l → s.overflow = ov → multiplySign s = sg →
      s.params.zeroSign = Z → s.shiftCount = 0 → s.loopCount = 0 →
      Takes .multiply (k + 1) s (mulState (afterCycles k s) sg sg A 0 0 true) := by
  have hu' := u.mag_lt
  have hl' := l.mag_lt
  obtain ⟨k, A', ov', hm, ht⟩ := multiply_run hd hg 9 (A := u.mag * 10000000000 + l.mag) (sc := 0) (Z := Z) ov rfl (by omega)
    ⟨hg, fun _ => rfl⟩
  have hq := hm.loud
  norm_num only at hq
  rw [show (u.mag * 10000000000 + l.mag) % 10000000000 = l.mag by omega,
    show (u.mag * 10000000000 + l.mag) / 10000000000 = u.mag by omega] at hq
  obtain rfl := hq hfit
  have hp := hm.pos
  have hb := hm.bound
  refine ⟨k - 1, A', by omega, ?_⟩
  intro s h1 h2 h3 h4 h5 h6 hsc hlc
  have hD : W.mag ≠ 0 := by intro h; rw [h] at hfit; omega
  have hacc : accMag s = u.mag * 10000000000 + l.mag := by rw [accMag, h2, h3]
  have hf := multiplyStep_idle (s := s) (by rwa [h1]) (by rwa [h2]) (by rwa [h3]) hsc hlc
  rw [hacc, h5, h4] at hf
  have ht := ht s h1 h6
  rw [lowAfter_ne_zero (.inr hD)] at ht
  exact ends_of_rest (by rw [hf]; exact ht)

/-- The multiply step on operands the arithmetic is not specified on ends in its first call (R185, R223). -/
theorem takesFault_multiply {s : State} (h : adderOperandsOk s = false) : TakesFault .multiply .invalidOperand 1 s :=
  .last (by simp [runMicro, multiplyStep, h])

/-! ### Divide -/

/-- What a divide call does after the first-entry action. -/
def divideCall (r : Bool) (t : State) : MicroResult :=
  if t.loopCount = 0 then .notYet (divideShift t) else divideTrial r t

/-- `b` with the halves of the accumulator holding `U` under its own sign and `L` under the quotient's, and the
sequencer's counters. -/
def divState (b : State) (qs : Sign) (U L sc lc : Nat) : State :=
  { b with up := Word.ofNat b.up.sign U, lo := Word.ofNat qs L, shiftCount := sc, loopCount := lc }

theorem tick_divState (b : State) (qs : Sign) (U L sc lc : Nat) :
    tick (divState b qs U L sc lc) = divState (tick b) qs U L sc lc := rfl

/-- The sign the first divide call writes (R218). -/
def entrySign (s : State) : Sign := quotientSign s.dist.sign s.lo.sign

theorem entrySign_ne (s : State) : entrySign s ≠ .dontCare := by
  simp only [entrySign, quotientSign]; split <;> simp

/-- First entry puts the accumulator into the form `divState` (R218). -/
theorem divideEntry_idle {s : State} (hu : s.up.valid = true) (hl : s.lo.valid = true) (hsc : s.shiftCount = 0)
    (hlc : s.loopCount = 0) : divideEntry s = divState s (entrySign s) s.up.mag s.lo.mag 0 0 := by
  have hi : sequencerIdle s = true := by simp [sequencerIdle, hsc, hlc]
  simp only [divideEntry, hi, if_true, divState, Word.ofNat_mag hu, withSign_eq_ofNat hl, entrySign, quotientSign]
  obtain ⟨⟩ := s
  simp_all

theorem adderOperandsOk_divState {b : State} (hd : arithmeticWord b.dist = true) {qs : Sign} (hq : qs ≠ .dontCare)
    (U L sc lc : Nat) : adderOperandsOk (divState b qs U L sc lc) = true := by
  rw [adderOperandsOk_iff]
  exact ⟨hd, rfl, (arithmeticWord_iff _).mpr ⟨rfl, hq⟩⟩

/-- A later divide call. -/
theorem divideStep_busy {b : State} (hd : arithmeticWord b.dist = true) {qs : Sign} (hq : qs ≠ .dontCare) {U L sc lc : Nat}
    (r : Bool) (h : sc ≠ 0 ∨ lc ≠ 0) :
    runMicro (.divide r) (divState b qs U L sc lc) = divideCall r (divState b qs U L sc lc) := by
  have hi : sequencerIdle (divState b qs U L sc lc) = false := by
    rw [sequencerIdle, Bool.and_eq_false_iff]; exact h.imp (fun h => decide_eq_false h) (fun h => decide_eq_false h)
  rw [runMicro, divideStep, if_pos (adderOperandsOk_divState hd hq U L sc lc), divideEntry, hi]
  rfl

/-- The first divide call (R218). -/
theorem divideStep_idle {s : State} (r : Bool) (hd : arithmeticWord s.dist = true) (hu : s.up.valid = true)
    (hl : arithmeticWord s.lo = true) (hsc : s.shiftCount = 0) (hlc : s.loopCount = 0) :
    runMicro (.divide r) s = divideCall r (divState s (entrySign s) s.up.mag s.lo.mag 0 0) := by
  rw [runMicro, divideStep, if_pos ((adderOperandsOk_iff s).mpr ⟨hd, hu, hl⟩),
    divideEntry_idle hu ((arithmeticWord_iff _).mp hl).1 hsc hlc]
  rfl

/-- A shift call (R218). -/
theorem divide_shiftCall (b : State) (qs : Sign) (r : Bool)
    {U L : Nat} (hU : U < 10000000000) (hL : L < 10000000000) (sc : Nat) :
    divideCall r (divState b qs U L sc 0) =
      .notYet (divState b qs ((U * 10 + L / 1000000000) % 10000000000) (L * 10 % 10000000000) (sc + 1)
        ((U * 10 + L / 1000000000) / 10000000000 + 1)) := by
  have ht : topDigit (divState b qs U L sc 0) = (U * 10 + L / 1000000000) / 10000000000 := by
    simp only [topDigit, Word.d10_val, divState, Word.mag_ofNat]; omega
  have hm : accMag (divState b qs U L sc 0) * 10 % 100000000000000000000 =
      (U * 10 + L / 1000000000) % 10000000000 * 10000000000 + L * 10 % 10000000000 := by
    simp only [accMag, divState, Word.mag_ofNat, Config.wordBase]; omega
  rw [divideCall, if_pos (show (divState b qs U L sc 0).loopCount = 0 from rfl)]
  simp only [divideShift, ht, shiftLeft, Config.accBase, Config.wordBase, hm]
  simp only [divState, Word.sign_ofNat, MicroResult.notYet.injEq, State.mk.injEq, true_and, and_true]
  exact ⟨by congr 1; omega, by congr 1; omega⟩

theorem partialDividend_divState {b : State} {qs : Sign} {T : Nat} (L sc : Nat) :
    partialDividend (divState b qs (T % 10000000000) L sc (T / 10000000000 + 1)) = T := by
  simp only [partialDividend, divState, Word.mag_ofNat, Config.wordBase]; omega

/-- A trial that succeeds (R219). -/
theorem divide_trialCall {b : State} (qs : Sign) (r : Bool)
    {T L : Nat} (hT : b.dist.mag ≤ T) (hL : L < 10000000000) (h9 : L % 10 ≠ 9) (sc : Nat) :
    divideCall r (divState b qs (T % 10000000000) L sc (T / 10000000000 + 1)) =
      .notYet (divState b qs ((T - b.dist.mag) % 10000000000) (L + 1) sc ((T - b.dist.mag) / 10000000000 + 1)) := by
  rw [divideCall, if_neg (by simp [divState]), divideTrial,
    partialDividend_divState]
  rw [if_pos (by exact hT), if_neg (by
    rw [Word.d1_val]; show ¬ (Word.ofNat qs L).mag % 10 = 9; rw [Word.mag_ofNat]; omega)]
  simp only [divideSubtract, partialDividend_divState]
  simp only [divState, Word.sign_ofNat, Word.mag_ofNat, Config.wordBase, Nat.mod_eq_of_lt hL]

/-- A trial that would raise the quotient digit above nine (R220). -/
theorem divide_overflowCall {b : State} (qs : Sign) (r : Bool)
    {T L : Nat} (hT : b.dist.mag ≤ T) (h9 : L % 10 = 9) (sc : Nat) :
    divideCall r (divState b qs (T % 10000000000) L sc (T / 10000000000 + 1)) =
      (if b.params.quotientOverflowHalts then .halt { divState b qs (T % 10000000000) L 0 0 with overflow := true }
       else .done { divState b qs (T % 10000000000) L 0 0 with overflow := true }) := by
  rw [divideCall, if_neg (by simp [divState]), divideTrial,
    partialDividend_divState]
  rw [if_pos (by exact hT), if_pos (by
    rw [Word.d1_val]; show (Word.ofNat qs L).mag % 10 = 9; rw [Word.mag_ofNat]; omega)]
  rfl

/-- What the completing call of a division leaves in UP (R221, R222). -/
def divDone (r : Bool) (qs : Sign) (s : State) : State := { s with up := if r then Word.zero qs else s.up }

/-- A trial that fails (R221). -/
theorem divide_restoreCall {b : State} (qs : Sign) (r : Bool)
    {T L : Nat} (hT : T < b.dist.mag) (sc : Nat) :
    divideCall r (divState b qs (T % 10000000000) L sc (T / 10000000000 + 1)) =
      if sc = 10 then .done (divDone r qs (divState b qs (T % 10000000000) L 0 0))
      else .notYet (divState b qs (T % 10000000000) L sc 0) := by
  rw [divideCall, if_neg (by simp [divState]), divideTrial,
    partialDividend_divState]
  rw [if_neg (by exact Nat.not_le.mpr hT)]
  rw [divideRestore]
  by_cases h : sc = 10
  · rw [if_pos h, if_pos (by exact h)]; rfl
  · rw [if_neg h, if_neg (by exact h)]; rfl

/-- The successful trials of one quotient digit, one after the other. -/
theorem divide_trials {D R sc : Nat} {qs : Sign} (hq : qs ≠ .dontCare) (r : Bool) (q : Nat) : ∀ {b : State} {L : Nat},
    arithmeticWord b.dist = true → b.dist.mag = D → L < 10000000000 → L % 10 + q ≤ 9 → ∀ k e,
    Rest (.divide r) e k
      (divideCall r (divState (afterCycles q b) qs (R % 10000000000) (L + q) sc (R / 10000000000 + 1))) →
    Rest (.divide r) e (k + q)
      (divideCall r (divState b qs ((R + q * D) % 10000000000) L sc ((R + q * D) / 10000000000 + 1))) := by
  induction q with
  | zero =>
    intro b L _ _ _ _ k e h
    rw [afterCycles_zero] at h
    simpa using h
  | succ q ih =>
    intro b L hd hD hL hq9 k e h
    have hl : (q + 1) * D = q * D + D := by rw [Nat.add_mul, Nat.one_mul]
    rw [divide_trialCall qs r (by omega) hL (by omega)]
    show Ends (.divide r) e (k + q + 1) (tick (divState _ _ _ _ _ _))
    rw [tick_divState]
    refine ends_of_rest ?_
    rw [divideStep_busy (by simpa using hd) hq r (.inr (by omega)), show R + (q + 1) * D - b.dist.mag = R + q * D by omega]
    refine ih (b := tick b) (by simpa using hd) (by simpa using hD) (by omega) (by omega) k e ?_
    rwa [tick_eq_afterCycles, afterCycles_afterCycles, Nat.add_comm 1 q, Nat.add_assoc, Nat.add_comm 1 q]

/-- One quotient digit: the shift, `q` trials that succeed, and what the rest makes of the state then. -/
theorem divide_digit {D R sc q : Nat} {qs : Sign} (hq : qs ≠ .dontCare) (r : Bool) {b : State} {U L : Nat}
    (hd : arithmeticWord b.dist = true) (hD : b.dist.mag = D) (hU : U < 10000000000)
    (hL : L < 10000000000) (hq9 : q ≤ 9) (hT : U * 10 + L / 1000000000 = R + q * D) (k : Nat) (e : MicroResult)
    (h : Rest (.divide r) e k (divideCall r (divState (afterCycles (q + 1) b) qs (R % 10000000000)
      (L * 10 % 10000000000 + q) (sc + 1) (R / 10000000000 + 1)))) :
    Rest (.divide r) e (k + q + 1) (divideCall r (divState b qs U L sc 0)) := by
  rw [divide_shiftCall b qs r hU hL, hT]
  show Ends (.divide r) e (k + q + 1) (tick (divState _ _ _ _ _ _))
  rw [tick_divState]
  refine ends_of_rest ?_
  rw [divideStep_busy (by simpa using hd) hq r (.inr (by omega))]
  refine divide_trials (D := D) hq r q (b := tick b) (by simpa using hd) (by simpa using hD)
    (Nat.mod_lt _ (by decide)) (by omega) k e ?_
  rwa [tick_eq_afterCycles, afterCycles_afterCycles, Nat.add_comm 1 q]

/-- The divide step with `n + 1` quotient digits still due, to its end: `M` is what is left of the dividend's lower
digits, `Q` what is there of the quotient (R217 to R222). -/
theorem divide_run {D : Nat} {qs : Sign} (hq : qs ≠ .dontCare) (r : Bool) (n : Nat) : ∀ {b : State} {U M Q sc : Nat},
    sc + (n + 1) = 10 → arithmeticWord b.dist = true → b.dist.mag = D → D < 10000000000 → U < D →
    M < 10 ^ (n + 1) → Q < 10 ^ sc →
    Rest (.divide r) (.done
      (divDone r qs (divState (afterCycles (2 * n + 1 + digitsSum (n + 1) ((U * 10 ^ (n + 1) + M) / D)) b) qs
        ((U * 10 ^ (n + 1) + M) % D) (Q * 10 ^ (n + 1) + (U * 10 ^ (n + 1) + M) / D) 0 0)))
      (2 * n + 1 + digitsSum (n + 1) ((U * 10 ^ (n + 1) + M) / D))
      (divideCall r (divState b qs U (M * 10 ^ sc + Q) sc 0)) := by
  induction n with
  | zero =>
    intro b U M Q sc hn hd hD hD10 hU hM hQ
    obtain rfl : sc = 9 := by omega
    norm_num only at hM hQ ⊢
    have hT := Nat.div_add_mod (U * 10 + M) D
    have hR := Nat.mod_lt (U * 10 + M) (show 0 < D by omega)
    have hq9 : (U * 10 + M) / D < 10 := by rw [Nat.div_lt_iff_lt_mul (by omega)]; omega
    have hds : digitsSum 1 ((U * 10 + M) / D) = (U * 10 + M) / D := by simp [digitsSum]
    have hL : (M * 1000000000 + Q) / 1000000000 = M := by omega
    have hL' : (M * 1000000000 + Q) * 10 % 10000000000 = Q * 10 := by omega
    rw [hds, Nat.add_comm 1]
    rw [Nat.mul_comm] at hT
    have := divide_digit (D := D) (R := (U * 10 + M) % D) (sc := 9) (q := (U * 10 + M) / D) hq r (b := b) (U := U)
      (L := M * 1000000000 + Q) hd hD (by omega) (by omega) (by omega) (by rw [hL]; omega) 0
      (.done (divDone r qs (divState (afterCycles ((U * 10 + M) / D + 1) b) qs ((U * 10 + M) % D) (Q * 10 + (U * 10 + M) / D) 0 0)))
      (by
        rw [divide_restoreCall qs r (by simpa [hD] using hR), if_pos rfl, hL',
          Nat.mod_eq_of_lt (show (U * 10 + M) % D < 10000000000 by omega)]
        exact ⟨rfl, rfl⟩)
    rwa [Nat.zero_add] at this
  | succ n ih =>
    intro b U M Q sc hn hd hD hD10 hU hM hQ
    have hpn : 0 < 10 ^ (n + 1) := by positivity
    have hps : 0 < 10 ^ sc := by positivity
    have h10 : 10 ^ sc * 10 ^ (n + 2) = 10000000000 := by rw [← Nat.pow_add, show sc + (n + 2) = 10 by omega]
    have h9 : 10 ^ (n + 1) * 10 ^ sc = 1000000000 := by rw [← Nat.pow_add, show n + 1 + sc = 9 by omega]
    have hsc1 : 10 ^ (sc + 1) = 10 ^ sc * 10 := Nat.pow_succ _ _
    have hn2 : 10 ^ (n + 2) = 10 ^ (n + 1) * 10 := Nat.pow_succ _ _
    have hMd := Nat.div_add_mod M (10 ^ (n + 1))
    have hMr := Nat.mod_lt M hpn
    have hd9 : M / 10 ^ (n + 1) < 10 := by rw [Nat.div_lt_iff_lt_mul hpn]; omega
    generalize hmd : M / 10 ^ (n + 1) = d at *
    generalize hmr : M % 10 ^ (n + 1) = m at *
    have hLe : M * 10 ^ sc + Q = 1000000000 * d + (m * 10 ^ sc + Q) := by
      rw [← hMd, ← h9]; ring
    have hlow : m * 10 ^ sc + Q < 1000000000 := by
      calc m * 10 ^ sc + Q < m * 10 ^ sc + 10 ^ sc := by omega
        _ = (m + 1) * 10 ^ sc := by ring
        _ ≤ 10 ^ (n + 1) * 10 ^ sc := Nat.mul_le_mul_right _ hMr
        _ = 1000000000 := h9
    have hL1 : (M * 10 ^ sc + Q) / 1000000000 = d := by omega
    have hL2 : (M * 10 ^ sc + Q) * 10 % 10000000000 = m * 10 ^ (sc + 1) + Q * 10 := by
      have : m * 10 ^ (sc + 1) = m * 10 ^ sc * 10 := by rw [hsc1]; ring
      omega
    have hT := Nat.div_add_mod (U * 10 + d) D
    have hR := Nat.mod_lt (U * 10 + d) (show 0 < D by omega)
    have hq9 : (U * 10 + d) / D < 10 := by rw [Nat.div_lt_iff_lt_mul (by omega)]; omega
    rw [Nat.mul_comm] at hT
    generalize hqq : (U * 10 + d) / D = q at *
    generalize hrr : (U * 10 + d) % D = R at *
    have hN : U * 10 ^ (n + 1 + 1) + M = (R * 10 ^ (n + 1) + m) + D * (q * 10 ^ (n + 1)) := by
      have : U * 10 ^ (n + 1 + 1) + M = (U * 10 + d) * 10 ^ (n + 1) + m := by
        rw [← hMd, hn2]; ring
      rw [this, ← hT]; ring
    have hNd : (U * 10 ^ (n + 1 + 1) + M) / D = q * 10 ^ (n + 1) + (R * 10 ^ (n + 1) + m) / D := by
      rw [hN, Nat.add_mul_div_left _ _ (by omega), Nat.add_comm]
    have hNm : (U * 10 ^ (n + 1 + 1) + M) % D = (R * 10 ^ (n + 1) + m) % D := by
      rw [hN, Nat.add_mul_mod_self_left]
    have hrest : (R * 10 ^ (n + 1) + m) / D < 10 ^ (n + 1) := by
      rw [Nat.div_lt_iff_lt_mul (by omega)]
      calc R * 10 ^ (n + 1) + m < R * 10 ^ (n + 1) + 10 ^ (n + 1) := by omega
        _ = 10 ^ (n + 1) * (R + 1) := by ring
        _ ≤ 10 ^ (n + 1) * D := Nat.mul_le_mul_left _ hR
    have hih := ih (b := afterCycles (q + 2) b) (U := R) (M := m) (Q := Q * 10 + q) (sc := sc + 1) (by omega)
      (by simpa using hd) (by simpa using hD) hD10 hR hMr (by omega)
    rw [hNd, hNm, digitsSum_cons hrest]
    have hQ' : Q * 10 ^ (n + 1 + 1) + (q * 10 ^ (n + 1) + (R * 10 ^ (n + 1) + m) / D) =
        (Q * 10 + q) * 10 ^ (n + 1) + (R * 10 ^ (n + 1) + m) / D := by rw [hn2]; ring
    rw [hQ']
    generalize (R * 10 ^ (n + 1) + m) / D = y at *
    rw [show 2 * (n + 1) + 1 + (q + digitsSum (n + 1) y) = 2 * n + 1 + digitsSum (n + 1) y + 1 + q + 1 by omega]
    refine divide_digit (D := D) (R := R) hq r hd hD (by omega) (by omega) (by omega) (by rw [hL1, ← hT]; ring) _ _ ?_
    rw [divide_restoreCall qs r (by simpa [hD] using hR), if_neg (by omega), hL2,
      Nat.mod_eq_of_lt (show R < 10000000000 by omega), Nat.add_assoc (m * 10 ^ (sc + 1))]
    show Ends (.divide r) _ (2 * n + 1 + digitsSum (n + 1) y + 1) (tick (divState _ _ _ _ _ _))
    rw [tick_divState, tick_eq_afterCycles, afterCycles_afterCycles]
    refine ends_of_rest ?_
    rw [divideStep_busy (by simpa using hd) hq r (.inl (by omega))]
    rw [afterCycles_afterCycles] at hih
    rwa [show q + 2 + (2 * n + 1 + digitsSum (n + 1) y) = 2 * n + 1 + digitsSum (n + 1) y + 1 + q + 1 by omega] at hih

/-- The divide step of an idle sequencer where the upper half is below the divisor: quotient in LO, remainder in UP or,
in the form that resets the upper half, zero, in twenty calls and one more for each unit of the quotient's digits
(R217 to R222, R224, R225). -/
theorem takes_divide {s : State} (r : Bool) (hd : arithmeticWord s.dist = true) (hu : s.up.valid = true)
    (hl : arithmeticWord s.lo = true) (hsc : s.shiftCount = 0) (hlc : s.loopCount = 0)
    (hlt : s.up.mag < s.dist.mag) :
    Takes (.divide r) (20 + digitsSum 10 (accMag s / s.dist.mag)) s
      (divDone r (entrySign s) (divState (afterCycles (19 + digitsSum 10 (accMag s / s.dist.mag)) s) (entrySign s)
        (accMag s % s.dist.mag) (accMag s / s.dist.mag) 0 0)) := by
  have h := divide_run (D := s.dist.mag) (entrySign_ne s) r 9 (b := s) (U := s.up.mag) (M := s.lo.mag) (Q := 0) (sc := 0)
    rfl hd rfl s.dist.mag_lt hlt s.lo.mag_lt (by norm_num)
  rw [show 20 + digitsSum 10 (accMag s / s.dist.mag) = 19 + digitsSum 10 (accMag s / s.dist.mag) + 1 by omega]
  refine ends_of_rest ?_
  rw [divideStep_idle r hd hu hl hsc hlc]
  norm_num only at h
  simpa [accMag] using h

/-- The divide step of an idle sequencer where the upper half is not below the divisor: in the eleventh call it ends as
`quotientOverflow` says, the accumulator as it stands then (R220, R226). -/
theorem ends_divide_overflow {s : State} (r : Bool) (hd : arithmeticWord s.dist = true) (hu : s.up.valid = true)
    (hl : arithmeticWord s.lo = true) (hsc : s.shiftCount = 0) (hlc : s.loopCount = 0) (hle : s.dist.mag ≤ s.up.mag) :
    let t : State := { divState (afterCycles 10 s) (entrySign s)
          (s.up.mag * 10 + s.lo.mag / 1000000000 - 9 * s.dist.mag) (s.lo.mag * 10 % 10000000000 + 9) 0 0 with
        overflow := true }
    Ends (.divide r) (if s.params.quotientOverflowHalts then .halt t else .done t) 11 s := by
  intro t
  have hU := s.up.mag_lt
  refine ends_of_rest (k := 10) ?_
  rw [divideStep_idle r hd hu hl hsc hlc]
  refine divide_digit (D := s.dist.mag) (R := s.up.mag * 10 + s.lo.mag / 1000000000 - 9 * s.dist.mag) (q := 9)
    (entrySign_ne s) r hd rfl hU s.lo.mag_lt (le_refl 9) (by omega) 0 _ ?_
  rw [divide_overflowCall (entrySign s) r (by simp only [afterCycles_dist]; omega) (by omega)]
  have ht : { divState (afterCycles 10 s) (entrySign s)
      ((s.up.mag * 10 + s.lo.mag / 1000000000 - 9 * s.dist.mag) % 10000000000) (s.lo.mag * 10 % 10000000000 + 9) 0 0 with
      overflow := true } = t := by
    simp only [t, divState]
    rw [← Word.ofNat_mod _ (s.up.mag * 10 + s.lo.mag / 1000000000 - 9 * s.dist.mag)]
  rw [ht]
  show Rest _ _ 0 (if s.params.quotientOverflowHalts then .halt t else .done t)
  split <;> exact ⟨rfl, rfl⟩

/-- The divide step on operands the arithmetic is not specified on ends in its first call (R185, R322). -/
theorem takesFault_divide {s : State} (r : Bool) (h : adderOperandsOk s = false) :
    TakesFault (.divide r) .invalidOperand 1 s :=
  .last (by simp [runMicro, divideStep, h])

end Sys2Proof.Machine
end

