-- ==== Sys2Proof/Laws/Exec.lean ====
section
/-! SUPPORT. What the data half-cycle of each sequence comes to: the state it leaves and the cycles it takes. -/

namespace Sys2Proof.Machine

/-! ### Chaining the steps of a sequence -/

/-- The state in which a data half-cycle begins, seen by the lemmas of the cycle. -/
theorem dataLoop_enable {seq : List MicroOp} (n ia da : Nat) (s : State) (hm : seq[0]? = some .enable) :
    dataLoop (n + 1) seq ia (beginData da s) =
      dataLoop n seq ia { afterCycles 1 (beginData da s) with oc := 1 } := by
  rw [dataLoop_done (m := .enable) (t := beginData da s) n ia (by simpa using hm) rfl rfl rfl]
  rfl

/-- The state after enable and the load: `w` in the distributor, the cycles passed, two steps done. -/
def loadedState (da : Nat) (w : Word) (s : State) : State :=
  { afterCycles (loadWait da s + 2) (beginData da s) with dist := w, oc := 2 }

/-- Enable and the storage form of the load. -/
theorem dataLoop_load {seq : List MicroOp} {n ia da : Nat} {s : State} {w : Word} (h0 : seq[0]? = some .enable)
    (h1 : seq[1]? = some .loadStorage) (hw : memRead s da = .ok w) :
    dataLoop (n + loadWait da s + 2) seq ia (beginData da s) = dataLoop n seq ia (loadedState da w s) := by
  rw [show n + loadWait da s + 2 = n + (loadWait da s + 1) + 1 by omega, dataLoop_enable _ _ _ _ h0]
  have hd : ({ afterCycles 1 (beginData da s) with oc := 1 } : State).drumIndex < 50 := Nat.mod_lt _ (by decide)
  have ht := takes_loadStorage (a := da) (w := w) { afterCycles 1 (beginData da s) with oc := 1 } hd rfl hw
  rw [show loadWait da s + 1 = waitCycles da ({ afterCycles 1 (beginData da s) with oc := 1 } : State).drumIndex + 1
    from rfl, dataLoop_takes ht n ia h1 rfl rfl]
  congr 1
  simp only [loadedState, loadWait, tick_eq_afterCycles, afterCycles, beginData, runTimeAfter_runTimeAfter, drumIndexAfter_drumIndexAfter, State.mk.injEq, true_and, and_true]
  exact time_congr (show 1 + loadWait da s + 1 = loadWait da s + 2 by omega) _ _ _

/-- Enable and a load from outside the valid set. -/
theorem dataLoop_loadFault {seq : List MicroOp} {n ia da : Nat} {s : State} {f : Fault} (h0 : seq[0]? = some .enable)
    (h1 : seq[1]? = some .loadStorage) (hw : memRead s da = .error f) :
    dataLoop (n + loadWait da s + 2) seq ia (beginData da s) = .fault f := by
  rw [show n + loadWait da s + 2 = n + (loadWait da s + 1) + 1 by omega, dataLoop_enable _ _ _ _ h0]
  have hd : ({ afterCycles 1 (beginData da s) with oc := 1 } : State).drumIndex < 50 := Nat.mod_lt _ (by decide)
  have ht := takesFault_loadStorage (a := da) (f := f) { afterCycles 1 (beginData da s) with oc := 1 } hd rfl hw
  exact dataLoop_takesFault ht n ia h1 rfl rfl

theorem loadWait_le (da : Nat) (s : State) : loadWait da s ≤ 49 := waitCycles_le _ _

/-- A sequence that begins with enable and load faults where the load does (R82). -/
theorem dataHalfCycle_loadFault {seq : List MicroOp} {ia da : Nat} {s : State} {f : Fault}
    (h0 : seq[0]? = some .enable) (h1 : seq[1]? = some .loadStorage) (hw : memRead s da = .error f) :
    dataHalfCycle seq da ia s = .fault f := by
  have := loadWait_le da s
  obtain ⟨n, hn⟩ : ∃ n, dataCycleBound = n + loadWait da s + 2 := ⟨398 - loadWait da s, by unfold dataCycleBound; omega⟩
  rw [dataHalfCycle, hn, dataLoop_loadFault h0 h1 hw]

/-! ### Sequence 0 -/

/-- Sequence 0 (R140). -/
theorem dataHalfCycle_empty (da ia : Nat) (s : State) :
    dataHalfCycle [] da ia s = .next (completed 0 ia false 2 s) := by
  rw [dataHalfCycle, show dataCycleBound = 397 + 3 from rfl, dataLoop_lookahead _ _ (by simp) rfl rfl]
  rfl

/-- A halting STOP that does not run the lookahead (R141). -/
theorem haltingStop_halts (da ia : Nat) {s : State} (h : s.params.stopPerformsLookahead = false) :
    haltingStop da ia s = .next (halted 0 da s.params.stopHaltCycles s) := by
  rw [haltingStop, h, if_neg Bool.false_ne_true, tickN_eq_afterCycles]
  rfl

/-- A halting STOP that runs the lookahead (R141). -/
theorem haltingStop_lookahead (da ia : Nat) {s : State} (h : s.params.stopPerformsLookahead = true) :
    haltingStop da ia s = .next (completed 0 ia false 2 s) := by
  rw [haltingStop, h, if_pos rfl, dataHalfCycle_empty]

/-! ### Sequence 1 -/

/-- Sequence 1 (R164). -/
theorem dataHalfCycle_load {da ia : Nat} {s : State} {w : Word} (hw : memRead s da = .ok w) :
    dataHalfCycle [.enable, .loadStorage] da ia s =
      .next (completed 2 ia false (loadWait da s + 4) { s with dist := w }) := by
  have := loadWait_le da s
  obtain ⟨n, hn⟩ : ∃ n, dataCycleBound = n + 3 + loadWait da s + 2 := ⟨395 - loadWait da s, by unfold dataCycleBound; omega⟩
  rw [dataHalfCycle, hn, dataLoop_load rfl rfl hw, dataLoop_lookahead _ _ (by simp [loadedState]) rfl rfl]
  simp only [completed, loadedState, afterCycles, beginData, runTimeAfter_runTimeAfter, drumIndexAfter_drumIndexAfter]

/-! ### Sequences 3, 4 and 5 -/

theorem drumIndex_lt (n : Nat) : n % 50 < 50 := Nat.mod_lt _ (by decide)

/-- The step before the store: enable, or a register form of the load, done in its one call. -/
theorem dataLoop_immediate {seq : List MicroOp} {m : MicroOp} {n ia : Nat} {s t : State} (hm : seq[s.oc]? = some m)
    (hr : s.restart = false) (hs : s.restartSeen = false) (h : runMicro m s = .done t) :
    dataLoop (n + 1) seq ia s = dataLoop n seq ia { afterCycles 1 t with oc := t.oc + 1 } := by
  rw [dataLoop_done n ia hm hr hs h]
  rfl

/-- The store step, the last of its sequence, below 2000 (R163). -/
theorem dataLoop_store {seq : List MicroOp} {n ia da wait : Nat} {s : State} (hw : waitCycles da s.drumIndex = wait)
    (hm : seq[s.oc]? = some .store) (hlast : seq.length = s.oc + 1) (hr : s.restart = false) (hs : s.restartSeen = false)
    (hi : s.ic = 2) (hd : s.drumIndex < 50) (ha : s.ar = some da) (hlt : da < 2000) :
    dataLoop (n + 4 + wait) seq ia s =
      .next { afterCycles (wait + 3) s with
        drum := Memory.write s.drum da s.dist, oc := s.oc + 1, ar := some ia, halfCycle := .instruction, ic := 4 } := by
  subst hw
  rw [show n + 4 + waitCycles da s.drumIndex = n + 3 + (waitCycles da s.drumIndex + 1) by omega,
    dataLoop_takes (takes_store s hd ha hlt) (n + 3) ia hm hr hs]
  refine Eq.trans (dataLoop_lookahead n ia (by simp [hlast]) hi (hr.trans hs.symm)) ?_
  simp only [tick_eq_afterCycles, afterCycles, runTimeAfter_runTimeAfter, drumIndexAfter_drumIndexAfter]

/-- The store step, the last of its sequence, at or above 2000 (R163). -/
theorem dataLoop_storeRefused {seq : List MicroOp} {n ia da : Nat} {s : State} (hm : seq[s.oc]? = some .store)
    (hlast : seq.length = s.oc + 1) (hr : s.restart = false) (hs : s.restartSeen = false) (hi : s.ic = 2)
    (ha : s.ar = some da) (hle : 2000 ≤ da) :
    dataLoop (n + 4) seq ia s =
      .next { afterCycles 3 s with
        storageSelection := true, oc := s.oc + 1, ar := some ia, halfCycle := .instruction, ic := 4 } := by
  rw [show n + 4 = n + 3 + 1 by omega, dataLoop_takes (takes_refusedStore s ha hle) (n + 3) ia hm hr hs]
  refine Eq.trans (dataLoop_lookahead n ia (by simp [hlast]) hi (hr.trans hs.symm)) ?_
  simp only [tick_eq_afterCycles, afterCycles, runTimeAfter_runTimeAfter, drumIndexAfter_drumIndexAfter]

/-- A step that leaves `w` in the distributor and then the store: sequence 5, and sequence 3 with `w` the distributor
itself (R165, R168, R169). -/
theorem dataHalfCycle_store {m : MicroOp} {da ia : Nat} {s : State} {w : Word}
    (h : runMicro m (beginData da s) = .done { beginData da s with dist := w }) (hlt : da < 2000) :
    dataHalfCycle [m, .store] da ia s =
      .next (completed 2 ia false (storeWait da s + 4) { s with dist := w, drum := Memory.write s.drum da w }) := by
  have hle : storeWait da s ≤ 49 := waitCycles_le _ _
  obtain ⟨n, hn⟩ : ∃ n, dataCycleBound = n + 4 + storeWait da s + 1 := ⟨395 - storeWait da s, by unfold dataCycleBound; omega⟩
  rw [dataHalfCycle, hn]
  refine Eq.trans (dataLoop_immediate (m := m) rfl rfl rfl h) ?_
  refine Eq.trans (dataLoop_store rfl rfl rfl rfl rfl rfl (drumIndex_lt _) rfl hlt) ?_
  simp only [completed, storeWait, afterCycles, beginData, runTimeAfter_runTimeAfter, drumIndexAfter_drumIndexAfter, Host.Outcome.next.injEq, State.mk.injEq,
    true_and, and_true]
  exact time_congr (by omega) _ _ _

theorem dataHalfCycle_storeRefused {m : MicroOp} {da ia : Nat} {s : State} {w : Word}
    (h : runMicro m (beginData da s) = .done { beginData da s with dist := w }) (hle : 2000 ≤ da) :
    dataHalfCycle [m, .store] da ia s =
      .next (completed 2 ia false 4 { s with dist := w, storageSelection := true }) := by
  rw [dataHalfCycle, show dataCycleBound = 395 + 4 + 1 from rfl]
  refine Eq.trans (dataLoop_immediate (m := m) rfl rfl rfl h) ?_
  refine Eq.trans (dataLoop_storeRefused rfl rfl rfl rfl rfl rfl hle) ?_
  simp only [completed, afterCycles, beginData, runTimeAfter_runTimeAfter, drumIndexAfter_drumIndexAfter]

/-- Sequence 4 (R166, R167). -/
theorem dataHalfCycle_enableStore {m : MicroOp} {da ia : Nat} {s : State} {w : Word}
    (h : ∀ u : State, u.up = s.up → u.lo = s.lo → runMicro m u = .done { u with dist := w }) (hlt : da < 2000) :
    dataHalfCycle [.enable, m, .store] da ia s =
      .next (completed 3 ia false (lateStoreWait da s + 5)
        { s with dist := w, drum := Memory.write s.drum da w }) := by
  have hle : lateStoreWait da s ≤ 49 := waitCycles_le _ _
  obtain ⟨n, hn⟩ : ∃ n, dataCycleBound = n + 4 + lateStoreWait da s + 1 + 1 :=
    ⟨394 - lateStoreWait da s, by unfold dataCycleBound; omega⟩
  rw [dataHalfCycle, hn, dataLoop_enable _ _ _ _ rfl]
  refine Eq.trans (dataLoop_immediate (m := m) rfl rfl rfl (h _ rfl rfl)) ?_
  have hd : waitCycles da ((((s.drumIndex + 1) % 50) + 1) % 50) = lateStoreWait da s := by
    simp only [lateStoreWait, Config.drumPositions]
    congr 1; omega
  refine Eq.trans (dataLoop_store hd rfl rfl rfl rfl rfl (drumIndex_lt _) rfl hlt) ?_
  simp only [completed, afterCycles, beginData, runTimeAfter_runTimeAfter, drumIndexAfter_drumIndexAfter, Host.Outcome.next.injEq, State.mk.injEq, true_and,
    and_true]
  exact time_congr (by omega) _ _ _

theorem dataHalfCycle_enableStoreRefused {m : MicroOp} {da ia : Nat} {s : State} {w : Word}
    (h : ∀ u : State, u.up = s.up → u.lo = s.lo → runMicro m u = .done { u with dist := w }) (hle : 2000 ≤ da) :
    dataHalfCycle [.enable, m, .store] da ia s =
      .next (completed 3 ia false 5 { s with dist := w, storageSelection := true }) := by
  rw [dataHalfCycle, show dataCycleBound = 394 + 4 + 1 + 1 from rfl, dataLoop_enable _ _ _ _ rfl]
  refine Eq.trans (dataLoop_immediate (m := m) rfl rfl rfl (h _ rfl rfl)) ?_
  refine Eq.trans (dataLoop_storeRefused rfl rfl rfl rfl rfl rfl hle) ?_
  simp only [completed, afterCycles, beginData, runTimeAfter_runTimeAfter, drumIndexAfter_drumIndexAfter]

/-! ### Sequences 2, 6 and 7 -/

/-- Enable, load, a step that takes `k` calls, release, and the lookahead. -/
theorem dataHalfCycle_loadThen {m : MicroOp} {da ia k : Nat} {s t : State} {w : Word} (hw : memRead s da = .ok w)
    (ht : Takes m k (loadedState da w s) t) (hk : k ≤ 300) (hoc : t.oc = 2) (hic : t.ic = 2)
    (hs : t.restartSeen = false) :
    dataHalfCycle [.enable, .loadStorage, m, .release] da ia s =
      .next { afterCycles 4 t with
        ar := some ia, halfCycle := .instruction, ic := 4, oc := 4, restartSeen := t.restart } := by
  have hle := loadWait_le da s
  obtain ⟨n, hn⟩ : ∃ n, dataCycleBound = n + 3 + 1 + k + loadWait da s + 2 :=
    ⟨394 - k - loadWait da s, by unfold dataCycleBound; omega⟩
  rw [dataHalfCycle, hn, dataLoop_load rfl rfl hw, dataLoop_takes ht _ ia rfl rfl rfl]
  have hm : ([.enable, .loadStorage, m, .release] : List MicroOp)[(tick { t with oc := t.oc + 1 }).oc]? = some .release := by
    simp [hoc]
  rcases Bool.eq_false_or_eq_true t.restart with hr | hr
  · refine Eq.trans (dataLoop_recognise (m := .release) (n + 3) ia hm hr hs rfl) ?_
    refine Eq.trans (dataLoop_lookahead n ia (by simp [hoc]) hic hr) ?_
    simp only [tick_eq_afterCycles, afterCycles, runTimeAfter_runTimeAfter, drumIndexAfter_drumIndexAfter, hoc, hr]
  · refine Eq.trans (dataLoop_done (m := .release) (n + 3) ia hm hr hs rfl) ?_
    refine Eq.trans (dataLoop_lookahead n ia (by simp [hoc]) hic (hr.trans hs.symm)) ?_
    simp only [tick_eq_afterCycles, afterCycles, runTimeAfter_runTimeAfter, drumIndexAfter_drumIndexAfter, hoc, hs, hr]

/-- Enable, load, and a step that ends in a fault. -/
theorem dataHalfCycle_loadThenFault {m : MicroOp} {da ia k : Nat} {s : State} {w : Word} {f : Fault}
    (hw : memRead s da = .ok w) (ht : TakesFault m f k (loadedState da w s)) (hk : k ≤ 300) :
    dataHalfCycle [.enable, .loadStorage, m, .release] da ia s = .fault f := by
  have hle := loadWait_le da s
  obtain ⟨n, hn⟩ : ∃ n, dataCycleBound = n + k + loadWait da s + 2 :=
    ⟨398 - k - loadWait da s, by unfold dataCycleBound; omega⟩
  rw [dataHalfCycle, hn, dataLoop_load rfl rfl hw, dataLoop_takesFault ht _ ia rfl rfl rfl]

/-- Sequence 2 of an operation that adds (R184, R187, R190 to R195). -/
theorem dataHalfCycle_accumulate {form : OperandForm} {half : Half} {da ia : Nat} {s : State} {w : Word}
    (hw : memRead s da = .ok w) (hf : s.fillStarted = false) (hd : arithmeticWord w = true) (hu : s.up.valid = true)
    (hl : arithmeticWord s.lo = true) :
    dataHalfCycle (accumulateSequence .accumulate form half) da ia s =
      .next (completed 4 ia true (fillCycles da s)
        (addToAccumulator (effectiveOperand form w) half { s with dist := w })) := by
  have hok : adderOperandsOk (loadedState da w s) = true := (adderOperandsOk_iff _).mpr ⟨hd, hu, hl⟩
  have ht := takes_accumulate (kind := .accumulate) (form := form) (half := half) (s := loadedState da w s) hf
    (by rw [accumulateEffect, if_pos hok])
  rw [accumulateSequence, dataHalfCycle_loadThen hw ht (by omega) rfl rfl rfl]
  simp only [completed, fillCycles, addToAccumulator, accValue, accMag, loadedState, afterCycles, beginData, runTimeAfter_runTimeAfter, drumIndexAfter_drumIndexAfter,
    Host.Outcome.next.injEq, State.mk.injEq, true_and, and_true]
  exact time_congr (by omega) _ _ _

/-- Sequence 2 of an operation that resets and loads (R184, R187, R196 to R201). -/
theorem dataHalfCycle_reset {form : OperandForm} {half : Half} {da ia : Nat} {s : State} {w : Word}
    (hw : memRead s da = .ok w) (hf : s.fillStarted = false) (hd : arithmeticWord w = true) :
    dataHalfCycle (accumulateSequence .reset form half) da ia s =
      .next (completed 4 ia true (fillCycles da s)
        (resetLoad (effectiveOperand form w) half { s with dist := w })) := by
  have ht := takes_accumulate (kind := .reset) (form := form) (half := half) (s := loadedState da w s) hf
    (by rw [accumulateEffect, if_pos (by exact hd)])
  rw [accumulateSequence, dataHalfCycle_loadThen hw ht (by omega) (by cases half <;> rfl) (by cases half <;> rfl)
    (by cases half <;> rfl)]
  cases half <;>
  simp only [completed, fillCycles, resetLoad, loadedState, afterCycles, beginData, runTimeAfter_runTimeAfter, drumIndexAfter_drumIndexAfter,
    Host.Outcome.next.injEq, State.mk.injEq, true_and, and_true] <;>
  exact time_congr (by omega) _ _ _

/-- Operands the arithmetic is not specified on (R185). -/
theorem adderOperandsOk_eq_false {s : State}
    (h : arithmeticWord s.dist = false ∨ s.up.valid = false ∨ arithmeticWord s.lo = false) : adderOperandsOk s = false := by
  rw [← Bool.not_eq_true, adderOperandsOk_iff]
  rintro ⟨h1, h2, h3⟩
  simp_all

/-- Sequence 2 on operands the arithmetic is not specified on (R185). -/
theorem dataHalfCycle_accumulateFault {kind : AccumulateKind} {form : OperandForm} {half : Half} {da ia : Nat}
    {s : State} {w : Word} (hw : memRead s da = .ok w) (hf : s.fillStarted = false)
    (h : arithmeticWord w = false ∨ kind = .accumulate ∧ (s.up.valid = false ∨ arithmeticWord s.lo = false)) :
    dataHalfCycle (accumulateSequence kind form half) da ia s = .fault .invalidOperand := by
  refine dataHalfCycle_loadThenFault hw (takesFault_accumulate (f := .invalidOperand) hf ?_) (by omega)
  cases kind with
  | accumulate =>
    have := adderOperandsOk_eq_false (s := loadedState da w s) (h.imp id fun h => h.2)
    rw [accumulateEffect, if_neg (by rw [this]; decide)]
  | reset =>
    rcases h with h | ⟨h, -⟩
    · rw [accumulateEffect, if_neg (by show ¬ arithmeticWord w = true; rw [h]; decide)]
    · cases h

/-- MULT where the exact result fits (R216). -/
theorem dataHalfCycle_multiply {da ia : Nat} {s : State} {w : Word} (hw : memRead s da = .ok w)
    (hd : arithmeticWord w = true) (hu : s.up.valid = true) (hl : arithmeticWord s.lo = true) (hsc : s.shiftCount = 0)
    (hlc : s.loopCount = 0) (hfit : s.lo.mag * 10000000000 + s.up.mag * w.mag < 100000000000000000000) :
    dataHalfCycle [.enable, .loadStorage, .multiply, .release] da ia s =
      .next (completed 4 ia false (loadWait da s + 15 + digitSum s.up)
        { s with
          dist := w
          up := Word.ofNat (signBy s.params.multSign w.sign s.lo.sign) ((s.lo.mag * 10000000000 + s.up.mag * w.mag) / 10000000000)
          lo := Word.ofNat (lowAfter s.params.zeroSign (signBy s.params.multSign w.sign s.lo.sign)
            (signBy s.params.multSign w.sign s.lo.sign) s.lo.mag w.mag (lastDigit 10 s.up.mag))
            ((s.lo.mag * 10000000000 + s.up.mag * w.mag) % 10000000000) }) := by
  have ht := takes_multiply (s := loadedState da w s) hd hu hl hsc hlc hfit
  have hds : digitSum s.up ≤ 90 := by rw [digitSum_eq]; exact digitsSum_le 10 _ s.up.mag_lt
  rw [dataHalfCycle_loadThen hw ht (by show 10 + digitSum s.up ≤ 300; omega) rfl rfl rfl]
  simp only [completed, mulState, multiplySign, loadedState, afterCycles, beginData, runTimeAfter_runTimeAfter, drumIndexAfter_drumIndexAfter,
    Host.Outcome.next.injEq, State.mk.injEq, hsc, hlc, true_and, and_true]
  exact time_congr (by omega) _ _ _

/-- MULT where the exact result does not fit (R214, R216): what it leaves depends on the words, the sign and the flag
alone. -/
theorem dataHalfCycle_multiplyOverflow {w u l : Word} {sg : Sign} {Z : SignRule} (ov : Bool) (hd : arithmeticWord w = true) (hu : u.valid = true)
    (hl : arithmeticWord l = true) (hg : sg ≠ .dontCare) (hfit : 100000000000000000000 ≤ l.mag * 10000000000 + u.mag * w.mag) :
    ∃ A k, k ≤ 100 ∧ ∀ (da ia : Nat) (s : State), memRead s da = .ok w → s.up = u → s.lo = l → s.overflow = ov →
      signBy s.params.multSign w.sign l.sign = sg → s.params.zeroSign = Z → s.shiftCount = 0 → s.loopCount = 0 →
      dataHalfCycle [.enable, .loadStorage, .multiply, .release] da ia s =
      .next (completed 4 ia false (loadWait da s + 5 + k)
        { s with
          dist := w
          up := Word.ofNat sg (A / 10000000000)
          lo := Word.ofNat sg (A % 10000000000)
          overflow := true }) := by
  obtain ⟨k, A, hk, ht⟩ := takes_multiply_overflow (Z := Z) ov hd hu hl hg hfit
  refine ⟨A, k + 1, by omega, ?_⟩
  intro da ia s hw h1 h2 h3 h4 h5 hsc hlc
  have ht := ht (loadedState da w s) rfl h1 h2 h3 (by rw [← h4, ← h2]; rfl) h5 hsc hlc
  rw [dataHalfCycle_loadThen hw ht (by omega) rfl rfl rfl]
  simp only [completed, mulState, loadedState, afterCycles, beginData, runTimeAfter_runTimeAfter, drumIndexAfter_drumIndexAfter,
    Host.Outcome.next.injEq, State.mk.injEq, hsc, hlc, true_and, and_true]
  exact time_congr (by omega) _ _ _

/-- MULT on operands the arithmetic is not specified on (R185, R322). -/
theorem dataHalfCycle_multiplyFault {da ia : Nat} {s : State} {w : Word} (hw : memRead s da = .ok w)
    (h : arithmeticWord w = false ∨ s.up.valid = false ∨ arithmeticWord s.lo = false) :
    dataHalfCycle [.enable, .loadStorage, .multiply, .release] da ia s = .fault .invalidOperand :=
  dataHalfCycle_loadThenFault hw (takesFault_multiply (adderOperandsOk_eq_false h)) (by omega)

/-- DIV and DIVRU where the quotient fits (R226). -/
theorem dataHalfCycle_divide {r : Bool} {da ia : Nat} {s : State} {w : Word} (hw : memRead s da = .ok w)
    (hd : arithmeticWord w = true) (hu : s.up.valid = true) (hl : arithmeticWord s.lo = true) (hsc : s.shiftCount = 0)
    (hlc : s.loopCount = 0) (hlt : s.up.mag < w.mag) :
    dataHalfCycle [.enable, .loadStorage, .divide r, .release] da ia s =
      .next (completed 4 ia false (loadWait da s + 25 + digitsSum 10 (accMag s / w.mag))
        { s with
          dist := w
          lo := Word.ofNat (quotientSign w.sign s.lo.sign) (accMag s / w.mag)
          up := if r then Word.zero (quotientSign w.sign s.lo.sign) else Word.ofNat s.up.sign (accMag s % w.mag) }) := by
  have ht := takes_divide (s := loadedState da w s) r hd hu hl hsc hlc hlt
  have hq : accMag s / w.mag < 10 ^ 10 := by
    rw [Nat.div_lt_iff_lt_mul (by omega)]
    have := s.lo.mag_lt
    simp only [accMag, Config.wordBase]
    calc s.up.mag * 10000000000 + s.lo.mag < (s.up.mag + 1) * 10000000000 := by omega
      _ ≤ w.mag * 10000000000 := Nat.mul_le_mul_right _ hlt
      _ = 10 ^ 10 * w.mag := by ring
  have hds : digitsSum 10 (accMag s / w.mag) ≤ 90 := digitsSum_le 10 _ hq
  have hacc : accMag (loadedState da w s) = accMag s := rfl
  rw [hacc] at ht
  rw [dataHalfCycle_loadThen hw ht (by show 20 + digitsSum 10 (accMag s / w.mag) ≤ 300; omega) rfl rfl rfl]
  simp only [completed, divDone, divState, entrySign, loadedState, afterCycles, beginData, runTimeAfter_runTimeAfter, drumIndexAfter_drumIndexAfter,
    Host.Outcome.next.injEq, State.mk.injEq, hsc, hlc, true_and, and_true]
  exact time_congr (by omega) _ _ _

/-- The accumulator a quotient overflow leaves, with `w` the divisor (R220). -/
def overflowedQuotient (w : Word) (s : State) : State :=
  { s with
    dist := w
    lo := Word.ofNat (quotientSign w.sign s.lo.sign) (s.lo.mag * 10 % 10000000000 + 9)
    up := Word.ofNat s.up.sign (s.up.mag * 10 + s.lo.mag / 1000000000 - 9 * w.mag)
    overflow := true }

/-- DIV and DIVRU where the quotient does not fit and the machine goes on (R220). -/
theorem dataHalfCycle_divideOverflow {r : Bool} {da ia : Nat} {s : State} {w : Word} (hw : memRead s da = .ok w)
    (hd : arithmeticWord w = true) (hu : s.up.valid = true) (hl : arithmeticWord s.lo = true) (hsc : s.shiftCount = 0)
    (hlc : s.loopCount = 0) (hle : w.mag ≤ s.up.mag) (hh : s.params.quotientOverflowHalts = false) :
    dataHalfCycle [.enable, .loadStorage, .divide r, .release] da ia s =
      .next (completed 4 ia false (loadWait da s + 16) (overflowedQuotient w s)) := by
  have ht := ends_divide_overflow (s := loadedState da w s) r hd hu hl hsc hlc hle
  simp only [show (loadedState da w s).params.quotientOverflowHalts = false from hh, Bool.false_eq_true, if_false] at ht
  rw [dataHalfCycle_loadThen hw ht (by omega) rfl rfl rfl]
  simp only [completed, overflowedQuotient, divState, entrySign, loadedState, afterCycles, beginData, runTimeAfter_runTimeAfter, drumIndexAfter_drumIndexAfter, hsc, hlc]

/-- DIV and DIVRU where the quotient does not fit and QUOTIENT_OVERFLOW_HALTS ends program_start (R220). -/
theorem dataHalfCycle_divideHalts {r : Bool} {da ia : Nat} {s : State} {w : Word} (hw : memRead s da = .ok w)
    (hd : arithmeticWord w = true) (hu : s.up.valid = true) (hl : arithmeticWord s.lo = true) (hsc : s.shiftCount = 0)
    (hlc : s.loopCount = 0) (hle : w.mag ≤ s.up.mag) (hh : s.params.quotientOverflowHalts = true) :
    dataHalfCycle [.enable, .loadStorage, .divide r, .release] da ia s =
      .next (halted 2 da (loadWait da s + 13) (overflowedQuotient w s)) := by
  have ht := ends_divide_overflow (s := loadedState da w s) r hd hu hl hsc hlc hle
  simp only [show (loadedState da w s).params.quotientOverflowHalts = true from hh, if_true] at ht
  have := loadWait_le da s
  obtain ⟨n, hn⟩ : ∃ n, dataCycleBound = n + 11 + loadWait da s + 2 := ⟨387 - loadWait da s, by unfold dataCycleBound; omega⟩
  rw [dataHalfCycle, hn, dataLoop_load rfl rfl hw, dataLoop_takesHalt ht _ ia rfl rfl rfl]
  simp only [halted, tick_eq_afterCycles, overflowedQuotient, divState, entrySign, loadedState, afterCycles, beginData, runTimeAfter_runTimeAfter,
    drumIndexAfter_drumIndexAfter, hsc, hlc]

/-- DIV and DIVRU on operands the arithmetic is not specified on (R185, R322). -/
theorem dataHalfCycle_divideFault {r : Bool} {da ia : Nat} {s : State} {w : Word} (hw : memRead s da = .ok w)
    (h : arithmeticWord w = false ∨ s.up.valid = false ∨ arithmeticWord s.lo = false) :
    dataHalfCycle [.enable, .loadStorage, .divide r, .release] da ia s = .fault .invalidOperand :=
  dataHalfCycle_loadThenFault hw (takesFault_divide r (adderOperandsOk_eq_false h)) (by omega)

end Sys2Proof.Machine
end

