-- ==== Sys2Proof/Laws/Memory.lean ====
section
/-! SUPPORT. Laws of the drum: reads after writes, and that a write keeps the canonical form. -/

namespace Sys2Proof.Machine

theorem Memory.wfAbove_cons (lo a : Nat) (w : Word) (m : Memory) :
    Memory.wfAbove lo ((a, w) :: m) = true ↔
      lo ≤ a ∧ a < 2000 ∧ w ≠ unlistedCell ∧ Memory.wfAbove (a + 1) m = true := by
  simp only [Memory.wfAbove, Bool.and_eq_true, decide_eq_true_eq, Config.drumWords, and_assoc]

theorem Memory.wfAbove_mono {lo lo' : Nat} (h : lo' ≤ lo) {m : Memory} (hm : Memory.wfAbove lo m = true) :
    Memory.wfAbove lo' m = true := by
  cases m with
  | nil => rfl
  | cons p m =>
    obtain ⟨a, w⟩ := p
    rw [Memory.wfAbove_cons] at hm ⊢
    exact ⟨h.trans hm.1, hm.2⟩

/-- A cell below every listed address reads as unlisted. -/
theorem Memory.read_of_lt {lo x : Nat} {m : Memory} (hm : Memory.wfAbove lo m = true) (h : x < lo) :
    Memory.read m x = unlistedCell := by
  induction m generalizing lo with
  | nil => rfl
  | cons p m ih =>
    obtain ⟨a, w⟩ := p
    rw [Memory.wfAbove_cons] at hm
    rw [Memory.read, if_neg (by omega)]
    exact ih hm.2.2.2 (by omega)

theorem Memory.read_place {lo a x : Nat} (w : Word) {m : Memory} (hm : Memory.wfAbove lo m = true) (h : a < lo) :
    Memory.read (Memory.place a w m) x = if x = a then w else Memory.read m x := by
  rw [Memory.place]
  split
  · next hw =>
    split
    · next hx => rw [hx, hw, Memory.read_of_lt hm h]
    · rfl
  · rfl

/-- What a cell reads as after a write. -/
theorem Memory.read_write_of_wfAbove {lo a x : Nat} (w : Word) {m : Memory} (hm : Memory.wfAbove lo m = true) :
    Memory.read (Memory.write m a w) x = if x = a then w else Memory.read m x := by
  induction m generalizing lo with
  | nil => exact Memory.read_place (lo := a + 1) w rfl (by omega)
  | cons p m ih =>
    obtain ⟨b, v⟩ := p
    have hm' := hm
    rw [Memory.wfAbove_cons] at hm
    rw [Memory.write]
    split
    · next h =>
      exact Memory.read_place (lo := b) w (Memory.wfAbove_cons b b v m |>.mpr ⟨le_refl b, hm.2⟩) h
    · split
      · next h => subst h; rw [Memory.read_place w hm.2.2.2 (by omega)]; split <;> simp_all [Memory.read]
      · next h1 h2 =>
        rw [Memory.read, ih hm.2.2.2, Memory.read]
        split <;> split <;> simp_all

/-- What a cell reads as after a write to a drum in canonical form. -/
theorem Memory.read_write {a x : Nat} (w : Word) {m : Memory} (hm : Memory.wf m = true) :
    Memory.read (Memory.write m a w) x = if x = a then w else Memory.read m x :=
  Memory.read_write_of_wfAbove w hm

theorem Memory.wfAbove_place {lo a : Nat} {w : Word} {m : Memory} (hlo : lo ≤ a) (ha : a < 2000)
    (hm : Memory.wfAbove (a + 1) m = true) : Memory.wfAbove lo (Memory.place a w m) = true := by
  rw [Memory.place]
  split
  · exact Memory.wfAbove_mono (by omega) hm
  · next hw => exact (Memory.wfAbove_cons lo a w m).mpr ⟨hlo, ha, hw, hm⟩

theorem Memory.wfAbove_write {lo a : Nat} {w : Word} {m : Memory} (hlo : lo ≤ a) (ha : a < 2000)
    (hm : Memory.wfAbove lo m = true) : Memory.wfAbove lo (Memory.write m a w) = true := by
  induction m generalizing lo with
  | nil => exact Memory.wfAbove_place hlo ha rfl
  | cons p m ih =>
    obtain ⟨b, v⟩ := p
    rw [Memory.wfAbove_cons] at hm
    rw [Memory.write]
    split
    · next h => exact Memory.wfAbove_place hlo ha ((Memory.wfAbove_cons _ b v m).mpr ⟨h, hm.2⟩)
    · split
      · next h => subst h; exact Memory.wfAbove_place hlo ha hm.2.2.2
      · next h1 h2 =>
        exact (Memory.wfAbove_cons lo b v _).mpr ⟨hm.1, hm.2.1, hm.2.2.1, ih (by omega) hm.2.2.2⟩

/-- A write to a drum address keeps the canonical form. -/
theorem Memory.wf_write {a : Nat} {w : Word} {m : Memory} (ha : a < 2000) (hm : Memory.wf m = true) :
    Memory.wf (Memory.write m a w) = true :=
  Memory.wfAbove_write (Nat.zero_le a) ha hm

/-- The drum at construction is in canonical form. -/
theorem State.reset_drum_wf : Memory.wf State.reset.drum = true := rfl

/-- `MemWrite` keeps the canonical form at every address. -/
theorem memWrite_wf {s : State} (a : Nat) (w : Word) (h : Memory.wf s.drum = true) :
    Memory.wf (memWrite s a w).drum = true := by
  simp only [memWrite]
  split
  · exact h
  split
  · exact h
  split
  · exact h
  split
  · exact h
  split
  · next ha => exact Memory.wf_write ha h
  · exact h

/-- Equal contents in canonical form are equal lists. -/
theorem Memory.ext_of_wfAbove {lo : Nat} {m n : Memory} (hm : Memory.wfAbove lo m = true)
    (hn : Memory.wfAbove lo n = true) (h : ∀ x, Memory.read m x = Memory.read n x) : m = n := by
  induction m generalizing lo n with
  | nil =>
    cases n with
    | nil => rfl
    | cons q n =>
      obtain ⟨b, v⟩ := q
      rw [Memory.wfAbove_cons] at hn
      have := h b
      simp only [Memory.read, if_true] at this
      exact absurd this.symm hn.2.2.1
  | cons p m ih =>
    obtain ⟨a, w⟩ := p
    rw [Memory.wfAbove_cons] at hm
    cases n with
    | nil =>
      have := h a
      simp only [Memory.read, if_true] at this
      exact absurd this hm.2.2.1
    | cons q n =>
      obtain ⟨b, v⟩ := q
      rw [Memory.wfAbove_cons] at hn
      have ha := h a
      have hb := h b
      simp only [Memory.read, if_true] at ha hb
      rcases Nat.lt_trichotomy a b with hab | hab | hab
      · rw [if_neg (by omega), Memory.read_of_lt hn.2.2.2 (by omega)] at ha
        exact absurd ha hm.2.2.1
      · subst hab
        rw [if_pos rfl] at ha
        subst ha
        rw [ih hm.2.2.2 hn.2.2.2]
        intro x
        have hx := h x
        simp only [Memory.read] at hx
        by_cases hxa : x = a
        · subst hxa
          rw [Memory.read_of_lt hm.2.2.2 (by omega), Memory.read_of_lt hn.2.2.2 (by omega)]
        · rwa [if_neg hxa, if_neg hxa] at hx
      · rw [if_neg (by omega), Memory.read_of_lt hm.2.2.2 (by omega)] at hb
        exact absurd hb.symm hn.2.2.1

/-- A write leaves every other cell alone, in canonical form or not. -/
theorem Memory.read_write_ne {m : Memory} {a x : Nat} {w : Word} (h : x ≠ a) : Memory.read (Memory.write m a w) x = Memory.read m x := by
  have hp : ∀ n : Memory, Memory.read (Memory.place a w n) x = Memory.read n x := by
    intro n; rw [Memory.place]; split
    · rfl
    · rw [Memory.read, if_neg h]
  induction m with
  | nil => exact hp []
  | cons p m ih =>
    obtain ⟨b, v⟩ := p
    rw [Memory.write]
    split
    · exact hp _
    split
    · next h2 => rw [hp, Memory.read, if_neg (h2 ▸ h)]
    · rw [Memory.read, ih, Memory.read]

/-! ### The storage primitives -/

/-- An address outside the valid set has no word (R82). -/
theorem memRead_invalid {s : State} {a : Nat} (h : validAddress a = false) : memRead s a = .error (.invalidAddress a) := by
  simp only [validAddress, Config.drumWords, Config.storageEntryAddress, Config.upperAddress, Bool.or_eq_false_iff,
    Bool.and_eq_false_iff, decide_eq_false_iff_not] at h
  simp only [memRead, Config.storageEntryAddress, Config.distributorAddress, Config.lowerAddress, Config.upperAddress,
    Config.drumWords]
  rw [if_neg (by omega), if_neg (by omega), if_neg (by omega), if_neg (by omega), if_neg (by omega)]

/-- A read that has no word is of an address outside the valid set. -/
theorem memRead_error {s : State} {a : Nat} {f : Fault} (h : memRead s a = .error f) : f = .invalidAddress a := by
  simp only [memRead] at h
  repeat' (split at h)
  all_goals cases h
  rfl

/-- A drum address reads its cell (R75). -/
theorem memRead_drum {s : State} {a : Nat} (h : a < 2000) : memRead s a = .ok (Memory.read s.drum a) := by
  simp only [memRead, Config.storageEntryAddress, Config.distributorAddress, Config.lowerAddress, Config.upperAddress,
    Config.drumWords]
  rw [if_neg (by omega), if_neg (by omega), if_neg (by omega), if_neg (by omega), if_pos h]

/-- Everything `MemWrite` can do (R76): one of the four registers, one cell, or the storage-selection flag. -/
theorem memWrite_cases (s : State) (a : Nat) (w : Word) :
    (a = 8000 ∧ memWrite s a w = { s with se := w }) ∨ (a = 8001 ∧ memWrite s a w = { s with dist := w }) ∨
    (a = 8002 ∧ memWrite s a w = { s with lo := w }) ∨ (a = 8003 ∧ memWrite s a w = { s with up := w }) ∨
    (a < 2000 ∧ memWrite s a w = { s with drum := Memory.write s.drum a w }) ∨
    (validAddress a = false ∧ memWrite s a w = { s with storageSelection := true }) := by
  simp only [memWrite, Config.storageEntryAddress, Config.distributorAddress, Config.lowerAddress, Config.upperAddress,
    Config.drumWords]
  by_cases h0 : a = 8000
  · exact .inl ⟨h0, if_pos h0⟩
  rw [if_neg h0]
  by_cases h1 : a = 8001
  · exact .inr (.inl ⟨h1, if_pos h1⟩)
  rw [if_neg h1]
  by_cases h2 : a = 8002
  · exact .inr (.inr (.inl ⟨h2, if_pos h2⟩))
  rw [if_neg h2]
  by_cases h3 : a = 8003
  · exact .inr (.inr (.inr (.inl ⟨h3, if_pos h3⟩)))
  rw [if_neg h3]
  by_cases h4 : a < 2000
  · exact .inr (.inr (.inr (.inr (.inl ⟨h4, if_pos h4⟩))))
  rw [if_neg h4]
  refine .inr (.inr (.inr (.inr (.inr ⟨?_, rfl⟩))))
  simp only [validAddress, Config.drumWords, Config.storageEntryAddress, Config.upperAddress, Bool.or_eq_false_iff,
    Bool.and_eq_false_iff, decide_eq_false_iff_not]
  omega

end Sys2Proof.Machine
end

