-- ==== Sys2Proof/Laws/Host.lean ====
section
/-! SUPPORT. Laws of the host calls: the two resets that name an entry point, the power switch, the passing of time and transfer in closed form. -/

namespace Sys2Proof.Machine

/-- The entry address by control mode (R303). -/
theorem resetAddress_eq (m : ControlMode) : resetAddress m = if m = .manual then none else some 8000 := by cases m <;> rfl

/-- computer_reset is its three parts: the entry address forced again is what program_reset already put there (R305). -/
theorem computerReset_eq (s : State) : computerReset s = errorSenseReset (accumulatorReset (programReset s)) := by
  unfold computerReset
  have h1 : (errorSenseReset (accumulatorReset (programReset s))).controlMode = s.controlMode := rfl
  have h2 : (errorSenseReset (accumulatorReset (programReset s))).ar = resetAddress s.controlMode := rfl
  generalize errorSenseReset (accumulatorReset (programReset s)) = t at h1 h2
  simp only
  rw [← h1] at h2
  cases hm : t.controlMode <;> rw [hm] at h2 <;> obtain ⟨⟩ := t <;> simp_all [resetAddress]

/-- power_on where it acts (R281). -/
theorem powerOn_eq {s : State} (hp : s.power = false) (hm : s.masterDisabled = false) :
    powerOn s = { s with elapsed := 0, power := true, dcAutoFired := false } := by
  simp [powerOn, hp, hm]

/-- power_on where it does not (R281). -/
theorem powerOn_noop {s : State} (h : s.power = true ∨ s.masterDisabled = true) : powerOn s = s := by
  rw [powerOn, if_pos (by simpa using h)]

@[simp] theorem passSeconds_elapsed (n : Nat) (s : State) : (passSeconds n s).elapsed = s.elapsed + n := by
  unfold passSeconds; simp only; split <;> rfl

@[simp] theorem passSeconds_power (n : Nat) (s : State) : (passSeconds n s).power = s.power := by
  unfold passSeconds; simp only; split <;> rfl

/-- transfer by control mode (R233). -/
theorem transfer_eq (s : State) : transfer s = if s.controlMode = .manual then { s with ar := s.ae } else s := by
  unfold transfer; cases s.controlMode <;> rfl

end Sys2Proof.Machine
end

