-- ==== Sys2Proof/Laws/Outcome.lean ====
section
/-! SUPPORT. Everything the data half-cycle of any operation can do, said once: how it ends, what it may have changed, how long it took, and that time changes nothing but the two counters. -/

namespace Sys2Proof.Machine

/-- `s` at another time. -/
def retime (r d : Nat) (s : State) : State := { s with runTime := r, drumIndex := d }

theorem retime_self (s : State) : retime s.runTime s.drumIndex s = s := rfl

/-- `memRead` does not see the time. -/
theorem memRead_retime (r d : Nat) (s : State) (a : Nat) : memRead (retime r d s) a = memRead s a := rfl

/-- What an operation with data address `da` may have changed when it took `s` to `u`: the three data registers, the drum
cell `da`, and the two flags it can only raise. -/
structure DataEffect (da : Nat) (s u : State) : Prop where
  kept : u = { s with
    dist := u.dist, up := u.up, lo := u.lo, drum := u.drum, overflow := u.overflow, storageSelection := u.storageSelection }
  drum : u.drum = s.drum ∨ (da < 2000 ∧ u.drum = Memory.write s.drum da u.dist)
  overflow : s.overflow = true → u.overflow = true
  storageSelection : s.storageSelection = true → u.storageSelection = true

/-- Why and when a data half-cycle of the operation `op` ends program_start: a halting STOP that does not run the lookahead
(R141), or a quotient overflow where that halts (spec/43_multiply_divide.md R220). -/
def HaltsAfter (op : Operation) (s : State) (cycles : Nat) : Prop :=
  (op = .stop ∧ s.programmedMode = .stop ∧ s.params.stopPerformsLookahead = false ∧ cycles = s.params.stopHaltCycles) ∨
  ((op = .div ∨ op = .divru) ∧ s.params.quotientOverflowHalts = true ∧ 2 ≤ cycles ∧ cycles ≤ 62)

/-- The three ways a data half-cycle ends, the same at every time: in a fault of the spec's, halted, or completed, with an
effect that does not depend on the time. -/
inductive Outcomes (op : Operation) (da ia : Nat) (s : State) (F : State → Host.Outcome State Fault Refusal) : Prop where
  | fault (f : Fault) (hf : f ≠ .noCompletion) (h : ∀ r d, F (retime r d s) = .fault f)
  | halted (steps : Nat) (u : State) (hu : DataEffect da s u)
      (h : ∀ r d, ∃ cycles, HaltsAfter op s cycles ∧ F (retime r d s) = .next (halted steps da cycles (retime r d u)))
  | completed (steps : Nat) (raised : Bool) (u : State) (hu : DataEffect da s u)
      (h : ∀ r d, ∃ cycles, 2 ≤ cycles ∧ cycles ≤ 164 ∧
        F (retime r d s) = .next (completed steps ia raised cycles (retime r d u)))

theorem outcomes_loadFault {op : Operation} {seq : List MicroOp} {da ia : Nat} {s : State} {f : Fault} (h0 : seq[0]? = some .enable)
    (h1 : seq[1]? = some .loadStorage) (hw : memRead s da = .error f) :
    Outcomes op da ia s (dataHalfCycle seq da ia) :=
  .fault f (by rw [memRead_error hw]; simp) fun _ _ => dataHalfCycle_loadFault h0 h1 hw

theorem dataEffect_refl (da : Nat) (s : State) : DataEffect da s s := ⟨rfl, .inl rfl, id, id⟩

theorem outcomes_empty (op : Operation) (da ia : Nat) (s : State) : Outcomes op da ia s (dataHalfCycle [] da ia) :=
  .completed 0 false s (dataEffect_refl da s) fun r d => ⟨2, le_refl 2, by omega, dataHalfCycle_empty da ia _⟩

theorem outcomes_stop (da ia : Nat) (s : State) : Outcomes .stop da ia s (execStop da ia) := by
  have hexec : ∀ r d, execStop da ia (retime r d s) = match s.programmedMode with
      | .stop => haltingStop da ia (retime r d s)
      | .run => dataHalfCycle [] da ia (retime r d s) := fun _ _ => rfl
  cases hp : s.programmedMode with
  | stop =>
    rw [hp] at hexec
    cases hl : s.params.stopPerformsLookahead with
    | false =>
      exact .halted 0 s (dataEffect_refl da s) fun r d =>
        ⟨_, .inl ⟨rfl, hp, hl, rfl⟩, (hexec r d).trans (haltingStop_halts da ia (s := retime r d s) hl)⟩
    | true =>
      exact .completed 0 false s (dataEffect_refl da s) fun r d =>
        ⟨2, le_refl 2, by omega, (hexec r d).trans (haltingStop_lookahead da ia (s := retime r d s) hl)⟩
  | run =>
    rw [hp] at hexec
    exact .completed 0 false s (dataEffect_refl da s) fun r d =>
      ⟨2, le_refl 2, by omega, (hexec r d).trans (dataHalfCycle_empty da ia _)⟩

theorem outcomes_load (op : Operation) (da ia : Nat) (s : State) :
    Outcomes op da ia s (dataHalfCycle [.enable, .loadStorage] da ia) := by
  cases hw : memRead s da with
  | error f => exact outcomes_loadFault rfl rfl hw
  | ok w =>
    refine .completed 2 false { s with dist := w } ⟨rfl, .inl rfl, id, id⟩ fun r d => ?_
    have := loadWait_le da (retime r d s)
    exact ⟨_, by omega, by omega, dataHalfCycle_load hw⟩

theorem outcomes_store {op : Operation} {m : MicroOp} {da ia : Nat} {s : State} {w : Word}
    (h : ∀ u : State, u.dist = s.dist → u.lo = s.lo → u.params = s.params → runMicro m u = .done { u with dist := w }) :
    Outcomes op da ia s (dataHalfCycle [m, .store] da ia) := by
  by_cases hlt : da < 2000
  · refine .completed 2 false { s with dist := w, drum := Memory.write s.drum da w } ⟨rfl, .inr ⟨hlt, rfl⟩, id, id⟩
      fun r d => ?_
    have : storeWait da (retime r d s) ≤ 49 := waitCycles_le _ _
    exact ⟨_, by omega, by omega, dataHalfCycle_store (h _ rfl rfl rfl) hlt⟩
  · refine .completed 2 false { s with dist := w, storageSelection := true } ⟨rfl, .inl rfl, id, fun _ => rfl⟩ fun r d => ?_
    exact ⟨_, by omega, by omega, dataHalfCycle_storeRefused (h _ rfl rfl rfl) (Nat.le_of_not_lt hlt)⟩

theorem outcomes_enableStore {op : Operation} {m : MicroOp} {da ia : Nat} {s : State} {w : Word}
    (h : ∀ u : State, u.up = s.up → u.lo = s.lo → runMicro m u = .done { u with dist := w }) :
    Outcomes op da ia s (dataHalfCycle [.enable, m, .store] da ia) := by
  by_cases hlt : da < 2000
  · refine .completed 3 false { s with dist := w, drum := Memory.write s.drum da w } ⟨rfl, .inr ⟨hlt, rfl⟩, id, id⟩
      fun r d => ?_
    have : lateStoreWait da (retime r d s) ≤ 49 := waitCycles_le _ _
    exact ⟨_, by omega, by omega, dataHalfCycle_enableStore (fun u hu hl => h u hu hl) hlt⟩
  · refine .completed 3 false { s with dist := w, storageSelection := true } ⟨rfl, .inl rfl, id, fun _ => rfl⟩ fun r d => ?_
    exact ⟨_, by omega, by omega, dataHalfCycle_enableStoreRefused (fun u hu hl => h u hu hl) (Nat.le_of_not_lt hlt)⟩

theorem fillCycles_bounds (da : Nat) (s : State) : 2 ≤ fillCycles da s ∧ fillCycles da s ≤ 57 := by
  have := loadWait_le da s
  unfold fillCycles
  omega

theorem retime_addToAccumulator (r d : Nat) (e : Word) (half : Half) (s : State) :
    retime r d (addToAccumulator e half s) = addToAccumulator e half (retime r d s) := rfl

theorem retime_resetLoad (r d : Nat) (e : Word) (half : Half) (s : State) :
    retime r d (resetLoad e half s) = resetLoad e half (retime r d s) := by
  cases half <;> rfl

theorem outcomes_accumulate {op : Operation} {kind : AccumulateKind} {form : OperandForm} {half : Half} {da ia : Nat} {s : State}
    (hf : s.fillStarted = false) :
    Outcomes op da ia s (dataHalfCycle (accumulateSequence kind form half) da ia) := by
  cases hw : memRead s da with
  | error f => exact outcomes_loadFault rfl rfl hw
  | ok w =>
    by_cases hd : arithmeticWord w = true
    · cases kind with
      | accumulate =>
        by_cases hul : s.up.valid = true ∧ arithmeticWord s.lo = true
        · refine .completed 4 true (addToAccumulator (effectiveOperand form w) half { s with dist := w })
            ⟨rfl, .inl rfl, fun h => by simp [addToAccumulator, h], id⟩ fun r d => ?_
          have := loadWait_le da (retime r d s)
          have hc := fillCycles_bounds da (retime r d s)
          rw [retime_addToAccumulator]
          exact ⟨_, by omega, by omega, dataHalfCycle_accumulate (s := retime r d s) hw hf hd hul.1 hul.2⟩
        · refine .fault .invalidOperand (by simp) fun r d => dataHalfCycle_accumulateFault hw hf (.inr ⟨rfl, ?_⟩)
          show s.up.valid = false ∨ arithmeticWord s.lo = false
          rw [not_and_or] at hul
          simpa using hul
      | reset =>
        refine .completed 4 true (resetLoad (effectiveOperand form w) half { s with dist := w }) ?_ fun r d => ?_
        · cases half <;> exact ⟨rfl, .inl rfl, id, id⟩
        · have := loadWait_le da (retime r d s)
          have hc := fillCycles_bounds da (retime r d s)
          rw [retime_resetLoad]
          exact ⟨_, by omega, by omega, dataHalfCycle_reset (s := retime r d s) hw hf hd⟩
    · exact .fault .invalidOperand (by simp) fun r d => dataHalfCycle_accumulateFault hw hf (.inl (by simpa using hd))

theorem operands_cases {w u l : Word} (h : ¬ (arithmeticWord w = true ∧ u.valid = true ∧ arithmeticWord l = true)) :
    arithmeticWord w = false ∨ u.valid = false ∨ arithmeticWord l = false := by
  rw [not_and_or, not_and_or] at h
  simpa using h

theorem outcomes_multiply {op : Operation} {da ia : Nat} {s : State} (hsc : s.shiftCount = 0) (hlc : s.loopCount = 0) :
    Outcomes op da ia s (dataHalfCycle [.enable, .loadStorage, .multiply, .release] da ia) := by
  cases hw : memRead s da with
  | error f => exact outcomes_loadFault rfl rfl hw
  | ok w =>
    by_cases hok : arithmeticWord w = true ∧ s.up.valid = true ∧ arithmeticWord s.lo = true
    · obtain ⟨hd, hu, hl⟩ := hok
      by_cases hfit : s.lo.mag * 10000000000 + s.up.mag * w.mag < 100000000000000000000
      · refine .completed 4 false
          { s with
            dist := w
            up := Word.ofNat (signBy s.params.multSign w.sign s.lo.sign) ((s.lo.mag * 10000000000 + s.up.mag * w.mag) / 10000000000)
            lo := Word.ofNat (lowAfter s.params.zeroSign (signBy s.params.multSign w.sign s.lo.sign)
              (signBy s.params.multSign w.sign s.lo.sign) s.lo.mag w.mag (lastDigit 10 s.up.mag))
              ((s.lo.mag * 10000000000 + s.up.mag * w.mag) % 10000000000) }
          ⟨rfl, .inl rfl, id, id⟩ fun r d => ?_
        have := loadWait_le da (retime r d s)
        have hds : digitSum s.up ≤ 90 := by rw [digitSum_eq]; exact digitsSum_le 10 _ s.up.mag_lt
        have hds' : digitSum (retime r d s).up ≤ 90 := hds
        exact ⟨_, by omega, by omega, dataHalfCycle_multiply (s := retime r d s) hw hd hu hl hsc hlc hfit⟩
      · have hg := signBy_ne (r := s.params.multSign) ((arithmeticWord_iff _).mp hd).2 ((arithmeticWord_iff _).mp hl).2
        obtain ⟨A, k, hk, h⟩ := dataHalfCycle_multiplyOverflow (Z := s.params.zeroSign) s.overflow hd hu hl hg (Nat.le_of_not_lt hfit)
        refine .completed 4 false
          { s with
            dist := w
            up := Word.ofNat (signBy s.params.multSign w.sign s.lo.sign) (A / 10000000000)
            lo := Word.ofNat (signBy s.params.multSign w.sign s.lo.sign) (A % 10000000000)
            overflow := true }
          ⟨rfl, .inl rfl, fun _ => rfl, id⟩ fun r d => ?_
        have := loadWait_le da (retime r d s)
        exact ⟨_, by omega, by omega, h da ia (retime r d s) hw rfl rfl rfl rfl rfl hsc hlc⟩
    · exact .fault .invalidOperand (by simp) fun r d => dataHalfCycle_multiplyFault hw (operands_cases hok)

/-- The quotient of a dividend whose upper half is below the divisor has ten digits. -/
theorem quotient_lt {s : State} {D : Nat} (h : s.up.mag < D) : accMag s / D < 10000000000 := by
  have := s.lo.mag_lt
  rw [Nat.div_lt_iff_lt_mul (by omega)]
  simp only [accMag, Config.wordBase]
  calc s.up.mag * 10000000000 + s.lo.mag < (s.up.mag + 1) * 10000000000 := by omega
    _ ≤ D * 10000000000 := Nat.mul_le_mul_right _ h
    _ = 10000000000 * D := Nat.mul_comm _ _

theorem outcomes_divide {op : Operation} {q : Bool} {da ia : Nat} {s : State} (hop : op = .div ∨ op = .divru)
    (hsc : s.shiftCount = 0) (hlc : s.loopCount = 0) :
    Outcomes op da ia s (dataHalfCycle [.enable, .loadStorage, .divide q, .release] da ia) := by
  cases hw : memRead s da with
  | error f => exact outcomes_loadFault rfl rfl hw
  | ok w =>
    by_cases hok : arithmeticWord w = true ∧ s.up.valid = true ∧ arithmeticWord s.lo = true
    · obtain ⟨hd, hu, hl⟩ := hok
      by_cases hlt : s.up.mag < w.mag
      · refine .completed 4 false
          { s with
            dist := w
            lo := Word.ofNat (quotientSign w.sign s.lo.sign) (accMag s / w.mag)
            up := if q then Word.zero (quotientSign w.sign s.lo.sign) else Word.ofNat s.up.sign (accMag s % w.mag) }
          ⟨rfl, .inl rfl, id, id⟩ fun r d => ?_
        have := loadWait_le da (retime r d s)
        have hds : digitsSum 10 (accMag s / w.mag) ≤ 90 := digitsSum_le 10 _ (quotient_lt hlt)
        exact ⟨loadWait da (retime r d s) + 25 + digitsSum 10 (accMag s / w.mag), by omega, by omega,
          dataHalfCycle_divide (s := retime r d s) hw hd hu hl hsc hlc hlt⟩
      · have hle := Nat.le_of_not_lt hlt
        have he : DataEffect da s (overflowedQuotient w s) := ⟨rfl, .inl rfl, fun _ => rfl, id⟩
        cases hh : s.params.quotientOverflowHalts with
        | false =>
          refine .completed 4 false _ he fun r d => ?_
          have := loadWait_le da (retime r d s)
          exact ⟨_, by omega, by omega, dataHalfCycle_divideOverflow (s := retime r d s) hw hd hu hl hsc hlc hle hh⟩
        | true =>
          refine .halted 2 _ he fun r d => ?_
          have := loadWait_le da (retime r d s)
          exact ⟨_, .inr ⟨hop, hh, by omega, by omega⟩, dataHalfCycle_divideHalts (s := retime r d s) hw hd hu hl hsc hlc hle hh⟩
    · exact .fault .invalidOperand (by simp) fun r d => dataHalfCycle_divideFault hw (operands_cases hok)

/-- Everything `exec` can do from a state at rest. -/
theorem exec_outcomes {s : State} (h : AtRest s) (i : Instr) : Outcomes i.operation i.da i.ia s (exec i) := by
  obtain ⟨hf, hsc, hlc⟩ := h
  cases i with
  | noop da ia => exact outcomes_empty _ _ _ _
  | stop da ia => exact outcomes_stop _ _ _
  | ld da ia => exact outcomes_load _ _ _ _
  | std da ia => exact outcomes_store (m := .enable) (w := s.dist) fun u hu _ _ => by rw [← hu]; rfl
  | stda da ia =>
    exact outcomes_store (m := .loadDataField) (w := copyAddressField s.lo 5 s.dist s.params.stdaDest) fun u hu hl hp => by rw [← hu, ← hl, ← hp]; rfl
  | stia da ia =>
    exact outcomes_store (m := .loadInstructionField) (w := copyAddressField s.lo 1 s.dist s.params.stiaDest) fun u hu hl hp => by rw [← hu, ← hl, ← hp]; rfl
  | stl da ia => exact outcomes_enableStore (m := .loadLower) (w := s.lo) fun u _ hl => by rw [← hl]; rfl
  | stu da ia => exact outcomes_enableStore (m := .loadUpper) (w := s.up) fun u hu _ => by rw [← hu]; rfl
  | au da ia => exact outcomes_accumulate hf
  | su da ia => exact outcomes_accumulate hf
  | al da ia => exact outcomes_accumulate hf
  | sl da ia => exact outcomes_accumulate hf
  | aabl da ia => exact outcomes_accumulate hf
  | sabl da ia => exact outcomes_accumulate hf
  | rau da ia => exact outcomes_accumulate hf
  | rsu da ia => exact outcomes_accumulate hf
  | ral da ia => exact outcomes_accumulate hf
  | rsl da ia => exact outcomes_accumulate hf
  | raabl da ia => exact outcomes_accumulate hf
  | rsabl da ia => exact outcomes_accumulate hf
  | mult da ia => exact outcomes_multiply hsc hlc
  | div da ia => exact outcomes_divide (.inl rfl) hsc hlc
  | divru da ia => exact outcomes_divide (.inr rfl) hsc hlc

/-- Everything a data half-cycle that ends in a next state can have done: it halted or completed, with an effect on the
data registers, its own cell and the two flags. -/
theorem exec_cases {s t : State} {i : Instr} (hr : AtRest s) (h : exec i s = .next t) :
    ∃ steps u cycles, DataEffect i.da s u ∧
      ((HaltsAfter i.operation s cycles ∧ t = halted steps i.da cycles u) ∨
        ∃ raised, 2 ≤ cycles ∧ cycles ≤ 164 ∧ t = completed steps i.ia raised cycles u) := by
  have hu' : ∀ u, DataEffect i.da s u → retime s.runTime s.drumIndex u = u := fun u hu => by rw [hu.kept]; rfl
  cases exec_outcomes hr i with
  | fault f hf hh => rw [show exec i s = _ from hh s.runTime s.drumIndex] at h; cases h
  | halted steps u hu hh =>
    obtain ⟨c, h1, h2⟩ := hh s.runTime s.drumIndex
    rw [show exec i s = _ from h2, hu' u hu] at h; cases h
    exact ⟨steps, u, c, hu, .inl ⟨h1, rfl⟩⟩
  | completed steps raised u hu hh =>
    obtain ⟨c, h1, h2, h3⟩ := hh s.runTime s.drumIndex
    rw [show exec i s = _ from h3, hu' u hu] at h; cases h
    exact ⟨steps, u, c, hu, .inr ⟨raised, h1, h2, rfl⟩⟩

/-- No data half-cycle from a state at rest runs on without end. -/
theorem exec_complete {s : State} {i : Instr} (hr : AtRest s) : exec i s ≠ .fault .noCompletion := by
  intro h
  cases exec_outcomes hr i with
  | fault f hf hh => rw [show exec i s = _ from hh s.runTime s.drumIndex] at h; cases h; exact hf rfl
  | halted steps u hu hh =>
    obtain ⟨c, h1, h2⟩ := hh s.runTime s.drumIndex
    rw [show exec i s = _ from h2] at h; cases h
  | completed steps raised u hu hh =>
    obtain ⟨c, h1, h2, h3⟩ := hh s.runTime s.drumIndex
    rw [show exec i s = _ from h3] at h; cases h

/-- The time a data half-cycle takes: as many cycles by the counter as by the drum, two at the least but for a halting
STOP. -/
theorem exec_time {s t : State} {i : Instr} (hr : AtRest s) (h : exec i s = .next t) :
    ∃ n, (2 ≤ n ∧ n ≤ 164 ∨ n = s.params.stopHaltCycles) ∧ t.runTime = runTimeAfter s.params n s.runTime ∧
      t.drumIndex = drumIndexAfter n s.drumIndex := by
  obtain ⟨st, u, c, hu, h⟩ := exec_cases hr h
  have h1 : u.params = s.params := by rw [hu.kept]
  have h2 : u.runTime = s.runTime := by rw [hu.kept]
  have h3 : u.drumIndex = s.drumIndex := by rw [hu.kept]
  rcases h with ⟨hc, rfl⟩ | ⟨ra, hc1, hc2, rfl⟩
  · refine ⟨c, ?_, by rw [halted_runTime, h1, h2], by rw [halted_drumIndex, h3]⟩
    rcases hc with ⟨-, -, -, hc⟩ | ⟨-, -, hc1, hc2⟩
    · exact .inr hc
    · exact .inl ⟨hc1, by omega⟩
  · exact ⟨c, .inl ⟨hc1, hc2⟩, by rw [completed_runTime, h1, h2], by rw [completed_drumIndex, h3]⟩

/-! ### From any state -/

theorem haltingStop_kept {da ia : Nat} {s t : State} (h : haltingStop da ia s = .next t) : HostStateKept s t ∧ t.pr = s.pr := by
  cases hl : s.params.stopPerformsLookahead with
  | false => rw [haltingStop_halts da ia hl] at h; cases h; exact ⟨by constructor <;> rfl, rfl⟩
  | true => rw [haltingStop_lookahead da ia hl] at h; cases h; exact ⟨by constructor <;> rfl, rfl⟩

theorem haltingStop_ne_refused {da ia : Nat} {s : State} {r : Refusal} : haltingStop da ia s ≠ .refused r := by
  cases hl : s.params.stopPerformsLookahead with
  | false => rw [haltingStop_halts da ia hl]; intro h; cases h
  | true => rw [haltingStop_lookahead da ia hl]; intro h; cases h

/-- No operation, from whatever state, writes the host's state or the program register. -/
theorem exec_kept {i : Instr} {s t : State} (h : exec i s = .next t) : HostStateKept s t ∧ t.pr = s.pr := by
  cases i with
  | stop da ia =>
    simp only [exec, execStop] at h
    split at h
    · exact haltingStop_kept h
    · have := dataLoop_kept h
      exact ⟨(show HostStateKept s (beginData da s) by constructor <;> rfl).trans this.1, this.2⟩
  | _ da ia =>
    have := dataLoop_kept h
    exact ⟨(show HostStateKept s (beginData da s) by constructor <;> rfl).trans this.1, this.2⟩

/-- No operation is refused. -/
theorem exec_ne_refused {i : Instr} {s : State} {r : Refusal} : exec i s ≠ .refused r := by
  cases i with
  | stop da ia =>
    simp only [exec, execStop]
    split
    · exact haltingStop_ne_refused
    · exact dataLoop_ne_refused
  | _ da ia => exact dataLoop_ne_refused

end Sys2Proof.Machine
end

