-- ==== Sys2Proof/Laws/Step.lean ====
section
/-! SUPPORT. Laws of the step: the instruction half-cycle, the instruction that is due, and what one pass of program_start comes to. -/

namespace Sys2Proof.Machine

/-! ### The instruction half-cycle -/

theorem instructionLoop_succ (n : Nat) (s : State) :
    instructionLoop (n + 1) s =
      if s.halfCycle = .instruction ∧ s.ic < 4 then
        match instructionStep s with
        | .done t => instructionLoop n (tick { t with ic := t.ic + 1 })
        | .notYet t => instructionLoop n (tick t)
        | .halt t => .ok (tick t)
        | .fault f => .error f
      else .ok s := rfl

/-- The fetch waits for the gate and then reads the word (R125). -/
theorem instructionLoop_fetch {a : Nat} {w : Word} (n : Nat) (s : State) (hd : s.drumIndex < 50)
    (hh : s.halfCycle = .instruction) (hi : s.ic = 0) (ha : s.ar = some a) (hw : memRead s a = .ok w) :
    instructionLoop (n + waitCycles a s.drumIndex + 1) s =
      instructionLoop n { afterCycles (waitCycles a s.drumIndex + 1) s with pr := some w, ic := 1 } := by
  refine gate_induction (a := a)
    (P := fun k s => s.halfCycle = .instruction → s.ic = 0 → s.ar = some a → memRead s a = .ok w →
      instructionLoop (n + k + 1) s = instructionLoop n { afterCycles (k + 1) s with pr := some w, ic := 1 })
    ?_ ?_ s hd hh hi ha hw
  · intro s _ hg hh hi ha hw
    rw [instructionLoop_succ, if_pos ⟨hh, by omega⟩]
    simp only [instructionStep, hi, fetchStep, ha, hg, if_true, hw]
    rw [← ha]
    rfl
  · intro k s _ hg ih hh hi ha hw
    rw [show n + (k + 1) + 1 = n + k + 1 + 1 by omega, instructionLoop_succ, if_pos ⟨hh, by omega⟩]
    simp only [instructionStep, hi, fetchStep, ha, hg, Bool.false_eq_true, if_false]
    rw [ih hh hi ha hw, tick_eq_afterCycles, afterCycles_afterCycles, Nat.add_comm 1 (k + 1)]

/-- A fetch from outside the valid set (R82). -/
theorem instructionLoop_fetchFault {a : Nat} {f : Fault} (n : Nat) (s : State) (hd : s.drumIndex < 50)
    (hh : s.halfCycle = .instruction) (hi : s.ic = 0) (ha : s.ar = some a) (hw : memRead s a = .error f) :
    instructionLoop (n + waitCycles a s.drumIndex + 1) s = .error f := by
  refine gate_induction (a := a)
    (P := fun k s => s.halfCycle = .instruction → s.ic = 0 → s.ar = some a → memRead s a = .error f →
      instructionLoop (n + k + 1) s = .error f) ?_ ?_ s hd hh hi ha hw
  · intro s _ hg hh hi ha hw
    rw [instructionLoop_succ, if_pos ⟨hh, by omega⟩]
    simp only [instructionStep, hi, fetchStep, ha, hg, if_true, hw]
  · intro k s _ hg ih hh hi ha hw
    rw [show n + (k + 1) + 1 = n + k + 1 + 1 by omega, instructionLoop_succ, if_pos ⟨hh, by omega⟩]
    simp only [instructionStep, hi, fetchStep, ha, hg, Bool.false_eq_true, if_false]
    exact ih hh hi ha hw

/-- The cursor at the start of an instruction half-cycle. -/
theorem instructionHalfCycle_start {s : State} (hi : s.ic = 0 ∨ s.ic = 4) :
    instructionHalfCycle s = instructionLoop instructionCycleBound { s with ic := 0 } := by
  rw [instructionHalfCycle]
  rcases hi with hi | hi
  · rw [if_neg (by omega)]
    congr 1
    obtain ⟨⟩ := s
    simp_all
  · rw [if_pos hi]

/-- The instruction half-cycle fetches the word and splits it (R129). -/
theorem instructionHalfCycle_ok {s : State} {a : Nat} {w : Word} (hd : s.drumIndex < 50)
    (hh : s.halfCycle = .instruction) (hi : s.ic = 0 ∨ s.ic = 4) (ha : s.ar = some a) (hw : memRead s a = .ok w)
    (hv : w.valid = true) : instructionHalfCycle s = .ok (fetched a w s) := by
  have hle := waitCycles_le a s.drumIndex
  obtain ⟨n, hn⟩ : ∃ n, instructionCycleBound = n + 1 + 1 + waitCycles a s.drumIndex + 1 :=
    ⟨61 - waitCycles a s.drumIndex, by unfold instructionCycleBound; omega⟩
  rw [instructionHalfCycle_start hi, hn, instructionLoop_fetch (n + 1 + 1) { s with ic := 0 } hd hh rfl ha hw,
    instructionLoop_succ, if_pos ⟨hh, show (1 : Nat) < 4 by decide⟩]
  simp only [instructionStep, splitStep, hv, if_true]
  rw [instructionLoop_succ, if_neg (by simp)]
  simp only [fetched, tick_eq_afterCycles, afterCycles, runTimeAfter_runTimeAfter, drumIndexAfter_drumIndexAfter]

/-- A fetched word with an invalid digit has no fields (R103). -/
theorem instructionHalfCycle_invalidWord {s : State} {a : Nat} {w : Word} (hd : s.drumIndex < 50)
    (hh : s.halfCycle = .instruction) (hi : s.ic = 0 ∨ s.ic = 4) (ha : s.ar = some a) (hw : memRead s a = .ok w)
    (hv : w.valid = false) : instructionHalfCycle s = .error .invalidInstructionWord := by
  have hle := waitCycles_le a s.drumIndex
  obtain ⟨n, hn⟩ : ∃ n, instructionCycleBound = n + 1 + waitCycles a s.drumIndex + 1 :=
    ⟨62 - waitCycles a s.drumIndex, by unfold instructionCycleBound; omega⟩
  rw [instructionHalfCycle_start hi, hn, instructionLoop_fetch (n + 1) { s with ic := 0 } hd hh rfl ha hw,
    instructionLoop_succ, if_pos ⟨hh, show (1 : Nat) < 4 by decide⟩]
  simp only [instructionStep, splitStep, hv, Bool.false_eq_true, if_false]

theorem instructionHalfCycle_invalidAddress {s : State} {a : Nat} {f : Fault} (hd : s.drumIndex < 50)
    (hh : s.halfCycle = .instruction) (hi : s.ic = 0 ∨ s.ic = 4) (ha : s.ar = some a) (hw : memRead s a = .error f) :
    instructionHalfCycle s = .error f := by
  have hle := waitCycles_le a s.drumIndex
  obtain ⟨n, hn⟩ : ∃ n, instructionCycleBound = n + waitCycles a s.drumIndex + 1 :=
    ⟨63 - waitCycles a s.drumIndex, by unfold instructionCycleBound; omega⟩
  rw [instructionHalfCycle_start hi, hn]
  exact instructionLoop_fetchFault n { s with ic := 0 } hd hh rfl ha hw

theorem instructionHalfCycle_blank {s : State} (hh : s.halfCycle = .instruction) (hi : s.ic = 0 ∨ s.ic = 4)
    (ha : s.ar = none) : instructionHalfCycle s = .error .blankAddress := by
  rw [instructionHalfCycle_start hi, show instructionCycleBound = 63 + 1 from rfl, instructionLoop_succ,
    if_pos ⟨hh, show (0 : Nat) < 4 by decide⟩]
  simp only [instructionStep, fetchStep, ha]

/-! ### The instruction that is due -/

/-- Between the half-cycles of a word that decodes to `i`, `i` is due. -/
theorem dueInstruction_decode {s : State} {w : Word} {i : Instr} (h : decode s.params.opcodeMap w = .ok i) (hp : s.pr = some w)
    (ho : s.op = some w.opCode) (ha : s.ar = some w.dataAddress) : dueInstruction s = .ok i := by
  obtain ⟨hv, hc, hd, hi⟩ := decode_ok h
  have h0 : decodeFields s.params.opcodeMap w.opCode 0 0 = some (i.operation.instr 0 0) := decodeFields_eq_some.mpr ⟨_, hc, rfl⟩
  have hf : decodeFields s.params.opcodeMap w.opCode w.dataAddress w.instructionAddress = some i :=
    decodeFields_eq_some.mpr ⟨_, hc, by rw [← hd, ← hi]; exact i.encoding.1⟩
  simp only [dueInstruction, ho, ha, hp, h0, hf, hv, if_true]

/-- A code outside the map names no instruction that is due (R136). -/
theorem dueInstruction_unassigned {s : State} {c : Nat} (ho : s.op = some c) (hc : s.params.opcodeMap.operationOf c = none) :
    dueInstruction s = .error (.unassignedOperation (some c)) := by
  simp only [dueInstruction, ho, decodeFields_eq_none.mpr hc]

/-- A blank OP names no instruction that is due (R136). -/
theorem dueInstruction_blank {s : State} (ho : s.op = none) : dueInstruction s = .error (.unassignedOperation none) := by
  simp only [dueInstruction, ho]

/-- Finding the instruction that is due never fails to end. -/
theorem dueInstruction_ne_noCompletion (s : State) : dueInstruction s ≠ .error .noCompletion := by
  unfold dueInstruction
  repeat' split
  all_goals simp

/-! ### The step by control mode -/

/-- In an automatic mode a step of a ready machine is one pass of the outer loop. -/
theorem step_auto {s : State} (hr : isReady s = true) (ha : automatic s = true) : step s = automaticPass s := by
  rw [step, programStartPass, if_pos hr]
  cases hm : s.controlMode <;> first | rfl | simp [automatic, hm] at ha

/-- With a data half-cycle due, a step goes straight to it (R122). -/
theorem step_data {s : State} (hr : isReady s = true) (ha : automatic s = true) (hh : s.halfCycle = .data) : step s = dueDataHalfCycle s := by
  rw [step_auto hr ha, automaticPass, hh]

/-- In manual mode a step of a ready machine is the one-shot. -/
theorem step_manual {s : State} (hr : isReady s = true) (hm : s.controlMode = .manual) : step s = manualProgramStart s := by
  rw [step, programStartPass, if_pos hr, hm]

/-- A step of a machine that is not ready. -/
theorem step_of_not_ready {s : State} (h : ¬ isReady s = true) : step s = .refused .notReady := by
  rw [step, programStartPass, if_neg h]

/-- A pass answers where a step does. -/
theorem automaticPass_of_step {s t : State} (ha : automatic s = true) (h : step s = .next t) : isReady s = true ∧ automaticPass s = .next t := by
  by_cases hr : isReady s = true
  · rw [step_auto hr ha] at h; exact ⟨hr, h⟩
  · rw [step, programStartPass, if_neg hr] at h; cases h

theorem manualProgramStart_of_step {s t : State} (hm : s.controlMode = .manual) (h : step s = .next t) : isReady s = true ∧ manualProgramStart s = .next t := by
  rw [step, programStartPass] at h
  split at h
  · next hr => rw [hm] at h; exact ⟨hr, h⟩
  · cases h

/-! ### Everything a pass can do -/

/-- The sequencer is at rest in every state of the invariant. -/
theorem Inv.atRest {s : State} (h : Inv s) : AtRest s := ⟨h.fillStarted, h.shiftCount, h.loopCount⟩

/-- The cursor when an instruction half-cycle is due. -/
theorem cursorsAgree_instruction {s : State} (h : cursorsAgree s = true) (hh : s.halfCycle = .instruction) : s.ic = 0 ∨ s.ic = 4 := by
  simpa [cursorsAgree, hh] using h

/-- The cursor and the registers when a data half-cycle is due. -/
theorem cursorsAgree_data {s : State} (h : cursorsAgree s = true) (hh : s.halfCycle = .data) (ha : automatic s = true) :
    s.ic = 2 ∧ ∃ w, s.pr = some w ∧ w.valid = true ∧ s.op = some w.opCode ∧ s.ar = some w.dataAddress := by
  simp only [automatic, decide_eq_true_eq] at ha
  simp only [cursorsAgree, hh, Bool.and_eq_true, decide_eq_true_eq, dataDue] at h
  obtain ⟨h1, h2⟩ := h
  refine ⟨h1, ?_⟩
  cases hp : s.pr with
  | none => rw [hp] at h2; cases h2
  | some w =>
    rw [hp] at h2
    simp only [Bool.and_eq_true, Bool.or_eq_true, decide_eq_true_eq] at h2
    exact ⟨w, rfl, h2.1.1, h2.1.2, h2.2.resolve_left ha⟩

/-- The data half-cycle due between the half-cycles of a valid word, under the opcode map `m`: its instruction's, or a
fault. -/
theorem dueData_cases {w : Word} (hv : w.valid = true) (m : OpcodeMap) :
    (∃ i, decode m w = .ok i ∧ ∀ s : State, s.params.opcodeMap = m → s.pr = some w → s.op = some w.opCode →
      s.ar = some w.dataAddress → dueDataHalfCycle s = exec i s) ∨
    (∃ f, f ≠ .noCompletion ∧ ∀ s : State, s.params.opcodeMap = m → s.op = some w.opCode → dueDataHalfCycle s = .fault f) := by
  cases hc : m.operationOf w.opCode with
  | some o =>
    have hd := decode_of_operationOf hv hc
    exact .inl ⟨_, hd, fun s hm h1 h2 h3 => by rw [dueDataHalfCycle, dueInstruction_decode (by rw [hm]; exact hd) h1 h2 h3]⟩
  | none =>
    exact .inr ⟨.unassignedOperation (some w.opCode), by simp, fun s hm h => by
      rw [dueDataHalfCycle, dueInstruction_unassigned h (by rw [hm]; exact hc)]⟩

/-- Everything a pass in an automatic mode can do from a state of the invariant, the same at every time: stop by name, run the
instruction half-cycle alone, or run the data half-cycle of an instruction. -/
inductive PassOutcomes (s : State) : Prop where
  | fault (f : Fault) (hf : f ≠ .noCompletion) (h : ∀ r d, d < 50 → automaticPass (retime r d s) = .fault f)
  | fetch (a : Nat) (w : Word) (hh : s.halfCycle = .instruction) (hm : s.halfCycleMode = .halfStep) (hv : w.valid = true)
      (h : ∀ r d, d < 50 → automaticPass (retime r d s) = .next (fetched a w (retime r d s)))
  | exec (i : Instr) (w : Word) (u : State) (lag : Nat → Nat) (hi : decode s.params.opcodeMap w = .ok i) (hu : dataDueFor w u) (ic : u.ic = 2)
      (same : u = { s with pr := u.pr, op := u.op, ar := u.ar, halfCycle := u.halfCycle, ic := u.ic, runTime := u.runTime, drumIndex := u.drumIndex })
      (lag_le : ∀ d, lag d ≤ 51) (lag_fetch : s.halfCycle = .instruction → ∀ d, 2 ≤ lag d)
      (lag_due : s.halfCycle = .data → ∀ d, lag d = 0)
      (h : ∀ r d, d < 50 → automaticPass (retime r d s) = exec i (retime (runTimeAfter s.params (lag d) r) (drumIndexAfter (lag d) d) u))

/-- Everything a pass can do. -/
theorem automaticPass_outcomes {s : State} (hI : Inv s) (ha : automatic s = true) : PassOutcomes s := by
  cases hh : s.halfCycle with
  | data =>
    obtain ⟨hic, w, hp, hv, ho, har⟩ := cursorsAgree_data hI.cursors hh ha
    have hpass : ∀ r d, automaticPass (retime r d s) = dueDataHalfCycle (retime r d s) := by
      intro r d; simp only [automaticPass, retime, hh]
    rcases dueData_cases hv s.params.opcodeMap with ⟨i, hi, hr⟩ | ⟨f, hf, hr⟩
    · refine .exec i w s (fun _ => 0) hi ⟨hh, hp, ho, har⟩ hic rfl (fun _ => by omega) (fun h => by rw [hh] at h; cases h) (fun _ _ => rfl) fun r d hd => ?_
      exact (hpass r d).trans (hr (retime r d s) rfl hp ho har)
    · exact .fault f hf fun r d _ => by rw [hpass, hr (retime r d s) rfl ho]
  | instruction =>
    have hic := cursorsAgree_instruction hI.cursors hh
    have hpass : ∀ r d o, instructionHalfCycle (retime r d s) = o → automaticPass (retime r d s) = match o with
        | .error f => .fault f
        | .ok t => match t.halfCycleMode with
          | .halfStep => .next t
          | .run => dueDataHalfCycle t := by
      intro r d o ho
      subst ho
      have : (retime r d s).halfCycle = .instruction := hh
      simp only [automaticPass, this] <;> rfl
    cases har : s.ar with
    | none =>
      exact .fault .blankAddress (by simp) fun r d _ => hpass r d _ (instructionHalfCycle_blank (s := retime r d s) hh hic har)
    | some a =>
      cases hw : memRead s a with
      | error f =>
        exact .fault f (by rw [memRead_error hw]; simp) fun r d hd => hpass r d _ (instructionHalfCycle_invalidAddress (s := retime r d s) hd hh hic har hw)
      | ok w =>
        by_cases hv : w.valid = true
        · have hok : ∀ r d, d < 50 → automaticPass (retime r d s) = match (fetched a w (retime r d s)).halfCycleMode with
              | .halfStep => .next (fetched a w (retime r d s))
              | .run => dueDataHalfCycle (fetched a w (retime r d s)) := fun r d hd =>
            hpass r d _ (instructionHalfCycle_ok (s := retime r d s) hd hh hic har hw hv)
          cases hm : s.halfCycleMode with
          | halfStep =>
            refine .fetch a w hh hm hv fun r d hd => (hok r d hd).trans ?_
            have : (fetched a w (retime r d s)).halfCycleMode = .halfStep := hm
            rw [this]
          | run =>
            have hok' : ∀ r d, d < 50 → automaticPass (retime r d s) = dueDataHalfCycle (fetched a w (retime r d s)) := by
              intro r d hd
              refine (hok r d hd).trans ?_
              have : (fetched a w (retime r d s)).halfCycleMode = .run := hm
              rw [this]
            rcases dueData_cases hv s.params.opcodeMap with ⟨i, hi, hr⟩ | ⟨f, hf, hr⟩
            · refine .exec i w (fetched a w s) (fun d => waitCycles a d + 2) hi ⟨rfl, rfl, rfl, rfl⟩ rfl rfl (fun d => by have := waitCycles_le a d; omega) (fun _ d => by omega) (fun h => by rw [hh] at h; cases h) fun r d hd => ?_
              exact (hok' r d hd).trans (hr (fetched a w (retime r d s)) rfl rfl rfl rfl)
            · exact .fault f hf fun r d hd => by rw [hok' r d hd, hr (fetched a w (retime r d s)) rfl rfl]
        · exact .fault .invalidInstructionWord (by simp) fun r d hd => hpass r d _ (instructionHalfCycle_invalidWord (s := retime r d s) hd hh hic har hw (by simpa using hv))

end Sys2Proof.Machine
end

