-- ==== Sys2Proof/Tests/Slice0.lean ====
section
/-! SUPPORT. The model's own tests: decoding of words written out digit by digit, the well-formedness smoke tests, one-step tests with results from spec/95_test_vectors.md and the rules' own examples, and a witness for the hypotheses of every statement. -/

namespace Sys2Proof.Machine

/-! ### Helpers -/

/-- The word of ten decimal digits and a sign. -/
def wd (a b c d e f g h i j : Fin 10) (s : Sign) : Word :=
  ⟨.dec a, .dec b, .dec c, .dec d, .dec e, .dec f, .dec g, .dec h, .dec i, .dec j, s⟩

/-- A positive number's word. -/
def pos (n : Nat) : Word := Word.ofNat .plus n

/-- A negative number's word. -/
def neg (n : Nat) : Word := Word.ofNat .minus n

/-- A word with one digit that is not decimal. -/
def badDigit : Word := { Word.plusZero with d3 := .invalid }

/-- A ready machine in run mode, otherwise as constructed. -/
def ready : State := { State.reset with power := true, dc := true, elapsed := 180, dcAutoFired := true }

/-- A ready machine about to fetch `w` from drum cell `a`. -/
def fetching (a : Nat) (w : Word) : State := { ready with ar := some a, drum := [(a, w)] }

/-- A ready machine with the data half-cycle of `w` due. -/
def due (w : Word) : State :=
  { ready with pr := some w, op := some w.opCode, ar := some w.dataAddress, halfCycle := .data, ic := 2 }

/-- A ready machine with the given accumulator and distributor. -/
def acc (up lo dist : Word) : State := { ready with up := up, lo := lo, dist := dist }

/-- A ready machine with other parameters. -/
def withParams (p : Params) (s : State) : State := { s with params := p }

/-- A ready machine in manual mode. -/
def manual (m : DisplayMode) (ar : Option Nat) : State :=
  { ready with controlMode := .manual, displayMode := m, ar := ar, se := pos 6901000001 }

/-- The next state of an outcome. -/
def nextState : Host.Outcome State Fault Refusal → Option State
  | .next t => some t
  | .fault _ => none
  | .refused _ => none

/-- The fault of an outcome. -/
def faultOf : Host.Outcome State Fault Refusal → Option Fault
  | .next _ => none
  | .fault f => some f
  | .refused _ => none

theorem answers {o : Host.Outcome State Fault Refusal} (h : (nextState o).isSome = true) : ∃ t, o = .next t := by
  cases o with
  | next t => exact ⟨t, rfl⟩
  | fault f => cases h
  | refused r => cases h

theorem answers_with {o : Host.Outcome State Fault Refusal} {p : State → Prop} [DecidablePred p]
    (h : (nextState o).any (fun t => decide (p t)) = true) : ∃ t, o = .next t ∧ p t := by
  cases o with
  | next t => exact ⟨t, rfl, of_decide_eq_true h⟩
  | fault f => cases h
  | refused r => cases h

/-- Both halves, the flag and the time an outcome leaves. -/
def arithmeticResult (o : Host.Outcome State Fault Refusal) : Option (Word × Word × Bool × Nat) :=
  (nextState o).map fun t => (t.up, t.lo, t.overflow, t.runTime)

/-- The distributor, the cell `a`, the stored flag, the successor and the time an outcome leaves. -/
def storeResult (a : Nat) (o : Host.Outcome State Fault Refusal) : Option (Word × Word × Bool × Option Nat × Nat) :=
  (nextState o).map fun t => (t.dist, Memory.read t.drum a, t.storageSelection, t.ar, t.runTime)

/-! ### Well-formedness: each check refuses a term that breaks it -/

theorem test_wf_accepts_the_largest_addresses : (Instr.ld 9999 9999).wf = true := by decide
theorem test_wf_refuses_a_data_address_of_five_digits : (Instr.ld 10000 0).wf = false := by decide
theorem test_wf_refuses_a_next_address_of_five_digits : (Instr.stop 0 10000).wf = false := by decide
theorem test_address_check_refuses_five_digits : addressWellFormed 10000 = false := by decide
theorem test_map_check_accepts_the_default : OpcodeMap.standard.wf = true := by decide
theorem test_map_check_refuses_a_code_twice : OpcodeMap.wf [(5, .noop), (5, .stop)] = false := by decide
theorem test_map_check_refuses_an_operation_twice : OpcodeMap.wf [(5, .noop), (6, .noop)] = false := by decide
theorem test_map_check_refuses_a_code_of_three_digits : OpcodeMap.wf [(100, .noop)] = false := by decide
theorem test_params_check_accepts_the_defaults : defaultParams.wf = true := by decide
theorem test_params_check_refuses_four_digits_from_8 : Params.wf { defaultParams with stdaDest := 8 } = false ∧
    Params.wf { defaultParams with stiaDest := 0 } = false := by decide
theorem test_params_check_refuses_a_bad_map : Params.wf { defaultParams with opcodeMap := [(100, .noop)] } = false := by decide

/-! ### Decoding: every code of the table of spec/30_encoding.md, digit by digit (R101, R104) -/

theorem test_decode_noop : decode .standard (wd 0 0 1 2 3 4 9 8 7 6 .plus) = .ok (.noop 1234 9876) := by decide
theorem test_decode_stop : decode .standard (wd 0 1 2 3 4 5 9 0 9 9 .minus) = .ok (.stop 2345 9099) := by decide
theorem test_decode_au : decode .standard (wd 1 0 3 4 5 6 8 3 2 2 .dontCare) = .ok (.au 3456 8322) := by decide
theorem test_decode_su : decode .standard (wd 1 1 4 5 6 7 7 5 4 5 .plus) = .ok (.su 4567 7545) := by decide
theorem test_decode_div : decode .standard (wd 1 4 5 6 7 8 6 7 6 8 .minus) = .ok (.div 5678 6768) := by decide
theorem test_decode_al : decode .standard (wd 1 5 6 7 8 9 5 9 9 1 .dontCare) = .ok (.al 6789 5991) := by decide
theorem test_decode_sl : decode .standard (wd 1 6 7 9 0 0 5 2 1 4 .plus) = .ok (.sl 7900 5214) := by decide
theorem test_decode_aabl : decode .standard (wd 1 7 9 0 1 1 4 4 3 7 .minus) = .ok (.aabl 9011 4437) := by decide
theorem test_decode_sabl : decode .standard (wd 1 8 0 1 2 2 3 6 6 0 .dontCare) = .ok (.sabl 122 3660) := by decide
theorem test_decode_mult : decode .standard (wd 1 9 1 2 3 3 2 8 8 3 .plus) = .ok (.mult 1233 2883) := by decide
theorem test_decode_stl : decode .standard (wd 2 0 2 3 4 4 2 1 0 6 .minus) = .ok (.stl 2344 2106) := by decide
theorem test_decode_stu : decode .standard (wd 2 1 3 4 5 5 1 3 2 9 .dontCare) = .ok (.stu 3455 1329) := by decide
theorem test_decode_stda : decode .standard (wd 2 2 4 5 6 6 0 5 5 2 .plus) = .ok (.stda 4566 552) := by decide
theorem test_decode_stia : decode .standard (wd 2 3 5 6 7 7 9 7 7 5 .minus) = .ok (.stia 5677 9775) := by decide
theorem test_decode_std : decode .standard (wd 2 4 6 7 8 8 8 9 9 8 .dontCare) = .ok (.std 6788 8998) := by decide
theorem test_decode_rau : decode .standard (wd 6 0 7 8 9 9 8 2 2 1 .plus) = .ok (.rau 7899 8221) := by decide
theorem test_decode_rsu : decode .standard (wd 6 1 9 0 1 0 7 4 4 4 .minus) = .ok (.rsu 9010 7444) := by decide
theorem test_decode_divru : decode .standard (wd 6 4 0 1 2 1 6 6 6 7 .dontCare) = .ok (.divru 121 6667) := by decide
theorem test_decode_ral : decode .standard (wd 6 5 1 2 3 2 5 8 9 0 .plus) = .ok (.ral 1232 5890) := by decide
theorem test_decode_rsl : decode .standard (wd 6 6 2 3 4 3 5 1 1 3 .minus) = .ok (.rsl 2343 5113) := by decide
theorem test_decode_raabl : decode .standard (wd 6 7 3 4 5 4 4 3 3 6 .dontCare) = .ok (.raabl 3454 4336) := by decide
theorem test_decode_rsabl : decode .standard (wd 6 8 4 5 6 5 3 5 5 9 .plus) = .ok (.rsabl 4565 3559) := by decide
theorem test_decode_ld : decode .standard (wd 6 9 5 6 7 6 2 7 8 2 .minus) = .ok (.ld 5676 2782) := by decide
theorem test_decode_refuses_code_02 : decode .standard (wd 0 2 0 0 0 0 0 0 0 0 .plus) = .error (.unassignedCode 2) := by decide
theorem test_decode_refuses_code_99 : decode .standard (wd 9 9 9 9 9 9 9 9 9 9 .plus) = .error (.unassignedCode 99) := by decide
theorem test_decode_refuses_an_invalid_digit : decode .standard badDigit = .error .invalidDigit := by decide
theorem test_encode_ld : encode .standard (.ld 100 1) = some (wd 6 9 0 1 0 0 0 0 0 1 .plus) := by decide
theorem test_table_word_ld : decodeTableWord 40 0x6901000001 = some (.ld 100 1) := by decide
theorem test_table_word_with_a_letter : decodeTableWord 40 0x690A000001 = none := by decide
theorem test_fetch_word_runs_first : (nextState (step (State.reset.withFetchWord 40 0x0000000005))).map
    (fun t => (t.ar, t.runTime)) = some (some 5, 4) := by decide

/-! ### NOOP and STOP (spec/95_test_vectors.md S2, V2) -/

theorem test_noop_goes_on : (nextState (exec (.noop 0 5) ready)).map (fun t => (t.ar, t.halfCycle, t.runTime)) =
    some (some 5, .instruction, 2) := by decide
theorem test_stop_halts : (nextState (exec (.stop 0 7) ready)).map (fun t => (t.ar, t.halfCycle, t.ic, t.runTime)) =
    some (some 0, .data, 2, 2) := by decide
theorem test_stop_runs_as_noop : (nextState (exec (.stop 0 7) { ready with programmedMode := .run })).map
    (fun t => (t.ar, t.halfCycle, t.ic)) = some (some 7, .instruction, 4) := by decide

theorem test_stop_halts_after_five_cycles : (nextState (exec (.stop 0 7)
    (withParams { defaultParams with stopHaltCycles := 5 } ready))).map (fun t => (t.ar, t.halfCycle, t.runTime)) =
    some (some 0, .data, 5) := by decide
theorem test_stop_performs_the_lookahead : (nextState (exec (.stop 0 7)
    (withParams { defaultParams with stopPerformsLookahead := true } ready))).map (fun t => (t.ar, t.halfCycle, t.runTime)) =
    some (some 7, .instruction, 2) := by decide

/-! ### Another opcode map (R105) -/

/-- A map of two codes. -/
def twoCodes : OpcodeMap := [(99, .noop), (0, .ld)]

theorem test_other_map_decodes : decode twoCodes (wd 0 0 8 0 0 2 0 0 0 7 .plus) = .ok (.ld 8002 7) ∧
    decode twoCodes (wd 6 9 0 1 0 0 0 0 0 1 .plus) = .error (.unassignedCode 69) := by decide
theorem test_other_map_encodes : encode twoCodes (.ld 100 1) = some (wd 0 0 0 1 0 0 0 0 0 1 .plus) ∧
    encode twoCodes (.stop 100 1) = none := by decide
theorem test_other_map_runs : (nextState (step (withParams { defaultParams with opcodeMap := twoCodes }
    { ready with ar := some 8000, se := wd 0 0 8 0 0 2 0 0 0 7 .plus, lo := neg 5 }))).map (fun t => (t.dist, t.ar)) =
    some (neg 5, some 7) := by decide
theorem test_run_time_of_two_digits_wraps : (nextState (exec (.noop 0 5)
    (withParams { defaultParams with runTimeWidth := some 2 } { ready with runTime := 99 }))).map (fun t => t.runTime) =
    some 1 := by decide

/-! ### Load and store (V3, S1, S2): `ready` is at drum position 0 and time 0 -/

theorem test_ld_waits_for_its_position : (nextState (exec (.ld 108 61) { ready with
      drum := [(108, pos 17171)], drumIndex := 7, runTime := 7 })).map (fun t => (t.dist, t.ar, t.runTime)) =
    some (pos 17171, some 61, 11) := by decide
theorem test_ld_from_the_lower_accumulator : (nextState (exec (.ld 8002 7) (acc (pos 66) (neg 55) (pos 1)))).map
    (fun t => (t.dist, t.runTime)) = some (neg 55, 4) := by decide
theorem test_std_stores : storeResult 150 (exec (.std 150 7) (acc (pos 0) (pos 0) (neg 1234567890))) =
    some (neg 1234567890, neg 1234567890, false, some 7, 53) := by decide
theorem test_std_is_refused_at_8001 : storeResult 150 (exec (.std 8001 7) (acc (pos 0) (pos 0) (neg 1234567890))) =
    some (neg 1234567890, pos 0, true, some 7, 4) := by decide
theorem test_stl_stores_lower : storeResult 200 (exec (.stl 200 7) (acc (pos 7) (neg 42) (pos 1))) =
    some (neg 42, neg 42, false, some 7, 53) := by decide
theorem test_stu_stores_upper : storeResult 201 (exec (.stu 201 7) (acc (pos 7) (neg 42) (pos 1))) =
    some (pos 7, pos 7, false, some 7, 54) := by decide
theorem test_stda_takes_digits_8_to_5 : storeResult 300 (exec (.stda 300 7) (acc (pos 0) (pos 12345678) (pos 6900000000))) =
    some (pos 6900001234, pos 6900001234, false, some 7, 53) := by decide
theorem test_stia_takes_digits_4_to_1 : storeResult 301 (exec (.stia 301 7) (acc (pos 0) (pos 12345678) (neg 99))) =
    some (neg 5678000099, neg 5678000099, false, some 7, 4) := by decide

theorem test_stda_of_the_other_reading : storeResult 300 (exec (.stda 300 7)
    (withParams { defaultParams with stdaDest := 5 } (acc (pos 0) (pos 12345678) (pos 6999990007)))) =
    some (pos 6912340007, pos 6912340007, false, some 7, 53) := by decide
theorem test_stia_of_the_other_reading : storeResult 301 (exec (.stia 301 7)
    (withParams { defaultParams with stiaDest := 1 } (acc (pos 0) (pos 12345678) (neg 6900009999)))) =
    some (neg 6900005678, neg 6900005678, false, some 7, 4) := by decide

/-! ### Add and subtract (V4): the operand is the distributor, at 8001; from an even time the step takes seven cycles -/

theorem test_au_adds_to_upper : arithmeticResult (exec (.au 8001 7) (acc (pos 5) (pos 0) (pos 7))) =
    some (pos 12, pos 0, false, 7) := by decide
theorem test_au_overflows : arithmeticResult (exec (.au 8001 7) (acc (pos 9999999999) (pos 0) (pos 1))) =
    some (pos 0, pos 0, true, 7) := by decide
theorem test_su_flips_the_sign : arithmeticResult (exec (.su 8001 7) (acc (pos 5) (pos 0) (pos 7))) =
    some (pos 2, neg 0, false, 7) := by decide
theorem test_su_complements_lower : arithmeticResult (exec (.su 8001 7) (acc (pos 1) (pos 3) (pos 2))) =
    some (pos 0, neg 9999999997, false, 7) := by decide
theorem test_al_carries_into_upper : arithmeticResult (exec (.al 8001 7) (acc (pos 0) (pos 9999999999) (pos 1))) =
    some (pos 1, pos 0, false, 7) := by decide
theorem test_al_keeps_the_upper_sign : arithmeticResult (exec (.al 8001 7) (acc (neg 1) (pos 0) (pos 5))) =
    some (neg 1, pos 5, false, 7) := by decide
theorem test_sl_from_zero : arithmeticResult (exec (.sl 8001 7) (acc (pos 0) (pos 0) (pos 3))) =
    some (pos 0, neg 3, false, 7) := by decide
theorem test_sl_borrows_from_upper : arithmeticResult (exec (.sl 8001 7) (acc (pos 1) (pos 0) (pos 1))) =
    some (pos 0, pos 9999999999, false, 7) := by decide
theorem test_aabl_ignores_the_sign : arithmeticResult (exec (.aabl 8001 7) (acc (pos 0) (pos 10) (neg 4))) =
    some (pos 0, pos 14, false, 7) := by decide
theorem test_aabl_to_a_negative : arithmeticResult (exec (.aabl 8001 7) (acc (pos 0) (neg 10) (neg 4))) =
    some (pos 0, neg 6, false, 7) := by decide
theorem test_sabl_ignores_the_sign : arithmeticResult (exec (.sabl 8001 7) (acc (pos 0) (pos 10) (neg 4))) =
    some (pos 0, pos 6, false, 7) := by decide
theorem test_sabl_below_zero : arithmeticResult (exec (.sabl 8001 7) (acc (pos 0) (pos 3) (pos 4))) =
    some (pos 0, neg 1, false, 7) := by decide
theorem test_rau_loads : arithmeticResult (exec (.rau 8001 7) { acc (neg 77) (pos 88) (neg 25) with overflow := true }) =
    some (neg 25, neg 0, true, 7) := by decide
theorem test_rsu_loads : arithmeticResult (exec (.rsu 8001 7) { acc (neg 77) (pos 88) (neg 25) with overflow := true }) =
    some (pos 25, pos 0, true, 7) := by decide
theorem test_ral_loads : arithmeticResult (exec (.ral 8001 7) { acc (neg 77) (pos 88) (neg 25) with overflow := true }) =
    some (neg 0, neg 25, true, 7) := by decide
theorem test_rsl_loads : arithmeticResult (exec (.rsl 8001 7) { acc (neg 77) (pos 88) (neg 25) with overflow := true }) =
    some (pos 0, pos 25, true, 7) := by decide
theorem test_raabl_loads : arithmeticResult (exec (.raabl 8001 7) { acc (neg 77) (pos 88) (neg 25) with overflow := true }) =
    some (pos 0, pos 25, true, 7) := by decide
theorem test_rsabl_loads : arithmeticResult (exec (.rsabl 8001 7) { acc (neg 77) (pos 88) (neg 25) with overflow := true }) =
    some (neg 0, neg 25, true, 7) := by decide
theorem test_add_at_an_odd_time_takes_one_more : arithmeticResult (exec (.al 8002 7)
    { acc (pos 66) (neg 55) (pos 0) with runTime := 3, drumIndex := 3 }) =
    some (pos 66, neg 110, false, 11) := by decide

/-! ### Multiply and divide (V6, V7): 1 + 1 + calls + 1 + 2 cycles -/

theorem test_mult_by_34 : arithmeticResult (exec (.mult 8001 7) (acc (pos 12) (pos 0) (neg 34))) =
    some (neg 0, neg 408, false, 18) := by decide
set_option maxRecDepth 1000 in
theorem test_mult_overflows : arithmeticResult (exec (.mult 8001 7) (acc (pos 9999999999) (pos 9999999999) (pos 9999999999))) =
    some (pos 8999999998, pos 1000000000, true, 24) := by decide
theorem test_div_by_minus_7 : arithmeticResult (exec (.div 8001 7) (acc (pos 0) (pos 100) (neg 7))) =
    some (pos 2, neg 14, false, 30) := by decide
theorem test_div_by_zero : arithmeticResult (exec (.div 8001 7) (acc (pos 0) (pos 100) (pos 0))) =
    some (pos 0, pos 1009, true, 16) := by decide
theorem test_divru_zeroes_upper : arithmeticResult (exec (.divru 8001 7) (acc (pos 0) (pos 100) (neg 7))) =
    some (neg 0, neg 14, false, 30) := by decide
theorem test_divru_overflow_keeps_upper : arithmeticResult (exec (.divru 8001 7) (acc (pos 5) (pos 1234567890) (pos 3))) =
    some (pos 24, pos 2345678909, true, 16) := by decide
theorem test_mult_by_the_rule_of_signs : arithmeticResult (exec (.mult 8001 7)
    (withParams { defaultParams with multSign := productSign } (acc (pos 12) (neg 0) (neg 34)))) =
    some (pos 0, pos 408, false, 18) := by decide
/-- The example of R213: with ZERO_SIGN of minus and minus '+', the one zero sum leaves LO at +0 and UP at -0. -/
theorem test_mult_of_zeros_takes_zero_sign : arithmeticResult (exec (.mult 8001 7)
    (withParams { defaultParams with zeroSign := { keepFirstSign with minusAtMinusMinus := false } }
      (acc (pos 1) (pos 0) (neg 0)))) = some (neg 0, pos 0, false, 16) := by decide
theorem test_quotient_overflow_halts : (nextState (exec (.div 8001 7)
    (withParams { defaultParams with quotientOverflowHalts := true } (acc (pos 0) (pos 100) (pos 0))))).map
    (fun t => (t.lo, t.overflow, t.ar, t.halfCycle, t.runTime)) = some (pos 1009, true, some 8001, .data, 13) := by decide

/-! ### Faults (V2, V3) -/

theorem test_ld_outside_the_valid_set : faultOf (exec (.ld 2000 7) ready) = some (.invalidAddress 2000) := by decide
theorem test_unassigned_code_faults : faultOf (step { ready with ar := some 8000, se := pos 200000000 }) =
    some (.unassignedOperation (some 2)) := by decide
theorem test_fetch_outside_the_valid_set : faultOf (step { ready with ar := some 2000 }) =
    some (.invalidAddress 2000) := by decide
theorem test_arithmetic_on_an_invalid_digit : faultOf (exec (.al 8001 7) (acc (pos 0) (pos 0) badDigit)) =
    some .invalidOperand := by decide
theorem test_mult_and_div_on_a_lower_half_without_a_sign :
    [Instr.mult 8001 7, .div 8001 7, .divru 8001 7].map (fun i => faultOf (exec i (acc (pos 0) (Word.zero .dontCare) (pos 3)))) =
    [some .invalidOperand, some .invalidOperand, some .invalidOperand] := by decide
theorem test_unassigned_code_due_faults : faultOf (step (due (pos 200000000))) = some (.unassignedOperation (some 2)) := by decide
theorem test_not_ready_is_refused : step State.reset = .refused .notReady := rfl

/-! ### Host calls (S3 to S7, S10, V8 to V11) -/

theorem test_ready_at_180_and_not_before : isReady (passSeconds 179 (powerOn State.reset)) = false ∧
    isReady (passSeconds 1 (passSeconds 179 (powerOn State.reset))) = true := by decide
theorem test_dc_fires_once : isReady (passSeconds 500 (dcOff (passSeconds 200 (powerOn State.reset)))) = false ∧
    isReady (dcOn (passSeconds 500 (dcOff (passSeconds 200 (powerOn State.reset))))) = true := by decide
theorem test_blower_runs_on_for_300 : isBlowerOn (passSeconds 299 (powerOff (powerOn State.reset))) = true ∧
    isBlowerOn (passSeconds 300 (powerOff (powerOn State.reset))) = false := by
  constructor <;> simp [isBlowerOn, passSeconds, powerOff, powerOn, State.reset]
theorem test_power_off_restarts_the_run_on : (powerOff (passSeconds 200 (powerOff (powerOn State.reset)))).elapsed = 0 ∧
    (powerOff ready).dc = false := by decide
theorem test_blower_before_the_first_power_on :
    isBlowerOn (withParams { defaultParams with blowerBeforeFirstPowerOn := some false } State.reset) = false ∧
    isBlowerOn (withParams { defaultParams with blowerBeforeFirstPowerOn := some true } State.reset) = true := by decide
theorem test_master_power_off : isOn (powerOn (masterPowerOff (powerOn State.reset))) = false := by decide
theorem test_transfer_only_in_manual_mode :
    (transfer { ready with ar := some 8000, ae := some 1234 }).ar = some 8000 ∧
    (transfer { ready with ar := some 8000, ae := some 1234, controlMode := .manual }).ar = some 1234 := by decide
theorem test_program_reset_keeps_data : (programReset (acc (neg 2) (neg 3) (neg 1))).dist = neg 1 ∧
    (programReset { ready with controlMode := .addressStop }).ar = some 8000 ∧
    (programReset { ready with controlMode := .manual }).ar = none := by decide
theorem test_computer_reset_clears_the_flags : let s := computerReset { due (pos 6901000001) with
      overflow := true, storageSelection := true, clocking := true, errorSense := true, runTime := 77, drumIndex := 27 }
    (s.overflow = false ∧ s.storageSelection = false ∧ s.clocking = false ∧ s.errorSense = false) ∧
      s.runTime = 0 ∧ s.drumIndex = 27 ∧ s.ar = some 8000 ∧ s.ic = 0 := by decide
theorem test_error_resets : let s := errorReset { ready with overflow := true, storageSelection := true, errorSense := true }
    (s.overflow, s.storageSelection, s.errorSense) = (true, false, true) ∧ (errorSenseReset s).errorSense = false := by decide
theorem test_storage_selection_query :
    [none, some 0, some 1999, some 2000, some 7999, some 8000, some 8003, some 8004, some 9999].map
      (fun a => storageSelectionError { ready with ar := a }) =
    [false, false, false, true, true, false, false, true, true] := by decide
theorem test_validity_query : [Word.plusZero, badDigit].map (fun w => validityError { ready with lo := w }) = [false, true] ∧
    validityError { ready with pr := some badDigit } = true ∧ validityError { ready with se := badDigit } = false := by decide
theorem test_manual_read_in : (nextState (step (manual .readInStorage (some 8003)))).map (fun t => (t.dist, t.up, t.runTime)) =
    some (pos 6901000001, pos 6901000001, 0) := by decide
theorem test_manual_read_out : (nextState (step { manual .readOutStorage (some 100) with drum := [(100, pos 17171)] })).map
    (fun t => (t.dist, display t)) = some (pos 17171, .word (pos 17171)) := by decide
theorem test_manual_other_modes_load_the_distributor :
    (nextState (step (manual .lowerAccumulator none))).map (fun t => (t.dist, display t)) =
    some (pos 6901000001, .word (pos 0)) := by decide
theorem test_leaving_manual_mid_instruction :
    let s := setControlMode .run (setControlMode .manual (due (pos 6901080061)))
    (s.halfCycle, s.op, s.ar, s.ic, s.pr) = (.instruction, none, none, 0, some (pos 6901080061)) := by decide
theorem test_display_of_the_program_register :
    display { due (pos 100000000) with displayMode := .programRegister } = .word (wd 0 1 0 0 0 0 0 0 0 0 .dontCare) := by decide
theorem test_gate : gate ready 1950 = true ∧ gate ready 49 = false ∧ gate { ready with drumIndex := 49 } 49 = true ∧
    gate ready 8002 = true ∧ gate ready 9999 = true := by decide
theorem test_write_primitive_at_2000_and_8004 : (memWrite ready 2000 (pos 1)).storageSelection = true ∧
    (memWrite ready 8004 (pos 1)).storageSelection = true ∧ (memWrite ready 8002 (pos 1)).lo = pos 1 := by decide
theorem test_write_of_what_is_unlisted_removes_the_entry : Memory.write [(5, pos 1)] 5 (pos 0) = [] := by decide
theorem test_launch_runs_the_storage_entry_word : (nextState (step State.launch)).map (fun t => (t.ar, t.runTime)) =
    some (some 0, 4) := by decide
theorem test_program_start_returns_after_a_halting_stop :
    ((programStart 2 { ready with ar := some 8000, se := pos 100000000 }).bind nextState).map (fun t => t.runTime) =
    some 4 := by decide

/-! ### Witnesses: concrete states and operands that meet the hypotheses of each statement -/

/-- A LD of drum cell 1999 and the NOOP and STD the witnesses fetch. -/
def ldWord : Word := wd 6 9 1 9 9 9 0 0 0 7 .plus

def stdWord : Word := wd 2 4 1 9 9 9 0 0 0 7 .minus

def stopWord : Word := wd 0 1 9 9 9 9 0 0 0 7 .plus

theorem ready_inv : Inv ready := by constructor <;> decide

theorem due_inv : Inv (due ldWord) := by constructor <;> decide

theorem ready_atRest : AtRest ready := by constructor <;> decide

/-- DecodeEncodeAgree: the default map and another. -/
theorem test_witness_well_formed : (Instr.rsabl 9999 9999).wf = true ∧ (encode .standard (.rsabl 9999 9999)).isSome = true ∧
    twoCodes.wf = true ∧ (encode twoCodes (.ld 9999 9999)).isSome = true := by decide
/-- EncodeDecodeAgree, OnlyTheTableDecodes (its three clauses). -/
theorem test_witness_decodes : OpcodeMap.standard.wf = true ∧ decode .standard ldWord = .ok (.ld 1999 7) := by decide
theorem test_witness_invalid_word : badDigit.valid = false := by decide
theorem test_witness_unassigned_code : (wd 0 2 0 0 0 0 0 0 0 0 .plus).valid = true ∧
    (wd 0 2 0 0 0 0 0 0 0 0 .plus).opCode ∉ OpcodeMap.standard.map Prod.fst := by decide
/-- ReadsFollowTheAddressMap: each clause at the bounds of its range, none of which overlap. -/
theorem test_witness_address_map : memRead { ready with se := pos 1, dist := pos 2, lo := pos 3, up := pos 4 } 8000 = .ok (pos 1) ∧
    memRead { ready with dist := pos 2 } 8001 = .ok (pos 2) ∧ memRead { ready with lo := pos 3 } 8002 = .ok (pos 3) ∧
    memRead { ready with up := pos 4 } 8003 = .ok (pos 4) ∧ memRead { ready with drum := [(0, pos 5)] } 0 = .ok (pos 5) ∧
    memRead { ready with drum := [(1999, pos 6)] } 1999 = .ok (pos 6) ∧
    [2000, 7999, 8004, 9999].map (memRead ready) =
      [.error (.invalidAddress 2000), .error (.invalidAddress 7999), .error (.invalidAddress 8004),
        .error (.invalidAddress 9999)] := ⟨rfl, rfl, rfl, rfl, rfl, rfl, rfl⟩
/-- GateOpensAfterItsWait: the longest wait and the last closed cycle. -/
theorem test_witness_longest_wait : ready.drumIndex < 50 ∧ waitCycles 1999 0 = 49 ∧ 48 < waitCycles 1999 0 ∧
    waitCycles 8000 49 = 0 := by decide
/-- StepRunsFetchedInstruction. -/
theorem test_witness_fetch : isReady (fetching 1999 ldWord) = true ∧ automatic (fetching 1999 ldWord) = true ∧
    (fetching 1999 ldWord).halfCycleMode = .run ∧ instructionDue (fetching 1999 ldWord) ∧
    (fetching 1999 ldWord).drumIndex < 50 ∧ (fetching 1999 ldWord).ar = some 1999 ∧
    memRead (fetching 1999 ldWord) 1999 = .ok ldWord ∧
    decode (fetching 1999 ldWord).params.opcodeMap ldWord = .ok (.ld 1999 7) :=
  ⟨rfl, rfl, rfl, ⟨rfl, .inl rfl⟩, by decide, rfl, rfl, by decide⟩
/-- StepRunsDueInstruction. -/
theorem test_witness_due : isReady (due ldWord) = true ∧ automatic (due ldWord) = true ∧ dataDueFor ldWord (due ldWord) ∧
    decode (due ldWord).params.opcodeMap ldWord = .ok (.ld 1999 7) := ⟨rfl, rfl, ⟨rfl, rfl, rfl, rfl⟩, by decide⟩
/-- HalfStepReturnsAfterEachHalfCycle, both clauses. -/
theorem test_witness_half_step_fetch : let s := { fetching 1999 ldWord with halfCycleMode := .halfStep }
    isReady s = true ∧ automatic s = true ∧ s.halfCycleMode = .halfStep ∧ instructionDue s ∧ s.drumIndex < 50 ∧
    s.ar = some 1999 ∧ memRead s 1999 = .ok ldWord ∧ ldWord.valid = true :=
  ⟨rfl, rfl, rfl, ⟨rfl, .inl rfl⟩, by decide, rfl, rfl, rfl⟩
theorem test_witness_half_step_data : let s := { due ldWord with halfCycleMode := .halfStep }
    isReady s = true ∧ automatic s = true ∧ s.halfCycleMode = .halfStep ∧ AtRest s ∧ dataDueFor ldWord s ∧
    decode s.params.opcodeMap ldWord = .ok (.ld 1999 7) ∧
    ((Instr.ld 1999 7).operation = .stop → s.programmedMode = .run ∨ s.params.stopPerformsLookahead = true) ∧
    (operationKind (.ld 1999 7) = .divide → s.params.quotientOverflowHalts = false) ∧ ∃ t, step s = .next t := by
  exact ⟨rfl, rfl, rfl, ⟨rfl, rfl, rfl⟩, ⟨rfl, rfl, rfl, rfl⟩, by decide, (by decide), (by decide), answers (by decide)⟩
/-- FetchAndDecodeFaults, the six clauses. -/
theorem test_witness_fetch_faults :
    (isReady ready = true ∧ automatic ready = true ∧ ready.drumIndex < 50 ∧ instructionDue ready ∧ ready.ar = none) ∧
    (validAddress 2000 = false ∧ validAddress 7999 = false ∧ validAddress 8004 = false ∧ validAddress 9999 = false) ∧
    (memRead (fetching 0 badDigit) 0 = .ok badDigit ∧ badDigit.valid = false) ∧
    (memRead (fetching 0 (pos 200000000)) 0 = .ok (pos 200000000) ∧ (pos 200000000).valid = true ∧
      decode (fetching 0 (pos 200000000)).params.opcodeMap (pos 200000000) =
        .error (.unassignedCode (pos 200000000).opCode)) ∧
    ((due (pos 200000000)).halfCycle = .data ∧ (due (pos 200000000)).op = some 2 ∧
      2 ∉ (due (pos 200000000)).params.opcodeMap.map Prod.fst) ∧
    ({ ready with halfCycle := .data } : State).op = none :=
  ⟨⟨rfl, rfl, by decide, ⟨rfl, .inl rfl⟩, rfl⟩, by decide, ⟨rfl, rfl⟩, ⟨rfl, rfl, by decide⟩, ⟨rfl, rfl, by decide⟩, rfl⟩
/-- StopHalts (both clauses), StopContinuesAsNoop, HaltedStopHaltsAgainOrResumes. -/
theorem test_witness_programmed_modes : ready.programmedMode = .stop ∧ ready.params.stopPerformsLookahead = false ∧
    (withParams { defaultParams with stopPerformsLookahead := true } ready).params.stopPerformsLookahead = true ∧
    ({ ready with programmedMode := .run } : State).programmedMode = .run := by decide
theorem test_witness_halted_stop : isReady (due stopWord) = true ∧ automatic (due stopWord) = true ∧
    dataDueFor stopWord (due stopWord) ∧ decode (due stopWord).params.opcodeMap stopWord = .ok (.stop 9999 7) ∧
    (due stopWord).programmedMode = .stop ∧ (due stopWord).params.stopPerformsLookahead = false ∧
    (due stopWord).params.stopHaltCycles = 2 ∧ (due stopWord).params.runTimeWidth = none ∧
    ∃ t, step (due stopWord) = .next t := by
  exact ⟨rfl, rfl, ⟨rfl, rfl, rfl, rfl⟩, by decide, rfl, rfl, rfl, rfl, answers (by decide)⟩
/-- LoadDistributorCompletes and the other statements about a word at a data address: the bounds of the ranges. -/
theorem test_witness_operand_read : memRead ready 0 = .ok (pos 0) ∧ memRead ready 1999 = .ok (pos 0) ∧
    memRead ready 8000 = .ok (pos 0) ∧ memRead ready 8003 = .ok (pos 0) ∧ validAddress 2000 = false ∧
    validAddress 8004 = false := ⟨rfl, rfl, rfl, rfl, rfl, rfl⟩
/-- The stores' two clauses: 1999 is the last address stored to, 2000 the first refused. -/
theorem test_witness_store_ranges : storeAddress (.std 1999 0) = some 1999 ∧ storeAddress (.std 2000 0) = none ∧
    storeAddress (.ld 1999 0) = none := by decide
/-- StoreAddressFieldsComplete: both readings of the two destinations. -/
theorem test_witness_destinations : ready.params.stdaDest = 1 ∧ ready.params.stiaDest = 7 ∧
    (withParams { defaultParams with stdaDest := 5, stiaDest := 1 } ready).params.stdaDest = 5 ∧
    (withParams { defaultParams with stdaDest := 5, stiaDest := 1 } ready).params.stiaDest = 1 := by decide
/-- StoredWordLoadsBack. -/
theorem test_witness_round_trip : Memory.wf ready.drum = true ∧ 1999 < 2000 := by decide
/-- StoreOverOwnCellKeepsSuccessor. -/
theorem test_witness_own_cell : let s := fetching 1999 stdWord
    isReady s = true ∧ automatic s = true ∧ s.halfCycleMode = .run ∧ instructionDue s ∧ s.drumIndex < 50 ∧
    Memory.wf s.drum = true ∧ s.ar = some 1999 ∧ memRead s 1999 = .ok stdWord ∧ decode s.params.opcodeMap stdWord = .ok (.std 1999 7) :=
  ⟨rfl, rfl, rfl, ⟨rfl, .inl rfl⟩, by decide, rfl, rfl, rfl, by decide⟩
/-- AddAndSubtractComplete, ResetAndLoadComplete, AdderLaws: a sum that fits, and one of 10^20. -/
theorem test_witness_addition : let s := acc (pos 9999999999) (pos 9999999999) (pos 1)
    s.fillStarted = false ∧ memRead s 8001 = .ok (pos 1) ∧ arithmeticWord (pos 1) = true ∧ s.up.valid = true ∧
    arithmeticWord s.lo = true ∧ 10 ^ 20 ≤ (accValue s + operandValue (pos 1) .lower).natAbs ∧
    (accValue s + operandValue (neg 1) .lower).natAbs < 10 ^ 20 ∧ 0 ≤ accValue s ∧
    0 ≤ accValue s + operandValue (neg 1) .upper := by
  refine ⟨rfl, rfl, rfl, rfl, rfl, ?_, ?_, ?_, ?_⟩ <;> decide
/-- ArithmeticOperandFaults, the two clauses, each with an operand and with a half that has no value. -/
theorem test_witness_bad_operands : AtRest ready ∧ memRead { ready with dist := badDigit } (Instr.al 8001 0).da = .ok badDigit ∧
    operationKind (.al 8001 0) = .accumulate ∧ operationKind (.rau 8001 0) = .reset ∧
    operationKind (.mult 8001 0) = .multiply ∧ operationKind (.divru 8001 0) = .divide ∧ arithmeticWord badDigit = false ∧
    arithmeticWord (Word.zero .dontCare) = false ∧ badDigit.valid = false :=
  ⟨ready_atRest, rfl, rfl, rfl, rfl, rfl, rfl, rfl, rfl⟩
/-- LoadOutsideValidSetFaults. -/
theorem test_witness_load_outside : operationKind (.divru 2000 0) ≠ .control ∧ operationKind (.divru 2000 0) ≠ .store ∧
    validAddress (Instr.divru 2000 0).da = false := by decide
/-- MultiplyIsExact: the largest product of V6. -/
theorem test_witness_multiply : let s := acc (pos 9999999999) (pos 0) (pos 9999999999)
    AtRest s ∧ memRead s 8001 = .ok s.dist ∧ arithmeticWord s.dist = true ∧ s.up.valid = true ∧ arithmeticWord s.lo = true ∧
    s.up.mag * s.dist.mag + s.lo.mag * 10 ^ 10 < 10 ^ 20 := by
  refine ⟨⟨rfl, rfl, rfl⟩, rfl, rfl, rfl, rfl, ?_⟩
  decide
/-- MultiplyIsExact, MultiplyOverflowIsFlagged, QuotientOverflowEndsTheDivision: the parameters of their clauses. -/
theorem test_witness_arithmetic_parameters : ready.params.multSign = keepFirstSign ∧
    (withParams { defaultParams with multSign := productSign } ready).params.multSign = productSign ∧
    ready.params.zeroSign = keepFirstSign ∧ ready.params.quotientOverflowHalts = false ∧
    (withParams { defaultParams with quotientOverflowHalts := true } ready).params.quotientOverflowHalts = true := by decide
/-- MultiplyOverflowIsFlagged: the overflow row of V6. -/
theorem test_witness_multiply_overflow : let s := acc (pos 9999999999) (pos 9999999999) (pos 9999999999)
    AtRest s ∧ memRead s 8001 = .ok s.dist ∧ arithmeticWord s.dist = true ∧ s.up.valid = true ∧ arithmeticWord s.lo = true ∧
    10 ^ 20 ≤ s.up.mag * s.dist.mag + s.lo.mag * 10 ^ 10 := by
  refine ⟨⟨rfl, rfl, rfl⟩, rfl, rfl, rfl, rfl, ?_⟩
  decide
/-- DivideIsExact: magnitudes one apart. -/
theorem test_witness_divide : let s := acc (pos 9999999998) (pos 0) (pos 9999999999)
    AtRest s ∧ memRead s 8001 = .ok s.dist ∧ arithmeticWord s.dist = true ∧ s.up.valid = true ∧ arithmeticWord s.lo = true ∧
    s.up.mag < s.dist.mag := by
  refine ⟨⟨rfl, rfl, rfl⟩, rfl, rfl, rfl, rfl, ?_⟩
  decide
/-- QuotientOverflowEndsTheDivision: equal magnitudes. -/
theorem test_witness_quotient_overflow : let s := acc (pos 7) (pos 0) (pos 7)
    AtRest s ∧ memRead s 8001 = .ok s.dist ∧ arithmeticWord s.dist = true ∧ s.up.valid = true ∧ arithmeticWord s.lo = true ∧
    s.dist.mag ≤ s.up.mag := by
  refine ⟨⟨rfl, rfl, rfl⟩, rfl, rfl, rfl, rfl, ?_⟩
  decide
/-- ControlAndLoadFrame. -/
theorem test_witness_control_frame : operationKind (.noop 0 5) = .control ∧ operationKind (.ld 8002 5) = .load ∧
    AtRest ready ∧ (∃ t, exec (.noop 0 5) ready = .next t) ∧ ∃ t, exec (.ld 8002 5) ready = .next t :=
  ⟨rfl, rfl, ready_atRest, answers (by decide), answers (by decide)⟩
/-- StoreFrame: a store that is made and one that is refused. -/
theorem test_witness_store_frame : operationKind (.std 1999 5) = .store ∧ AtRest ready ∧ Memory.wf ready.drum = true ∧
    (∃ t, exec (.std 1999 5) ready = .next t) ∧ ∃ t, exec (.std 2000 5) ready = .next t :=
  ⟨rfl, ready_atRest, rfl, answers (by decide), answers (by decide)⟩
/-- ArithmeticFrame, one of each kind. -/
theorem test_witness_arithmetic_frame : (∃ t, exec (.al 8001 5) ready = .next t) ∧ (∃ t, exec (.rau 8001 5) ready = .next t) ∧
    (∃ t, exec (.mult 8001 5) ready = .next t) ∧ ∃ t, exec (.div 8001 5) ready = .next t :=
  ⟨answers (by decide), answers (by decide), answers (by decide), answers (by decide)⟩
/-- UpperSignWriters: RAU of a negative word changes the sign of UP. -/
theorem test_witness_upper_sign : AtRest (acc (pos 0) (pos 0) (neg 1)) ∧
    ∃ t, exec (.rau 8001 5) (acc (pos 0) (pos 0) (neg 1)) = .next t ∧ t.up.sign ≠ (acc (pos 0) (pos 0) (neg 1)).up.sign :=
  ⟨⟨rfl, rfl, rfl⟩, answers_with (by decide)⟩
/-- FlagsRiseOnlyByTheirOperations: each flag raised. -/
theorem test_witness_flags_rise :
    (∃ t, exec (.div 8001 5) ready = .next t ∧ t.overflow ≠ ready.overflow) ∧
    ∃ t, exec (.std 2000 5) ready = .next t ∧ t.storageSelection ≠ ready.storageSelection :=
  ⟨answers_with (by decide), answers_with (by decide)⟩
/-- ReservedFlags, StepLeavesHostStateAlone, StepKeepsInvariant, EveryStepEndsInTime, TimingNeverChangesResults: a state of
the invariant whose step answers a next state, and the same state at another time. -/
theorem test_witness_invariant_step : Inv (due ldWord) ∧ automatic (due ldWord) = true ∧ ∃ t, step (due ldWord) = .next t := by
  exact ⟨due_inv, rfl, answers (by decide)⟩
/-- EveryStepEndsInTime: the parameters of its clauses. -/
theorem test_witness_time_parameters : ready.params.runTimeWidth = none ∧ ready.params.stopHaltCycles = 2 ∧
    (fetching 1999 ldWord).halfCycle = .instruction ∧ (fetching 1999 ldWord).halfCycleMode = .run := by decide
theorem test_witness_two_times : Inv ready ∧ Inv { ready with runTime := 3, drumIndex := 49 } ∧
    sameButTime ready { ready with runTime := 3, drumIndex := 49 } :=
  ⟨ready_inv, by constructor <;> decide, rfl⟩
/-- ReservedFlags: each clause about a host call. -/
theorem test_witness_reserved_flags : (hostCall (.bypassClocking true) ready).map (fun t => t.clocking) = some true ∧
    (hostCall (.bypassErrorSense true) ready).map (fun t => t.errorSense) = some true ∧
    (hostCall .errorReset { ready with clocking := true }).map (fun t => t.clocking) = some false ∧
    (hostCall .errorSenseReset { ready with errorSense := true }).map (fun t => t.errorSense) = some false := by decide
/-- HostCallsKeepInvariant, SettersStoreTheirValue: calls at the bounds of their domains. -/
theorem test_witness_host_calls : (hostCall (.setAddressEntry 9999) ready).isSome = true ∧
    (hostCall (.setAddressEntry 10000) ready).isSome = false ∧ (hostCall (.bypassDrum 1999 (pos 1)) ready).isSome = true ∧
    (hostCall (.bypassDrum 2000 (pos 1)) ready).isSome = false ∧ Memory.wf ready.drum = true ∧
    (hostCall (.bypassDrumIndex 49) ready).map (fun t => t.drumIndex) = some 49 ∧
    (hostCall (.bypassDrumIndex 50) ready).isSome = false := by decide
/-- WhatNoResetChanges. -/
theorem test_witness_resets : (hostCall .computerReset ready).isSome = true ∧ HostCall.computerReset ∈
    [HostCall.programReset, .accumulatorReset, .errorReset, .errorSenseReset, .computerReset] := by decide
/-- ResetEntersAtStorageEntry, both clauses. -/
theorem test_witness_entry : automatic ready = true ∧ isReady ready = true ∧ ready.halfCycleMode = .run ∧
    ready.drumIndex < 50 ∧ decode ready.params.opcodeMap ready.se = .ok (.noop 0 0) ∧ ready.params.runTimeWidth = none ∧ automatic (manual .distributor none) = false ∧
    ({ manual .distributor none with ae := some 9999 } : State).ae = some 9999 := by decide
/-- ReadyAfterTheDelay, PowerOnRule: a machine that is off and may be turned on, one that is on, one that may not. -/
theorem test_witness_power : Inv State.reset ∧ State.reset.power = false ∧ State.reset.masterDisabled = false ∧
    ready.power = true ∧ (masterPowerOff ready).masterDisabled = true :=
  ⟨by constructor <;> decide, rfl, rfl, rfl, rfl⟩
/-- DcSwitchRules: at 180 seconds, and one second before. -/
theorem test_witness_dc : ready.power = true ∧ 180 ≤ ready.elapsed ∧
    ({ ready with elapsed := 179 } : State).elapsed < 180 := by decide
/-- BlowerRunsOn: a machine that was powered once, and one with the parameter given. -/
theorem test_witness_blower : (powerOff ready).poweredOffOnce = true ∧ (powerOff ready).masterDisabled = false ∧
    (withParams { defaultParams with blowerBeforeFirstPowerOn := some true } State.reset).params.blowerBeforeFirstPowerOn = some true ∧
    State.reset.power = false ∧ State.reset.poweredOffOnce = false ∧ State.reset.masterDisabled = false := by decide
/-- MasterPowerOffIsPermanent: host calls that all answer. -/
theorem test_witness_master_off : ([HostCall.powerOn, .passSeconds 180, .dcOn].foldlM (fun u c => hostCall c u)
    (masterPowerOff ready)).isSome = true := by decide
/-- TransferOnlyInManualMode, ManualReadIn, ManualReadOut: manual mode, and an address of each range. -/
theorem test_witness_manual : (manual .readInStorage (some 1999)).controlMode = .manual ∧
    isReady (manual .readInStorage (some 1999)) = true ∧ (manual .readInStorage (some 1999)).halfCycle = .instruction ∧
    (manual .lowerAccumulator none).displayMode ≠ .readInStorage ∧ (manual .lowerAccumulator none).displayMode ≠ .readOutStorage ∧
    validAddress 2000 = false ∧ validAddress 7999 = false ∧ validAddress 8004 = false ∧ ready.controlMode ≠ .manual ∧
    memRead (manual .readOutStorage (some 1999)) 1999 = .ok (pos 0) :=
  ⟨rfl, rfl, rfl, by decide, by decide, rfl, rfl, rfl, by decide, rfl⟩
/-- LeavingManualMidInstruction, both clauses. -/
theorem test_witness_leaving_manual : let s := { due ldWord with controlMode := .manual }
    s.controlMode = .manual ∧ ControlMode.run ≠ .manual ∧ s.halfCycle = .data ∧ isReady s = true ∧
    ready.controlMode ≠ .manual := by decide
/-- DisplayAndQueries: each clause. -/
theorem test_witness_display : (manual .lowerAccumulator none).displayMode = .lowerAccumulator ∧
    (manual .upperAccumulator none).displayMode = .upperAccumulator ∧
    (manual .programRegister none).displayMode = .programRegister ∧ (manual .programRegister none).pr = none ∧
    (due ldWord).pr = some ldWord ∧ (manual .readInStorage none).displayMode = .readInStorage := by decide

end Sys2Proof.Machine
end

namespace Sys2Proof.Machine

/-- R142's reading of STOP: with programmed_mode run it is the NOOP of the same two addresses, in the same state. -/
theorem exec_stop_eq_exec_noop (da ia : Nat) {s : State} (h : s.programmedMode = .run) :
    exec (.stop da ia) s = exec (.noop da ia) s := by
  simp only [exec, execStop, execNoop, h]

/-- The empty sequence leaves the two cycles of the lookahead (R140). -/
theorem exec_noop (da ia : Nat) (s : State) : exec (.noop da ia) s = .next (completed 0 ia false 2 s) :=
  dataHalfCycle_empty da ia s

/-- Settles O14: the STOP is the NOOP of its two addresses, and a NOOP completes in two cycles. -/
theorem stopContinuesAsNoop : Obligations.StopContinuesAsNoop := by
  intro da ia s h
  calc exec (.stop da ia) s = exec (.noop da ia) s := exec_stop_eq_exec_noop da ia h
    _ = .next (completed 0 ia false 2 s) := exec_noop da ia s

end Sys2Proof.Machine

namespace Sys2Proof.Machine

/-- STD runs sequence 3 (R165). -/
theorem exec_std (da ia : Nat) (s : State) : exec (.std da ia) s = dataHalfCycle [.enable, .store] da ia s := rfl

/-- STL runs sequence 4 with the load that reads LO (R166). -/
theorem exec_stl (da ia : Nat) (s : State) :
    exec (.stl da ia) s = dataHalfCycle [.enable, .loadLower, .store] da ia s := rfl

/-- The enable step of STD, as a step that puts the distributor's own word back: the form in which the laws of the store
sequences take the step before the store. -/
theorem runMicro_enable_beginData (da : Nat) (s : State) :
    runMicro .enable (beginData da s) = .done { beginData da s with dist := s.dist } := rfl

/-- STL's load takes the LO the instruction began with, in any state that still holds it (R161, R166). -/
theorem runMicro_loadLower {s u : State} (hlo : u.lo = s.lo) :
    runMicro .loadLower u = .done { u with dist := s.lo } := by
  rw [runMicro, hlo]

/-- An STD below 2000 stores the distributor (R165). -/
theorem exec_std_of_lt {da : Nat} (ia : Nat) (s : State) (hda : da < 2000) :
    exec (.std da ia) s =
      .next (completed 2 ia false (storeWait da s + 4) { s with drum := Memory.write s.drum da s.dist }) := by
  rw [exec_std, dataHalfCycle_store (runMicro_enable_beginData da s) hda]

/-- An STD at or above 2000 is refused (R165). -/
theorem exec_std_of_le {da : Nat} (ia : Nat) (s : State) (hda : 2000 ≤ da) :
    exec (.std da ia) s = .next (completed 2 ia false 4 { s with storageSelection := true }) := by
  rw [exec_std, dataHalfCycle_storeRefused (runMicro_enable_beginData da s) hda]

/-- An STL below 2000 stores LO by way of the distributor (R166). -/
theorem exec_stl_of_lt {da : Nat} (ia : Nat) (s : State) (hda : da < 2000) :
    exec (.stl da ia) s =
      .next (completed 3 ia false (lateStoreWait da s + 5)
        { s with dist := s.lo, drum := Memory.write s.drum da s.lo }) := by
  rw [exec_stl, dataHalfCycle_enableStore (fun _ _ hlo => runMicro_loadLower hlo) hda]

/-- An STL at or above 2000 is refused after the distributor has taken LO (R166). -/
theorem exec_stl_of_le {da : Nat} (ia : Nat) (s : State) (hda : 2000 ≤ da) :
    exec (.stl da ia) s = .next (completed 3 ia false 5 { s with dist := s.lo, storageSelection := true }) := by
  rw [exec_stl, dataHalfCycle_enableStoreRefused (fun _ _ hlo => runMicro_loadLower hlo) hda]

/-- Settles O17: on both sides of 2000 the step before the store keeps the distributor. -/
theorem storeDistributorCompletes : Obligations.StoreDistributorCompletes := by
  intro da ia s
  constructor
  · intro hda
    have hcycles : 1 + storeWait da s + 1 + 2 = storeWait da s + 4 := by omega
    rw [hcycles]
    exact exec_std_of_lt ia s hda
  · exact exec_std_of_le ia s

/-- Settles O18: on both sides of 2000 the load has copied LO before the store is tried. -/
theorem storeLowerCompletes : Obligations.StoreLowerCompletes := by
  intro da ia s
  constructor
  · intro hda
    have hcycles : 1 + 1 + lateStoreWait da s + 1 + 2 = lateStoreWait da s + 5 := by omega
    rw [hcycles]
    exact exec_stl_of_lt ia s hda
  · exact exec_stl_of_le ia s

end Sys2Proof.Machine

namespace Sys2Proof.Machine

/-! ### Sequence 2: add, subtract and reset (spec/42_add_subtract.md) -/

@[simp] theorem effectiveOperand_plain (w : Word) : effectiveOperand .plain w = w := rfl

@[simp] theorem effectiveOperand_negated (w : Word) :
    effectiveOperand .negated w = withSign (signFlip w.sign) w := rfl

@[simp] theorem effectiveOperand_absolute (w : Word) : effectiveOperand .absolute w = withSign .plus w := rfl

@[simp] theorem effectiveOperand_negatedAbsolute (w : Word) :
    effectiveOperand .negatedAbsolute w = withSign .minus w := rfl

@[simp] theorem signValue_signFlip (g : Sign) : signValue (signFlip g) = -signValue g := by
  cases g <;> rfl

/-- An upper operand counts in units of 10^10 (R181). -/
theorem operandValue_upper (e : Word) : operandValue e .upper = signValue e.sign * (e.mag : Int) * 10 ^ 10 := by
  simp only [operandValue, Config.wordBase]
  push_cast
  ring

theorem operandValue_lower (e : Word) : operandValue e .lower = signValue e.sign * (e.mag : Int) := rfl

/-- Negating the operand negates its value in either half (R184). -/
theorem operandValue_negated (w : Word) (half : Half) :
    operandValue (withSign (signFlip w.sign) w) half = -operandValue w half := by
  cases half <;>
    simp only [operandValue_upper, operandValue_lower, withSign_sign, withSign_mag, signValue_signFlip, neg_mul]

theorem operandValue_absolute (w : Word) : operandValue (withSign .plus w) .lower = (w.mag : Int) := by
  simp only [operandValue_lower, withSign_sign, withSign_mag, signValue, one_mul]

theorem operandValue_negatedAbsolute (w : Word) : operandValue (withSign .minus w) .lower = -(w.mag : Int) := by
  simp only [operandValue_lower, withSign_sign, withSign_mag, signValue, neg_mul, one_mul]

/-- The adder leaves the accumulator that `withSum` states, at the exact sum of the two values (R181, R182). -/
theorem addToAccumulator_eq_withSum (e w : Word) (half : Half) (s : State) :
    addToAccumulator e half { s with dist := w } = withSum w (accValue s + operandValue e half) e.sign s := rfl

/-- Sequence 2 of an adding operation whose effective operand has sign `g` and whose exact sum is `r` (R184, R187). -/
theorem dataHalfCycle_accumulate_withSum (form : OperandForm) (half : Half) {da ia : Nat} {s : State} {w : Word} {r : Int}
    {g : Sign} (hw : memRead s da = .ok w) (hf : s.fillStarted = false) (hd : arithmeticWord w = true)
    (hu : s.up.valid = true) (hl : arithmeticWord s.lo = true)
    (hr : accValue s + operandValue (effectiveOperand form w) half = r) (hg : (effectiveOperand form w).sign = g) :
    dataHalfCycle (accumulateSequence .accumulate form half) da ia s =
      .next (completed 4 ia true (fillCycles da s) (withSum w r g s)) := by
  rw [dataHalfCycle_accumulate hw hf hd hu hl, addToAccumulator_eq_withSum, hr, hg]

/-- Settles O23: each operation is sequence 2 at its form and half, and its sum is the accumulator's value and that of the
effective operand. -/
theorem addAndSubtractComplete : Obligations.AddAndSubtractComplete := by
  intro da ia s w hf hw hd hu hl v m ends
  have hv : accValue s = v := rfl
  refine ⟨?au, ?su, ?al, ?sl, ?aabl, ?sabl⟩
  case au =>
    refine dataHalfCycle_accumulate_withSum .plain .upper hw hf hd hu hl ?_ rfl
    rw [effectiveOperand_plain, operandValue_upper, hv]
  case su =>
    refine dataHalfCycle_accumulate_withSum .negated .upper hw hf hd hu hl ?_ rfl
    rw [effectiveOperand_negated, operandValue_negated, operandValue_upper, hv, ← sub_eq_add_neg]
  case al =>
    refine dataHalfCycle_accumulate_withSum .plain .lower hw hf hd hu hl ?_ rfl
    rw [effectiveOperand_plain, operandValue_lower, hv]
  case sl =>
    refine dataHalfCycle_accumulate_withSum .negated .lower hw hf hd hu hl ?_ rfl
    rw [effectiveOperand_negated, operandValue_negated, operandValue_lower, hv, ← sub_eq_add_neg]
  case aabl =>
    refine dataHalfCycle_accumulate_withSum .absolute .lower hw hf hd hu hl ?_ rfl
    rw [effectiveOperand_absolute, operandValue_absolute, hv]
  case sabl =>
    refine dataHalfCycle_accumulate_withSum .negatedAbsolute .lower hw hf hd hu hl ?_ rfl
    rw [effectiveOperand_negatedAbsolute, operandValue_negatedAbsolute, hv, ← sub_eq_add_neg]

/-- Settles O24: each operation is sequence 2 at its form and half; the load puts the effective operand in that half and a
zero of its sign in the other (R188). -/
theorem resetAndLoadComplete : Obligations.ResetAndLoadComplete := by
  intro da ia s w hf hw hd ends n
  exact ⟨dataHalfCycle_reset (form := .plain) (half := .upper) hw hf hd,
    dataHalfCycle_reset (form := .negated) (half := .upper) hw hf hd,
    dataHalfCycle_reset (form := .plain) (half := .lower) hw hf hd,
    dataHalfCycle_reset (form := .negated) (half := .lower) hw hf hd,
    dataHalfCycle_reset (form := .absolute) (half := .lower) hw hf hd,
    dataHalfCycle_reset (form := .negatedAbsolute) (half := .lower) hw hf hd⟩

end Sys2Proof.Machine

namespace Sys2Proof.Machine

/-! ### The power state machine (spec/60_exceptions.md) -/

/-- Time passed while the automatic transition does not fire moves the clock alone (R283). -/
theorem passSeconds_of_not_fires {n : Nat} {s : State}
    (h : ¬ (s.power = true ∧ s.dcAutoFired = false ∧ 180 ≤ s.elapsed + n)) :
    passSeconds n s = { s with elapsed := s.elapsed + n } :=
  if_neg (by simpa [Config.dcDelaySeconds, and_assoc] using h)

/-- Time passed where the automatic transition fires: DC is on and the transition is spent (R283). -/
theorem passSeconds_of_fires {n : Nat} {s : State} (hp : s.power = true) (hd : s.dcAutoFired = false)
    (h : 180 ≤ s.elapsed + n) :
    passSeconds n s = { s with elapsed := s.elapsed + n, dc := true, dcAutoFired := true } :=
  if_pos (by simpa [Config.dcDelaySeconds, hp, hd] using h)

/-- How time is cut does not matter: the automatic transition fires once, in the piece that reaches 180 seconds (R283). -/
theorem passSeconds_passSeconds (m n : Nat) (s : State) : passSeconds n (passSeconds m s) = passSeconds (m + n) s := by
  by_cases hm : s.power = true ∧ s.dcAutoFired = false ∧ 180 ≤ s.elapsed + m
  · obtain ⟨hp, hd, hm⟩ := hm
    rw [passSeconds_of_fires hp hd hm, passSeconds_of_fires hp hd (by omega), passSeconds_of_not_fires (by simp)]
    simp only [Nat.add_assoc]
  · rw [passSeconds_of_not_fires hm]
    by_cases hn : s.power = true ∧ s.dcAutoFired = false ∧ 180 ≤ s.elapsed + (m + n)
    · obtain ⟨hp, hd, hn⟩ := hn
      rw [passSeconds_of_fires hp hd hn, passSeconds_of_fires (s := { s with elapsed := s.elapsed + m }) hp hd
        (by simpa only [Nat.add_assoc] using hn)]
      simp only [Nat.add_assoc]
    · rw [passSeconds_of_not_fires hn, passSeconds_of_not_fires (by simpa only [Nat.add_assoc] using hn)]
      simp only [Nat.add_assoc]

/-- Time passed in pieces after a first piece is their sum passed at once. -/
theorem foldl_passSeconds (pieces : List Nat) (m : Nat) (s : State) :
    pieces.foldl (fun t n => passSeconds n t) (passSeconds m s) = passSeconds (m + pieces.sum) s := by
  induction pieces generalizing m with
  | nil => rfl
  | cons n pieces ih => rw [List.foldl_cons, passSeconds_passSeconds, ih, List.sum_cons, Nat.add_assoc]

/-- In a state of the invariant that is off, DC is off too (R281). -/
theorem Inv.dc_off {s : State} (hs : Inv s) (hp : s.power = false) : s.dc = false := by
  cases hdc : s.dc with
  | false => rfl
  | true => exact absurd (hs.dcNeedsPower hdc).1 (by simp [hp])

/-- No time at all after a power_on that acts: the clock stands at 0, short of the delay (R281). -/
theorem passSeconds_zero_powerOn {s : State} (hp : s.power = false) (hm : s.masterDisabled = false) :
    passSeconds 0 (powerOn s) = powerOn s := by
  rw [powerOn_eq hp hm, passSeconds_of_not_fires (by simp)]

/-- After a power_on that acts on a machine with DC off, the machine is ready from 180 seconds on (R290). -/
theorem isReady_passSeconds_powerOn {s : State} (hp : s.power = false) (hm : s.masterDisabled = false)
    (hdc : s.dc = false) (n : Nat) : isReady (passSeconds n (powerOn s)) = decide (180 ≤ n) := by
  rw [powerOn_eq hp hm]
  by_cases hn : 180 ≤ n
  · rw [passSeconds_of_fires rfl rfl (by simp only; omega), decide_eq_true hn]
    rfl
  · rw [passSeconds_of_not_fires (by simp only; omega), decide_eq_false hn]
    exact hdc

/-- Settles O50: the pieces are their sum passed at once after power_on, and DC fires where the sum reaches the delay. -/
theorem readyAfterTheDelay : Obligations.ReadyAfterTheDelay := by
  refine ⟨fun _ => rfl, fun s pieces hs hp hm => ?_⟩
  have hsum : pieces.foldl (fun t n => passSeconds n t) (powerOn s) = passSeconds pieces.sum (powerOn s) := by
    simpa only [passSeconds_zero_powerOn hp hm, Nat.zero_add] using foldl_passSeconds pieces 0 (powerOn s)
  rw [hsum]
  exact isReady_passSeconds_powerOn hp hm (hs.dc_off hp) pieces.sum

/-- dc_on where it is permitted (R284). -/
theorem dcOn_of_permitted {s : State} (hp : s.power = true) (he : 180 ≤ s.elapsed) : dcOn s = { s with dc := true } :=
  if_pos (by simpa [Config.dcDelaySeconds, hp] using he)

/-- dc_on where it is not (R284). -/
theorem dcOn_noop {s : State} (h : s.power = false ∨ s.elapsed < 180) : dcOn s = s := by
  refine if_neg ?_
  rw [Bool.and_eq_true, decide_eq_true_eq, Config.dcDelaySeconds]
  rintro ⟨hp, he⟩
  rcases h with hoff | hearly
  · exact absurd hp (by simp [hoff])
  · omega

/-- Settles O52: dc_on by its two cases; dc_off is the update of DC alone (R285). -/
theorem dcSwitchRules : Obligations.DcSwitchRules :=
  fun _ => ⟨dcOn_of_permitted, dcOn_noop, rfl⟩

end Sys2Proof.Machine

namespace Sys2Proof.Machine

/-! ### The resets and the entry point (spec/70_reset_and_hazards.md) -/

/-- What no reset changes (R306), and the open parameters, which nothing changes. -/
structure ResetKept (s t : State) : Prop where
  params : t.params = s.params
  drum : t.drum = s.drum
  drumIndex : t.drumIndex = s.drumIndex
  controlMode : t.controlMode = s.controlMode
  halfCycleMode : t.halfCycleMode = s.halfCycleMode
  displayMode : t.displayMode = s.displayMode
  programmedMode : t.programmedMode = s.programmedMode
  errorMode : t.errorMode = s.errorMode
  se : t.se = s.se
  ae : t.ae = s.ae
  power : t.power = s.power
  dc : t.dc = s.dc
  masterDisabled : t.masterDisabled = s.masterDisabled
  elapsed : t.elapsed = s.elapsed
  dcAutoFired : t.dcAutoFired = s.dcAutoFired
  poweredOffOnce : t.poweredOffOnce = s.poweredOffOnce

theorem programReset_kept (s : State) : ResetKept s (programReset s) := by constructor <;> rfl

theorem accumulatorReset_kept (s : State) : ResetKept s (accumulatorReset s) := by constructor <;> rfl

theorem errorReset_kept (s : State) : ResetKept s (errorReset s) := by constructor <;> rfl

theorem errorSenseReset_kept (s : State) : ResetKept s (errorSenseReset s) := by constructor <;> rfl

/-- computer_reset is three of the other resets in turn (R305), so it keeps what they keep. -/
theorem computerReset_kept (s : State) : ResetKept s (computerReset s) := by
  rw [computerReset_eq]
  constructor <;> rfl

/-- What the two resets that name an entry point leave (R301, R303, R305): the entry address of the control mode in AR, the
instruction half-cycle due at its fetch, the cycle counter at 0. -/
structure ResetEntry (s u : State) : Prop extends ResetKept s u where
  ar : u.ar = resetAddress s.controlMode
  due : instructionDue u
  runTime : u.runTime = 0

theorem programReset_entry (s : State) : ResetEntry s (programReset s) :=
  { programReset_kept s with ar := rfl, due := ⟨rfl, .inl rfl⟩, runTime := rfl }

theorem computerReset_entry (s : State) : ResetEntry s (computerReset s) := by
  have hkept := computerReset_kept s
  rw [computerReset_eq] at hkept ⊢
  exact { hkept with ar := rfl, due := ⟨rfl, .inl rfl⟩, runTime := rfl }

theorem ResetEntry.automatic_eq {s u : State} (h : ResetEntry s u) : automatic u = automatic s := by
  rw [automatic, h.controlMode, automatic]

theorem ResetEntry.isReady_eq {s u : State} (h : ResetEntry s u) : isReady u = isReady s := by
  rw [isReady, h.power, h.dc, isReady]

/-- In an automatic mode the entry point is the storage-entry address (R303). -/
theorem ResetEntry.ar_of_automatic {s u : State} (h : ResetEntry s u) (ha : automatic s = true) : u.ar = some 8000 := by
  rw [h.ar, resetAddress_eq, if_neg (of_decide_eq_true ha)]

/-- Address 8000 reads the storage-entry switches (R75). -/
theorem memRead_storageEntry (s : State) : memRead s 8000 = .ok s.se := if_pos rfl

/-- A step that fetches `w` is the data half-cycle of the instruction `w` decodes to (R122, R125, R126, R129). -/
theorem step_eq_exec_fetched {s : State} {a : Nat} {w : Word} {i : Instr} (hr : isReady s = true)
    (ha : automatic s = true) (hm : s.halfCycleMode = .run) (hdue : instructionDue s) (hd : s.drumIndex < 50)
    (har : s.ar = some a) (hw : memRead s a = .ok w) (hdec : decode s.params.opcodeMap w = .ok i) :
    step s = exec i (fetched a w s) := by
  obtain ⟨hh, hic⟩ := hdue
  obtain ⟨hv, -⟩ := decode_ok hdec
  have hdata : dueInstruction (fetched a w s) = .ok i := dueInstruction_decode (w := w) hdec rfl rfl rfl
  have hrun : (fetched a w s).halfCycleMode = .run := hm
  rw [step_auto hr ha, automaticPass, hh]
  simp only [instructionHalfCycle_ok hd hh hic har hw hv, hrun, dueDataHalfCycle, hdata]

/-- A fetch from 8000 takes the two cycles of the instruction half-cycle and no wait (R74, R303). -/
theorem fetched_storageEntry_runTime {s : State} (w : Word) (hp : s.params.runTimeWidth = none) :
    (fetched 8000 w s).runTime = s.runTime + 2 := by
  have hwait : waitCycles 8000 s.drumIndex = 0 := waitCycles_open (.inl le_rfl)
  rw [fetched, afterCycles, hwait]
  exact runTimeAfter_unbounded hp 2 s.runTime

/-- After a reset in an automatic mode the next step runs the word on the storage-entry switches (R303). -/
theorem ResetEntry.step_eq {s u : State} {i : Instr} (h : ResetEntry s u) (ha : automatic s = true)
    (hr : isReady s = true) (hm : s.halfCycleMode = .run) (hd : s.drumIndex < 50)
    (hdec : decode s.params.opcodeMap s.se = .ok i) : step u = exec i (fetched 8000 s.se u) :=
  step_eq_exec_fetched (h.isReady_eq.trans hr) (h.automatic_eq.trans ha) (h.halfCycleMode.trans hm) h.due
    (h.drumIndex ▸ hd) (h.ar_of_automatic ha) (h.se ▸ memRead_storageEntry u) (h.params ▸ hdec)

/-- After a reset in manual mode AR is blank, and transfer puts the address-entry value there (R233, R303). -/
theorem ResetEntry.of_manual {s u : State} (h : ResetEntry s u) (hm : s.controlMode = .manual) :
    u.ar = none ∧ (transfer u).ar = s.ae := by
  constructor
  · rw [h.ar, resetAddress_eq, if_pos hm]
  · rw [transfer_eq, if_pos (h.controlMode.trans hm), h.ae]

/-- Settles O48: both resets leave the entry state of R303, from which the two modes follow. -/
theorem resetEntersAtStorageEntry : Obligations.ResetEntersAtStorageEntry := by
  intro s u hu
  have h : ResetEntry s u := by
    rcases hu with rfl | rfl
    · exact programReset_entry s
    · exact computerReset_entry s
  constructor
  · intro ha
    refine ⟨h.ar_of_automatic ha, fun i hr hm hd hdec => ⟨h.step_eq ha hr hm hd hdec, fun hp => ?_⟩⟩
    rw [fetched_storageEntry_runTime s.se (h.params ▸ hp), h.runTime]
  · intro ha
    have hm : s.controlMode = .manual := by simpa [automatic] using ha
    obtain ⟨har, htransfer⟩ := h.of_manual hm
    exact ⟨har, fun a hae => htransfer.trans hae⟩

/-- Settles O44: accumulator_reset is that update of the state. -/
theorem accumulatorResetRule : Obligations.AccumulatorResetRule := fun _ => rfl

/-- Settles O45: each of the two is its update of the state. -/
theorem errorResetRules : Obligations.ErrorResetRules := fun _ => ⟨rfl, rfl⟩

/-- A reset called by the host keeps what no reset changes. -/
theorem hostCall_reset_kept {c : HostCall} {s t : State}
    (hc : c ∈ [HostCall.programReset, .accumulatorReset, .errorReset, .errorSenseReset, .computerReset])
    (h : hostCall c s = some t) : ResetKept s t := by
  simp only [List.mem_cons, List.not_mem_nil, or_false] at hc
  rcases hc with rfl | rfl | rfl | rfl | rfl <;> obtain rfl := Option.some.inj h
  · exact programReset_kept s
  · exact accumulatorReset_kept s
  · exact errorReset_kept s
  · exact errorSenseReset_kept s
  · exact computerReset_kept s

/-- Settles O47: the frame of the five resets, field by field. -/
theorem whatNoResetChanges : Obligations.WhatNoResetChanges := by
  intro c s t hc h
  have k := hostCall_reset_kept hc h
  exact ⟨k.drum, k.drumIndex, k.controlMode, k.halfCycleMode, k.displayMode, k.programmedMode, k.errorMode, k.se, k.ae,
    k.power, k.dc, k.masterDisabled, k.elapsed, k.dcAutoFired, k.poweredOffOnce⟩

end Sys2Proof.Machine

namespace Sys2Proof

/-! ### Words, decoding and encoding (spec/30_encoding.md) -/

/-- What an instruction's word decodes to, under any sign, is the instruction (R101 to R105). -/
theorem decode_withSign_of_encode {m : OpcodeMap} {i : Instr} {w : Word} (sg : Sign) (hm : m.wf = true)
    (hi : i.wf = true) (he : encode m i = some w) : decode m (Machine.withSign sg w) = .ok i := by
  obtain ⟨hv, hc, hda, hia⟩ := encode_fields hm hi he sg
  rw [decode_of_operationOf hv ((OpcodeMap.operationOf_iff hm _ _).mpr hc), hda, hia, i.encoding.1]

/-- The default map has a code for every instruction (R104). -/
theorem exists_encode_standard (i : Instr) : ∃ w, encode OpcodeMap.standard i = some w := by
  obtain ⟨-, c, -, hc, -⟩ := i.encoding
  exact ⟨_, by rw [encode, hc, Option.map_some]⟩

/-- Settles O2: the fields of the encoded word are the instruction's, and its code selects the operation. -/
theorem decodeEncodeAgree : Obligations.DecodeEncodeAgree :=
  ⟨fun _ _ _ sg hm hi he => decode_withSign_of_encode sg hm hi he, by decide, exists_encode_standard⟩

/-- The word that encodes a decoded instruction has the digits of the word decoded (R101, R105). -/
theorem encode_of_decode {m : OpcodeMap} {w : Word} {i : Instr} (hm : m.wf = true) (h : decode m w = .ok i) :
    encode m i = some (Word.ofNat .plus w.mag) := by
  obtain ⟨-, ho, hda, hia⟩ := decode_ok h
  rw [encode, (OpcodeMap.operationOf_iff hm _ _).mp ho, hda, hia, Option.map_some, Word.mag]

/-- A decoded instruction has the four-digit addresses of its word (R101). -/
theorem wf_of_decode {m : OpcodeMap} {w : Word} {i : Instr} (h : decode m w = .ok i) : i.wf = true := by
  obtain ⟨-, -, hda, hia⟩ := decode_ok h
  exact i.wf_iff.mpr ⟨hda ▸ w.dataAddress_lt, hia ▸ w.instructionAddress_lt⟩

/-- Settles O3: the encoded word has the digits of the one decoded, and a valid word is that of its sign and magnitude. -/
theorem encodeDecodeAgree : Obligations.EncodeDecodeAgree := by
  intro m w i hm h
  refine ⟨wf_of_decode h, ?_⟩
  rw [encode_of_decode hm h, Option.map_some]
  exact congrArg some (Word.ofNat_mag (decode_ok h).1)

theorem decode_of_invalid {m : OpcodeMap} {w : Word} (hv : w.valid = false) : decode m w = .error .invalidDigit := by
  rw [decode, hv, if_neg Bool.false_ne_true]

theorem OpcodeMap.operationOf_eq_none {m : OpcodeMap} {c : Nat} (h : c ∉ m.map Prod.fst) : m.operationOf c = none := by
  rwa [← m.operationOf_isSome, Option.not_isSome_iff_eq_none] at h

/-- A word decodes exactly where it is valid and its code stands in the map (R103, R105, R109). -/
theorem exists_decode_iff {m : OpcodeMap} {w : Word} :
    (∃ i, decode m w = .ok i) ↔ w.valid = true ∧ w.opCode ∈ m.map Prod.fst := by
  rw [← m.operationOf_isSome, Option.isSome_iff_exists]
  constructor
  · rintro ⟨i, h⟩
    obtain ⟨hv, ho, -⟩ := decode_ok h
    exact ⟨hv, _, ho⟩
  · rintro ⟨hv, o, ho⟩
    exact ⟨_, decode_of_operationOf hv ho⟩

/-- Settles O4: the two rejections are the two ways the decoder answers no instruction. -/
theorem onlyTheTableDecodes : Obligations.OnlyTheTableDecodes :=
  ⟨fun _ _ => ⟨exists_decode_iff, decode_of_invalid,
    fun hv hc => decode_of_unassigned hv (OpcodeMap.operationOf_eq_none hc)⟩, rfl⟩

/-- Settles O1: the decoder computes each of the five words. -/
theorem specWordsDecode : Obligations.SpecWordsDecode := ⟨rfl, rfl, rfl, rfl, rfl⟩

end Sys2Proof

namespace Sys2Proof.Machine

/-! ### Storage and the gate (spec/20_memory.md) -/

/-- Address 8001 reads the distributor (R75). -/
theorem memRead_distributor (s : State) : memRead s 8001 = .ok s.dist := rfl

/-- Address 8002 reads the lower accumulator (R75). -/
theorem memRead_lower (s : State) : memRead s 8002 = .ok s.lo := rfl

/-- Address 8003 reads the upper accumulator (R75). -/
theorem memRead_upper (s : State) : memRead s 8003 = .ok s.up := rfl

/-- The valid set {0..1999} ∪ {8000..8003} (R71). -/
theorem validAddress_iff (a : Nat) : validAddress a = true ↔ a ≤ 1999 ∨ (8000 ≤ a ∧ a ≤ 8003) := by
  simp [validAddress, Nat.lt_succ_iff]

theorem validAddress_eq_false_iff (a : Nat) : validAddress a = false ↔ ¬ (a ≤ 1999 ∨ (8000 ≤ a ∧ a ≤ 8003)) := by
  rw [← validAddress_iff, Bool.not_eq_true]

/-- Settles O5: one law of `memRead` for each part of the address map. -/
theorem readsFollowTheAddressMap : Obligations.ReadsFollowTheAddressMap := by
  intro s a
  refine ⟨?_, ?_, ?_, ?_, fun h => memRead_drum (by omega), fun h1 h2 => memRead_invalid ?_⟩
  · rintro rfl; exact memRead_storageEntry s
  · rintro rfl; exact memRead_distributor s
  · rintro rfl; exact memRead_lower s
  · rintro rfl; exact memRead_upper s
  · rw [validAddress_eq_false_iff]; omega

/-- Settles O6: by the induction over the wait, one closed cycle at a time. -/
theorem gateOpensAfterItsWait : Obligations.GateOpensAfterItsWait := by
  intro s a hd
  refine ⟨waitCycles_le a s.drumIndex, ?_⟩
  refine gate_induction (P := fun n s => gate (afterCycles n s) a = true ∧ ∀ m < n, gate (afterCycles m s) a = false)
    ?_ ?_ s hd
  · intro s _ hg
    exact ⟨hg, fun m hm => absurd hm (Nat.not_lt_zero m)⟩
  · intro n s _ hg ih
    have hshift : ∀ m, afterCycles m (tick s) = afterCycles (m + 1) s := fun m => rfl
    refine ⟨hshift n ▸ ih.1, fun m hm => ?_⟩
    cases m with
    | zero => exact hg
    | succ m => exact hshift m ▸ ih.2 m (by omega)

end Sys2Proof.Machine

namespace Sys2Proof.Machine

/-! ### The step: its outcomes, the invariant and time (spec/40_cycle_controller.md, spec/10_state.md) -/

/-! #### The one-shot of manual mode (spec/44_console_operations.md) -/

/-- In the four display modes that neither read in nor read out the one-shot loads the distributor from the switches (R230). -/
theorem manualProgramStart_load {s : State} (hi : s.displayMode ≠ .readInStorage) (ho : s.displayMode ≠ .readOutStorage) :
    manualProgramStart s = .next { s with dist := s.se } := by
  unfold manualProgramStart
  cases hm : s.displayMode with
  | readInStorage => exact absurd hm hi
  | readOutStorage => exact absurd hm ho
  | distributor | lowerAccumulator | upperAccumulator | programRegister => rfl

theorem manualProgramStart_readIn {s : State} {a : Nat} (hm : s.displayMode = .readInStorage) (ha : s.ar = some a) :
    manualProgramStart s = .next (memWrite { s with dist := s.se } a s.se) := by
  simp only [manualProgramStart, hm, ha]

theorem manualProgramStart_readOut {s : State} {a : Nat} {w : Word} (hm : s.displayMode = .readOutStorage)
    (ha : s.ar = some a) (hw : memRead { s with dist := s.se } a = .ok w) :
    manualProgramStart s = .next { s with dist := w } := by
  simp only [hm, ha] at hw
  simp only [manualProgramStart, hm, ha, hw]

theorem manualProgramStart_readOutFault {s : State} {a : Nat} {f : Fault} (hm : s.displayMode = .readOutStorage)
    (ha : s.ar = some a) (hw : memRead { s with dist := s.se } a = .error f) : manualProgramStart s = .fault f := by
  simp only [hm, ha] at hw
  simp only [manualProgramStart, hm, ha, hw]

/-- A blank AR names nothing to read in to or out from (R231, R232). -/
theorem manualProgramStart_blank {s : State} (hm : s.displayMode = .readInStorage ∨ s.displayMode = .readOutStorage)
    (ha : s.ar = none) : manualProgramStart s = .fault .blankAddress := by
  rcases hm with hm | hm <;> simp only [manualProgramStart, hm, ha]

/-- Everything the one-shot of manual mode can do, the same at every time: stop by name, or an effect on the data
registers, the cell AR names and the storage-selection flag. -/
inductive ManualOutcomes (s : State) : Prop where
  | fault (f : Fault) (hf : f ≠ .noCompletion) (h : ∀ r d, manualProgramStart (retime r d s) = .fault f)
  | next (da : Nat) (u : State) (hu : DataEffect da s u)
      (h : ∀ r d, manualProgramStart (retime r d s) = .next (retime r d u))

/-- `MemWrite` does not see the time. -/
theorem memWrite_retime (r d : Nat) (s : State) (a : Nat) (w : Word) :
    memWrite (retime r d s) a w = retime r d (memWrite s a w) := by
  unfold memWrite
  repeat' split
  all_goals rfl

/-- Reading the switches in is an effect on the data registers, one cell or the flag: at 8000 the switches take their own
word (R231). -/
theorem memWrite_effect (s : State) (a : Nat) : DataEffect a s (memWrite { s with dist := s.se } a s.se) := by
  rcases memWrite_cases { s with dist := s.se } a s.se with
    ⟨-, he⟩ | ⟨-, he⟩ | ⟨-, he⟩ | ⟨-, he⟩ | ⟨hlt, he⟩ | ⟨-, he⟩ <;> rw [he]
  · exact ⟨rfl, .inl rfl, id, id⟩
  · exact ⟨rfl, .inl rfl, id, id⟩
  · exact ⟨rfl, .inl rfl, id, id⟩
  · exact ⟨rfl, .inl rfl, id, id⟩
  · exact ⟨rfl, .inr ⟨hlt, rfl⟩, id, id⟩
  · exact ⟨rfl, .inl rfl, id, fun _ => rfl⟩

/-- Everything the one-shot can do, by the display mode and the address (R230 to R232). -/
theorem manualProgramStart_outcomes (s : State) : ManualOutcomes s := by
  have hload : ∀ w, DataEffect 0 s { s with dist := w } := fun _ => ⟨rfl, .inl rfl, id, id⟩
  by_cases hi : s.displayMode = .readInStorage
  · cases ha : s.ar with
    | none => exact .fault .blankAddress (by simp) fun r d => manualProgramStart_blank (s := retime r d s) (.inl hi) ha
    | some a =>
      exact .next a _ (memWrite_effect s a) fun r d =>
        (manualProgramStart_readIn (s := retime r d s) hi ha).trans
          (congrArg _ (memWrite_retime r d { s with dist := s.se } a s.se))
  by_cases ho : s.displayMode = .readOutStorage
  · cases ha : s.ar with
    | none => exact .fault .blankAddress (by simp) fun r d => manualProgramStart_blank (s := retime r d s) (.inr ho) ha
    | some a =>
      cases hw : memRead { s with dist := s.se } a with
      | ok w => exact .next 0 _ (hload w) fun r d => manualProgramStart_readOut (s := retime r d s) ho ha hw
      | error f =>
        exact .fault f (by rw [memRead_error hw]; simp) fun r d =>
          manualProgramStart_readOutFault (s := retime r d s) ho ha hw
  · exact .next 0 _ (hload s.se) fun r d => manualProgramStart_load (s := retime r d s) hi ho

/-- The one-shot, where it answers, is an effect on the data registers, one cell and the flag. -/
theorem manualProgramStart_effect {s t : State} (h : manualProgramStart s = .next t) : ∃ da, DataEffect da s t := by
  cases manualProgramStart_outcomes s with
  | fault f hf hs => cases h.symm.trans (hs s.runTime s.drumIndex)
  | next da u hu hs =>
    have hself : retime s.runTime s.drumIndex u = u := by rw [hu.kept]; rfl
    cases h.symm.trans (hs s.runTime s.drumIndex)
    exact ⟨da, hself.symm ▸ hu⟩

theorem manualProgramStart_ne_refused (s : State) (r : Refusal) : manualProgramStart s ≠ .refused r := by
  intro h
  cases manualProgramStart_outcomes s with
  | fault f hf hs => cases h.symm.trans (hs s.runTime s.drumIndex)
  | next da u hu hs => cases h.symm.trans (hs s.runTime s.drumIndex)

/-! #### Refusal -/

/-- No data half-cycle that is due is refused. -/
theorem dueDataHalfCycle_ne_refused (s : State) (r : Refusal) : dueDataHalfCycle s ≠ .refused r := by
  unfold dueDataHalfCycle
  split
  · exact exec_ne_refused
  · simp

theorem automaticPass_ne_refused (s : State) (r : Refusal) : automaticPass s ≠ .refused r := by
  unfold automaticPass
  split
  · exact dueDataHalfCycle_ne_refused s r
  · split
    · simp
    · split
      · simp
      · exact dueDataHalfCycle_ne_refused _ r

theorem manual_of_not_automatic {s : State} (h : ¬ automatic s = true) : s.controlMode = .manual := by
  simpa [automatic] using h

/-- A ready machine's step is never refused: each of its two forms answers or stops by name (R291). -/
theorem step_ne_refused {s : State} (hr : isReady s = true) (r : Refusal) : step s ≠ .refused r := by
  by_cases ha : automatic s = true
  · exact step_auto hr ha ▸ automaticPass_ne_refused s r
  · exact step_manual hr (manual_of_not_automatic ha) ▸ manualProgramStart_ne_refused s r

/-- Settles O11: a machine that is not ready refuses by that name, and a ready one never refuses. -/
theorem refusedExactlyWhenNotReady : Obligations.RefusedExactlyWhenNotReady := by
  intro s r
  constructor
  · intro h
    have hr : ¬ isReady s = true := fun hr => step_ne_refused hr r h
    rw [step_of_not_ready hr] at h
    cases h
    exact ⟨by simpa using hr, rfl⟩
  · rintro ⟨hr, rfl⟩
    exact step_of_not_ready (by simp [hr])

/-! #### What keeps the invariant -/

/-- An effect on the data registers, one cell and the flags keeps the invariant: a write keeps the drum's canonical form,
and the invariant reads nothing else of what the effect writes. -/
theorem Inv.dataEffect {da : Nat} {s u : State} (hs : Inv s) (hu : DataEffect da s u) : Inv u := by
  have hdrum : Memory.wf u.drum = true := by
    rcases hu.drum with hd | ⟨hlt, hd⟩ <;> rw [hd]
    · exact hs.drum
    · exact Memory.wf_write hlt hs.drum
  rw [hu.kept]
  exact { hs with drum := hdrum }

/-- A completed data half-cycle keeps the invariant (R133). -/
theorem Inv.completed {u : State} (hu : Inv u) {ia : Nat} (hia : ia < 10000) (steps : Nat) (raised : Bool) (n : Nat) :
    Inv (completed steps ia raised n u) :=
  { hu with
    drumIndex := drumIndexAfter_lt hu.drumIndex n
    ar := decide_eq_true hia
    cursors := rfl }

/-- With the word of the program register valid and its code in OP, a data half-cycle that ends program_start leaves itself
due (R141, R220). -/
theorem Inv.halted {u : State} (hu : Inv u) {w : Word} (hp : u.pr = some w) (hv : w.valid = true)
    (ho : u.op = some w.opCode) (steps n : Nat) : Inv (halted steps w.dataAddress n u) :=
  { hu with
    drumIndex := drumIndexAfter_lt hu.drumIndex n
    ar := decide_eq_true w.dataAddress_lt
    cursors := by simp [cursorsAgree, dataDue, hp, hv, ho] }

/-- A state in which the data half-cycle of the valid word `w` is due keeps the invariant of one it differs from in the
registers of the fetch, the cursor and the time alone (R123). -/
theorem Inv.due {s u : State} (hs : Inv s) {w : Word} (hv : w.valid = true) (hu : dataDueFor w u) (hic : u.ic = 2)
    (hd : u.drumIndex < 50)
    (same : u = { s with
      pr := u.pr, op := u.op, ar := u.ar, halfCycle := u.halfCycle, ic := u.ic, runTime := u.runTime,
      drumIndex := u.drumIndex }) :
    Inv u := by
  obtain ⟨hh, hp, ho, har⟩ := hu
  have hcursors : cursorsAgree u = true := by simp [cursorsAgree, dataDue, hh, hic, hp, hv, ho, har]
  have hop : belowIfSet 100 u.op = true := by rw [ho]; exact decide_eq_true w.opCode_lt
  have hadr : belowIfSet 10000 u.ar = true := by rw [har]; exact decide_eq_true w.dataAddress_lt
  constructor
  case drumIndex => exact hd
  case ar => exact hadr
  case op => exact hop
  case cursors => exact hcursors
  all_goals rw [same]
  · exact hs.params
  · exact hs.drum
  · exact hs.ae
  · exact hs.shiftCount
  · exact hs.loopCount
  · exact hs.fillStarted
  · exact hs.dcNeedsPower
  · exact hs.masterOff

/-- The data half-cycle of the instruction that is due keeps the invariant. -/
theorem Inv.exec {s t : State} (hs : Inv s) {w : Word} {i : Instr} (hdue : dataDueFor w s)
    (hi : decode s.params.opcodeMap w = .ok i) (h : exec i s = .next t) : Inv t := by
  obtain ⟨hv, -, hda, hia⟩ := decode_ok hi
  obtain ⟨-, hp, ho, -⟩ := hdue
  obtain ⟨steps, u, n, hu, ⟨-, rfl⟩ | ⟨raised, -, -, rfl⟩⟩ := exec_cases hs.atRest h
  · rw [hda]
    exact (hs.dataEffect hu).halted (by rw [hu.kept]; exact hp) hv (by rw [hu.kept]; exact ho) steps n
  · exact (hs.dataEffect hu).completed (hia ▸ w.instructionAddress_lt) steps raised n

/-- Everything a pass in an automatic mode can do from a state of the invariant, at that state's own time: stop by name, run
the instruction half-cycle alone, or run the data half-cycle of the instruction that is due `n` cycles on. -/
inductive PassCases (s : State) : Prop where
  | fault (f : Fault) (hf : f ≠ .noCompletion) (h : automaticPass s = .fault f)
  | fetch (a : Nat) (w : Word) (hm : s.halfCycleMode = .halfStep) (hinv : Inv (fetched a w s))
      (h : automaticPass s = .next (fetched a w s))
  | exec (i : Instr) (w : Word) (u : State) (n : Nat) (hi : decode u.params.opcodeMap w = .ok i) (hdue : dataDueFor w u)
      (hinv : Inv u) (hp : u.params = s.params) (hrt : u.runTime = runTimeAfter s.params n s.runTime)
      (hdi : u.drumIndex = drumIndexAfter n s.drumIndex) (hle : n ≤ 51) (hge : s.halfCycle = .instruction → 2 ≤ n)
      (h : automaticPass s = exec i u)

theorem automaticPass_cases {s : State} (hs : Inv s) (ha : automatic s = true) : PassCases s := by
  cases automaticPass_outcomes hs ha with
  | fault f hf h => exact .fault f hf (h s.runTime s.drumIndex hs.drumIndex)
  | fetch a w hh hm hv h =>
    exact .fetch a w hm (hs.due hv ⟨rfl, rfl, rfl, rfl⟩ rfl (drumIndexAfter_lt hs.drumIndex _) rfl)
      (h s.runTime s.drumIndex hs.drumIndex)
  | exec i w u lag hi hu hic same lag_le lag_fetch lag_due h =>
    have hp : u.params = s.params := by rw [same]
    have hpass := h s.runTime s.drumIndex hs.drumIndex
    generalize hv : retime (runTimeAfter s.params (lag s.drumIndex) s.runTime)
      (drumIndexAfter (lag s.drumIndex) s.drumIndex) u = v at hpass
    have hinv : Inv v := hv ▸ hs.due (decode_ok hi).1 hu hic (drumIndexAfter_lt hs.drumIndex _) (by
      conv_lhs => rw [same]
      rfl)
    exact .exec i w v (lag s.drumIndex) (hv ▸ hp ▸ hi) (hv ▸ hu) hinv (hv ▸ hp) (hv ▸ rfl) (hv ▸ rfl) (lag_le _)
      (fun hh => lag_fetch hh _) hpass

/-- Settles O40: in an automatic mode a step ends with the fetch or with a data half-cycle, in manual mode it is an effect on
the data registers and the drum. -/
theorem stepKeepsInvariant : Obligations.StepKeepsInvariant := by
  intro s t hs h
  by_cases ha : automatic s = true
  · replace h := (automaticPass_of_step ha h).2
    cases automaticPass_cases hs ha with
    | fault f hf hpass => cases h.symm.trans hpass
    | fetch a w hm hinv hpass => cases h.symm.trans hpass; exact hinv
    | exec i w u n hi hdue hinv hp hrt hdi hle hge hpass => exact hinv.exec hdue hi (hpass.symm.trans h)
  · obtain ⟨da, he⟩ := manualProgramStart_effect (manualProgramStart_of_step (manual_of_not_automatic ha) h).2
    exact hs.dataEffect he

/-! #### Time -/

/-- Outcomes that differ at most in the two counters of time of the next state. -/
inductive SameOutcome : Host.Outcome State Fault Refusal → Host.Outcome State Fault Refusal → Prop where
  | next {s t : State} (h : sameButTime s t) : SameOutcome (.next s) (.next t)
  | fault (f : Fault) : SameOutcome (.fault f) (.fault f)
  | refused (r : Refusal) : SameOutcome (.refused r) (.refused r)

/-- A state that differs in time alone is the same state at another time. -/
theorem sameButTime.eq_retime {s t : State} (h : sameButTime s t) : t = retime t.runTime t.drumIndex s :=
  (congrArg (retime t.runTime t.drumIndex) (Eq.symm h) :)

/-- The data half-cycle of an instruction does not see the time (R315, R316). -/
theorem exec_retime {s : State} (hr : AtRest s) (i : Instr) (r d r' d' : Nat) :
    SameOutcome (exec i (retime r d s)) (exec i (retime r' d' s)) := by
  cases exec_outcomes hr i with
  | fault f hf h => rw [h, h]; exact .fault f
  | halted steps u hu h =>
    obtain ⟨n, -, hn⟩ := h r d
    obtain ⟨n', -, hn'⟩ := h r' d'
    rw [hn, hn']
    exact .next rfl
  | completed steps raised u hu h =>
    obtain ⟨n, -, -, hn⟩ := h r d
    obtain ⟨n', -, -, hn'⟩ := h r' d'
    rw [hn, hn']
    exact .next rfl

/-- A pass from a state of the invariant does not see the time: the fetch waits and reads the same word (R315, R316). -/
theorem automaticPass_retime {s : State} (hs : Inv s) (ha : automatic s = true) {r d r' d' : Nat} (hd : d < 50)
    (hd' : d' < 50) : SameOutcome (automaticPass (retime r d s)) (automaticPass (retime r' d' s)) := by
  cases automaticPass_outcomes hs ha with
  | fault f hf h => rw [h r d hd, h r' d' hd']; exact .fault f
  | fetch a w hh hm hv h => rw [h r d hd, h r' d' hd']; exact .next rfl
  | exec i w u lag hi hu hic same lag_le lag_fetch lag_due h =>
    have hrest : AtRest u := by
      rw [same]
      exact ⟨hs.fillStarted, hs.shiftCount, hs.loopCount⟩
    rw [h r d hd, h r' d' hd']
    exact exec_retime hrest i _ _ _ _

theorem manualProgramStart_retime (s : State) (r d r' d' : Nat) :
    SameOutcome (manualProgramStart (retime r d s)) (manualProgramStart (retime r' d' s)) := by
  cases manualProgramStart_outcomes s with
  | fault f hf h => rw [h, h]; exact .fault f
  | next da u hu h => rw [h, h]; exact .next rfl

/-- A step from a state of the invariant does not see the time (R315, R316). -/
theorem step_retime {s : State} (hs : Inv s) {r d : Nat} (hd : d < 50) : SameOutcome (step s) (step (retime r d s)) := by
  by_cases hr : isReady s = true
  · by_cases ha : automatic s = true
    · rw [step_auto hr ha, step_auto (s := retime r d s) hr ha]
      exact automaticPass_retime (r := s.runTime) hs ha hs.drumIndex hd
    · have hm := manual_of_not_automatic ha
      rw [step_manual hr hm, step_manual (s := retime r d s) hr hm]
      exact manualProgramStart_retime s s.runTime s.drumIndex r d
  · rw [step_of_not_ready hr, step_of_not_ready (s := retime r d s) hr]
    exact .refused _

/-- Settles O43: the second state is the first at another time, and a step does not see the time. -/
theorem timingNeverChangesResults : Obligations.TimingNeverChangesResults := by
  intro s t hs ht hst
  have h := step_retime (r := t.runTime) hs ht.drumIndex
  rw [← hst.eq_retime] at h
  generalize step t = o at h ⊢
  refine ⟨fun s' h' => ?_, fun f h' => ?_, fun r h' => ?_⟩ <;> rw [h'] at h
  · cases h with
    | next h => exact ⟨_, rfl, h⟩
  · cases h; rfl
  · cases h; rfl

/-! #### Every half-cycle ends -/

/-- The cycles of a pass, counted by both counters (R121): those of the fetch, from 2 to 51, and those of the data
half-cycle, from 2 to 164 or a halting STOP's. -/
theorem automaticPass_time {s t : State} (hs : Inv s) (ha : automatic s = true) (h : automaticPass s = .next t) :
    ∃ n, t.runTime = runTimeAfter s.params n s.runTime ∧ t.drumIndex = drumIndexAfter n s.drumIndex ∧
      (s.params.stopHaltCycles = 2 → 2 ≤ n ∧ n ≤ 215 ∧ (s.halfCycle = .instruction → s.halfCycleMode = .run → 4 ≤ n)) := by
  cases automaticPass_cases hs ha with
  | fault f hf hpass => cases h.symm.trans hpass
  | fetch a w hm hinv hpass =>
    cases h.symm.trans hpass
    have hwait := waitCycles_le a s.drumIndex
    refine ⟨waitCycles a s.drumIndex + 2, rfl, rfl, fun _ => ⟨by omega, by omega, fun _ hrun => ?_⟩⟩
    cases hm.symm.trans hrun
  | exec i w u n hi hdue hinv hp hrt hdi hle hge hpass =>
    obtain ⟨k, hk, hkt, hkd⟩ := exec_time hinv.atRest (hpass.symm.trans h)
    rw [hp] at hk
    refine ⟨n + k, ?_, ?_, fun hstop => ⟨by omega, by omega, fun hh _ => ?_⟩⟩
    · rw [hkt, hp, hrt, runTimeAfter_runTimeAfter]
    · rw [hkd, hdi, drumIndexAfter_drumIndexAfter]
    · have := hge hh
      omega

/-- No step from a state of the invariant runs on without end. -/
theorem step_ne_noCompletion {s : State} (hs : Inv s) : step s ≠ .fault .noCompletion := by
  intro h
  by_cases hr : isReady s = true
  · by_cases ha : automatic s = true
    · rw [step_auto hr ha] at h
      cases automaticPass_cases hs ha with
      | fault f hf hpass => cases h.symm.trans hpass; exact hf rfl
      | fetch a w hm hinv hpass => cases h.symm.trans hpass
      | exec i w u n hi hdue hinv hp hrt hdi hle hge hpass => exact exec_complete hinv.atRest (hpass.symm.trans h)
    · rw [step_manual hr (manual_of_not_automatic ha)] at h
      cases manualProgramStart_outcomes s with
      | fault f hf hm => cases h.symm.trans (hm s.runTime s.drumIndex); exact hf rfl
      | next da u hu hm => cases h.symm.trans (hm s.runTime s.drumIndex)
  · rw [step_of_not_ready hr] at h
    cases h

/-- Settles O42: no outcome of a pass is a half-cycle without end, and the cycles of a pass are counted by both counters. -/
theorem everyStepEndsInTime : Obligations.EveryStepEndsInTime := by
  refine fun s hs => ⟨step_ne_noCompletion hs, fun t ha h => ?_⟩
  obtain ⟨n, hrt, hdi, hbounds⟩ := automaticPass_time hs ha (automaticPass_of_step ha h).2
  exact ⟨n, hrt, by rw [hdi, drumIndexAfter_of_lt hs.drumIndex], fun hp => by rw [hrt, runTimeAfter_unbounded hp], hbounds⟩

end Sys2Proof.Machine

namespace Sys2Proof.Machine

/-! ### Which step runs which instruction, and where it stops (spec/40_cycle_controller.md) -/

/-- Settles O7: the wait, the two cycles of the fetch and the split, and the instruction that is then due. -/
theorem stepRunsFetchedInstruction : Obligations.StepRunsFetchedInstruction :=
  fun _ _ _ _ hr ha hm hdue hd har hw hdec => step_eq_exec_fetched hr ha hm hdue hd har hw hdec

/-- With the data half-cycle of `w` due, a step is that of the instruction `w` decodes to (R122). -/
theorem step_eq_exec_due {s : State} {w : Word} {i : Instr} (hr : isReady s = true) (ha : automatic s = true)
    (hdue : dataDueFor w s) (hdec : decode s.params.opcodeMap w = .ok i) : step s = exec i s := by
  obtain ⟨hh, hp, ho, har⟩ := hdue
  rw [step_data hr ha hh, dueDataHalfCycle, dueInstruction_decode hdec hp ho har]

/-- Settles O8: the instruction that is due is the one the word decodes to. -/
theorem stepRunsDueInstruction : Obligations.StepRunsDueInstruction :=
  fun _ _ _ hr ha hdue hdec => step_eq_exec_due hr ha hdue hdec

/-- An instruction half-cycle that stops by name stops the step (R82, R103). -/
theorem step_of_instruction_fault {s : State} {f : Fault} (hr : isReady s = true) (ha : automatic s = true)
    (hh : s.halfCycle = .instruction) (hf : instructionHalfCycle s = .error f) : step s = .fault f := by
  rw [step_auto hr ha, automaticPass, hh]
  simp only [hf]

/-- In half-step mode a step with an instruction half-cycle due is that half-cycle (R123). -/
theorem step_halfStep {s : State} {a : Nat} {w : Word} (hr : isReady s = true) (ha : automatic s = true)
    (hm : s.halfCycleMode = .halfStep) (hdue : instructionDue s) (hd : s.drumIndex < 50) (har : s.ar = some a)
    (hw : memRead s a = .ok w) (hv : w.valid = true) : step s = .next (fetched a w s) := by
  obtain ⟨hh, hic⟩ := hdue
  have hhalf : (fetched a w s).halfCycleMode = .halfStep := hm
  rw [step_auto hr ha, automaticPass, hh]
  simp only [instructionHalfCycle_ok hd hh hic har hw hv, hhalf]

/-- A step that fetches a word whose code is not assigned stops at its data half-cycle (R136). -/
theorem step_fetches_unassigned {s : State} {a : Nat} {w : Word} (hr : isReady s = true) (ha : automatic s = true)
    (hm : s.halfCycleMode = .run) (hdue : instructionDue s) (hd : s.drumIndex < 50) (har : s.ar = some a)
    (hw : memRead s a = .ok w) (hv : w.valid = true) (hc : s.params.opcodeMap.operationOf w.opCode = none) :
    step s = .fault (.unassignedOperation (some w.opCode)) := by
  obtain ⟨hh, hic⟩ := hdue
  have hrun : (fetched a w s).halfCycleMode = .run := hm
  have hnone : dueInstruction (fetched a w s) = .error (.unassignedOperation (some w.opCode)) :=
    dueInstruction_unassigned rfl hc
  rw [step_auto hr ha, automaticPass, hh]
  simp only [instructionHalfCycle_ok hd hh hic har hw hv, hrun, dueDataHalfCycle, hnone]

/-- The decoder calls a valid word unassigned exactly where its code selects nothing (R109). -/
theorem operationOf_of_decode_unassigned {m : OpcodeMap} {w : Word} {c : Nat}
    (h : decode m w = .error (.unassignedCode c)) : m.operationOf w.opCode = none := by
  cases hc : m.operationOf w.opCode with
  | none => rfl
  | some o =>
    by_cases hv : w.valid = true
    · cases h.symm.trans (decode_of_operationOf hv hc)
    · cases h.symm.trans (decode_of_invalid (by simpa using hv))

/-- Settles O10: the fetch and the split stop the instruction half-cycle, the code and the blank OP the data half-cycle. -/
theorem fetchAndDecodeFaults : Obligations.FetchAndDecodeFaults := by
  intro s hr ha hd
  refine ⟨fun hdue har => ?_, fun a hdue har hva => ?_, fun a w hdue har hw hv => ?_,
    fun a w hdue hm har hw hv hdec => ?_, fun c hh ho hc => ?_, fun hh ho => ?_⟩
  · exact step_of_instruction_fault hr ha hdue.1 (instructionHalfCycle_blank hdue.1 hdue.2 har)
  · exact step_of_instruction_fault hr ha hdue.1
      (instructionHalfCycle_invalidAddress hd hdue.1 hdue.2 har (memRead_invalid hva))
  · exact step_of_instruction_fault hr ha hdue.1 (instructionHalfCycle_invalidWord hd hdue.1 hdue.2 har hw hv)
  · exact step_fetches_unassigned hr ha hm hdue hd har hw hv (operationOf_of_decode_unassigned hdec)
  · rw [step_data hr ha hh, dueDataHalfCycle, dueInstruction_unassigned ho (OpcodeMap.operationOf_eq_none hc)]
  · rw [step_data hr ha hh, dueDataHalfCycle, dueInstruction_blank ho]

/-- The two operations that divide. -/
theorem operationKind_eq_divide {i : Instr} (h : i.operation = .div ∨ i.operation = .divru) : operationKind i = .divide := by
  have hi := i.encoding.1
  rcases h with h | h <;> rw [h] at hi <;> rw [← hi] <;> rfl

/-- Where neither a STOP nor a quotient overflow halts, a data half-cycle that answers has completed (R133). -/
theorem exec_completed {i : Instr} {s t : State} (hr : AtRest s)
    (hstop : i.operation = .stop → s.programmedMode = .run ∨ s.params.stopPerformsLookahead = true)
    (hdiv : operationKind i = .divide → s.params.quotientOverflowHalts = false) (h : exec i s = .next t) :
    t.halfCycle = .instruction ∧ t.ic = 4 ∧ t.ar = some i.ia := by
  obtain ⟨steps, u, n, -, ⟨hhalts, -⟩ | ⟨raised, -, -, rfl⟩⟩ := exec_cases hr h
  · exfalso
    rcases hhalts with ⟨hop, hmode, hlook, -⟩ | ⟨hop, hover, -⟩
    · rcases hstop hop with hrun | hlook'
      · cases hmode.symm.trans hrun
      · cases hlook.symm.trans hlook'
    · cases hover.symm.trans (hdiv (operationKind_eq_divide hop))
  · exact ⟨rfl, rfl, rfl⟩

/-- Settles O9: the instruction half-cycle alone, and a data half-cycle that cannot have halted. -/
theorem halfStepReturnsAfterEachHalfCycle : Obligations.HalfStepReturnsAfterEachHalfCycle := by
  constructor
  · intro s a w hr ha hm hdue hd har hw hv
    exact ⟨_, step_halfStep hr ha hm hdue hd har hw hv, rfl, rfl, rfl, rfl, rfl⟩
  · intro s t w i hr ha _ hrest hdue hdec hstop hdiv h
    obtain ⟨-, -, -, hia⟩ := decode_ok hdec
    exact hia ▸ exec_completed hrest hstop hdiv (step_eq_exec_due hr ha hdue hdec ▸ h)

/-! ### NOOP and STOP (spec/40_cycle_controller.md) -/

/-- Settles O12: a NOOP is the lookahead alone. -/
theorem noopCompletes : Obligations.NoopCompletes := exec_noop

/-- With programmed_mode stop a STOP is a halting one (R141). -/
theorem exec_stop_of_stop {s : State} (da ia : Nat) (h : s.programmedMode = .stop) :
    exec (.stop da ia) s = haltingStop da ia s := by
  simp only [exec, execStop, h]

/-- A STOP that halts without lookahead leaves itself due, STOP_HALT_CYCLES cycles on (R141). -/
theorem exec_stop_halts {s : State} (da ia : Nat) (h : s.programmedMode = .stop)
    (hl : s.params.stopPerformsLookahead = false) :
    exec (.stop da ia) s = .next (halted 0 da s.params.stopHaltCycles s) :=
  (exec_stop_of_stop da ia h).trans (haltingStop_halts da ia hl)

/-- Settles O13: a halting STOP by its two forms. -/
theorem stopHalts : Obligations.StopHalts := fun da ia _ h =>
  ⟨exec_stop_halts da ia h, fun hl => (exec_stop_of_stop da ia h).trans (haltingStop_lookahead da ia hl)⟩

/-- The drum two cycles on. -/
theorem drumIndexAfter_two (d : Nat) : drumIndexAfter 2 d = (d + 2) % 50 :=
  Nat.mod_add_mod (d + 1) 50 1

/-- Two cycles under a counter without bound (R31, R121). -/
theorem afterCycles_two {s : State} (hp : s.params.runTimeWidth = none) :
    afterCycles 2 s = { s with runTime := s.runTime + 2, drumIndex := (s.drumIndex + 2) % 50 } := by
  rw [afterCycles, runTimeAfter_unbounded hp, drumIndexAfter_two]

/-- The halt of a STOP leaves the STOP's data half-cycle due (R143). -/
theorem dataDueFor_halted {s : State} {w : Word} {i : Instr} (hdue : dataDueFor w s)
    (hdec : decode s.params.opcodeMap w = .ok i) (n : Nat) : dataDueFor w (halted 0 i.da n s) := by
  obtain ⟨-, -, hda, -⟩ := decode_ok hdec
  obtain ⟨-, hp, ho, -⟩ := hdue
  exact ⟨rfl, hp, ho, congrArg some hda⟩

/-- Settles O15: the halted state has the STOP due, so the next step executes it again, under the mode it then has. -/
theorem haltedStopHaltsAgainOrResumes : Obligations.HaltedStopHaltsAgainOrResumes := by
  intro s t w da ia hr ha hdue hdec hm hl h
  obtain rfl : halted 0 da s.params.stopHaltCycles s = t := by
    rw [step_eq_exec_due hr ha hdue hdec, exec_stop_halts da ia hm hl] at h
    exact Host.Outcome.next.inj h
  have hdue' := dataDueFor_halted hdue hdec s.params.stopHaltCycles
  generalize ht : halted 0 da s.params.stopHaltCycles s = t
  have hagain : step t = .next (afterCycles s.params.stopHaltCycles t) := by
    subst ht
    exact (step_eq_exec_due (s := halted _ _ _ s) hr ha hdue' hdec).trans (exec_stop_halts da ia hm hl)
  refine ⟨hagain, fun h2 hw => ?_, ?_⟩
  · rw [hagain, h2, afterCycles_two (by rw [← ht]; exact hw)]
  · subst ht
    exact (step_eq_exec_due (s := { halted _ _ _ s with programmedMode := .run }) hr ha hdue' hdec).trans
      ((exec_stop_eq_exec_noop da ia rfl).trans (exec_noop da ia _))

/-! ### Load and store (spec/41_load_store.md) -/

/-- Sequence 1 loads the word at the data address (R164). -/
theorem exec_ld {da : Nat} {s : State} {w : Word} (ia : Nat) (hw : memRead s da = .ok w) :
    exec (.ld da ia) s = .next (completed 2 ia false (loadWait da s + 4) { s with dist := w }) :=
  dataHalfCycle_load hw

/-- LD from outside the valid set (R82). -/
theorem exec_ld_fault {da : Nat} {s : State} {f : Fault} (ia : Nat) (hw : memRead s da = .error f) :
    exec (.ld da ia) s = .fault f :=
  dataHalfCycle_loadFault (seq := [.enable, .loadStorage]) rfl rfl hw

/-- Settles O16: the load by its two outcomes. -/
theorem loadDistributorCompletes : Obligations.LoadDistributorCompletes := by
  intro da ia s
  constructor
  · intro w hw
    have hcycles : 1 + loadWait da s + 1 + 2 = loadWait da s + 4 := by omega
    rw [hcycles]
    exact exec_ld ia hw
  · exact fun hva => exec_ld_fault ia (memRead_invalid hva)

/-- STU runs sequence 4 with the load that reads UP (R167). -/
theorem exec_stu (da ia : Nat) (s : State) :
    exec (.stu da ia) s = dataHalfCycle [.enable, .loadUpper, .store] da ia s := rfl

/-- STU's load takes the UP the instruction began with, in any state that still holds it (R161, R167). -/
theorem runMicro_loadUpper {s u : State} (hup : u.up = s.up) :
    runMicro .loadUpper u = .done { u with dist := s.up } := by
  rw [runMicro, hup]

/-- A STU below 2000 stores UP by way of the distributor (R167). -/
theorem exec_stu_of_lt {da : Nat} (ia : Nat) (s : State) (hda : da < 2000) :
    exec (.stu da ia) s =
      .next (completed 3 ia false (lateStoreWait da s + 5)
        { s with dist := s.up, drum := Memory.write s.drum da s.up }) := by
  rw [exec_stu, dataHalfCycle_enableStore (fun _ hup _ => runMicro_loadUpper hup) hda]

/-- A STU at or above 2000 is refused after the distributor has taken UP (R167). -/
theorem exec_stu_of_le {da : Nat} (ia : Nat) (s : State) (hda : 2000 ≤ da) :
    exec (.stu da ia) s = .next (completed 3 ia false 5 { s with dist := s.up, storageSelection := true }) := by
  rw [exec_stu, dataHalfCycle_enableStoreRefused (fun _ hup _ => runMicro_loadUpper hup) hda]

/-- Settles O19: on both sides of 2000 the load has copied UP before the store is tried. -/
theorem storeUpperCompletes : Obligations.StoreUpperCompletes := by
  intro da ia s
  constructor
  · intro hda
    have hcycles : 1 + 1 + lateStoreWait da s + 1 + 2 = lateStoreWait da s + 5 := by omega
    rw [hcycles]
    exact exec_stu_of_lt ia s hda
  · exact exec_stu_of_le ia s

/-- What STDA stores: the distributor with digits 8-5 of LO in the four digits STDA_DEST (R168). -/
def stdaWord (s : State) : Word := copyAddressField s.lo 5 s.dist s.params.stdaDest

/-- What STIA stores: the distributor with digits 4-1 of LO in the four digits STIA_DEST (R169). -/
def stiaWord (s : State) : Word := copyAddressField s.lo 1 s.dist s.params.stiaDest

theorem runMicro_loadDataField (da : Nat) (s : State) :
    runMicro .loadDataField (beginData da s) = .done { beginData da s with dist := stdaWord s } := rfl

theorem runMicro_loadInstructionField (da : Nat) (s : State) :
    runMicro .loadInstructionField (beginData da s) = .done { beginData da s with dist := stiaWord s } := rfl

/-- A STDA below 2000 (R168). -/
theorem exec_stda_of_lt {da : Nat} (ia : Nat) (s : State) (hda : da < 2000) :
    exec (.stda da ia) s = .next (completed 2 ia false (storeWait da s + 4)
      { s with dist := stdaWord s, drum := Memory.write s.drum da (stdaWord s) }) :=
  dataHalfCycle_store (runMicro_loadDataField da s) hda

/-- A STDA at or above 2000 is refused after the distributor has taken the field (R168). -/
theorem exec_stda_of_le {da : Nat} (ia : Nat) (s : State) (hda : 2000 ≤ da) :
    exec (.stda da ia) s = .next (completed 2 ia false 4 { s with dist := stdaWord s, storageSelection := true }) :=
  dataHalfCycle_storeRefused (runMicro_loadDataField da s) hda

/-- A STIA below 2000 (R169). -/
theorem exec_stia_of_lt {da : Nat} (ia : Nat) (s : State) (hda : da < 2000) :
    exec (.stia da ia) s = .next (completed 2 ia false (storeWait da s + 4)
      { s with dist := stiaWord s, drum := Memory.write s.drum da (stiaWord s) }) :=
  dataHalfCycle_store (runMicro_loadInstructionField da s) hda

/-- A STIA at or above 2000 is refused after the distributor has taken the field (R169). -/
theorem exec_stia_of_le {da : Nat} (ia : Nat) (s : State) (hda : 2000 ≤ da) :
    exec (.stia da ia) s = .next (completed 2 ia false 4 { s with dist := stiaWord s, storageSelection := true }) :=
  dataHalfCycle_storeRefused (runMicro_loadInstructionField da s) hda

/-- Settles O20: the four readings of the destinations digit by digit, and the store on both sides of 2000. -/
theorem storeAddressFieldsComplete : Obligations.StoreAddressFieldsComplete := by
  intro da ia s a b
  refine ⟨fun h => ?_, fun h => ?_, fun h => ?_, fun h => ?_, fun hda => ?_, fun hda => ?_⟩
  · simp only [a, h]; rfl
  · simp only [a, h]; rfl
  · simp only [b, h]; rfl
  · simp only [b, h]; rfl
  · have hcycles : 1 + storeWait da s + 1 + 2 = storeWait da s + 4 := by omega
    rw [hcycles]
    exact ⟨exec_stda_of_lt ia s hda, exec_stia_of_lt ia s hda⟩
  · exact ⟨exec_stda_of_le ia s hda, exec_stia_of_le ia s hda⟩

/-- The cell of a drum in canonical form that has been written reads as the word written (R90). -/
theorem Memory.read_write_self {m : Memory} (hm : Memory.wf m = true) (a : Nat) (w : Word) :
    Memory.read (Memory.write m a w) a = w := by
  rw [Memory.read_write w hm, if_pos rfl]

/-- Settles O21: the store writes the cell, and the load reads the cell whatever the distributor holds then. -/
theorem storedWordLoadsBack : Obligations.StoredWordLoadsBack := by
  intro da ia ib s hwf hda
  refine ⟨_, exec_std_of_lt ia s hda, rfl, fun w' => ⟨_, exec_ld ib ((memRead_drum hda).trans ?_), rfl⟩⟩
  exact congrArg Except.ok (Memory.read_write_self hwf da s.dist)

/-- Settles O22: the successor is that of the word fetched, and the cell reads as the distributor the store wrote. -/
theorem storeOverOwnCellKeepsSuccessor : Obligations.StoreOverOwnCellKeepsSuccessor := by
  intro s a ia w hr ha hm hdue hd hwf hlt har hw hdec
  refine ⟨_, (step_eq_exec_fetched hr ha hm hdue hd har hw hdec).trans (exec_std_of_lt ia _ hlt), rfl, ?_, rfl⟩
  exact (memRead_drum hlt).trans (congrArg Except.ok (Memory.read_write_self hwf a s.dist))

end Sys2Proof.Machine

namespace Sys2Proof.Machine

/-! ### The adder (spec/42_add_subtract.md) -/

theorem accValue_natAbs_lt (s : State) : (accValue s).natAbs < 10 ^ 20 := by
  have := accMag_lt s
  rw [accValue]
  cases s.lo.sign <;> simp only [signValue] <;> omega

theorem operandValue_natAbs_lt (e : Word) (half : Half) : (operandValue e half).natAbs < 10 ^ 20 := by
  have := e.mag_lt
  cases half <;> simp only [operandValue, Config.wordBase] <;> cases e.sign <;> simp only [signValue] <;> omega

/-- The accumulator after an addition holds the low 20 digits of the sum's magnitude (R182). -/
theorem accMag_addToAccumulator (e : Word) (half : Half) (s : State) :
    accMag (addToAccumulator e half s) = (accValue s + operandValue e half).natAbs % 10 ^ 20 := by
  simp only [accMag, addToAccumulator, Word.mag_ofNat, Config.accBase, Config.wordBase]
  omega

/-- The sign of a sum is that of the number, where it is not zero (R181). -/
theorem signValue_sumSign_mul (Z : SignRule) (r : Int) (p q : Sign) : signValue (sumSign Z r p q) * (r.natAbs : Int) = r := by
  rcases Int.lt_trichotomy r 0 with h | h | h
  · rw [sumSign, if_neg (by omega), if_pos h]
    simp only [signValue]
    omega
  · simp [h]
  · rw [sumSign, if_pos h]
    simp only [signValue]
    omega

/-- A sum that fits is the value the accumulator then holds (R189 c). -/
theorem accValue_addToAccumulator {e : Word} {half : Half} {s : State}
    (h : (accValue s + operandValue e half).natAbs < 10 ^ 20) :
    accValue (addToAccumulator e half s) = accValue s + operandValue e half := by
  rw [accValue, accMag_addToAccumulator, Nat.mod_eq_of_lt h]
  exact signValue_sumSign_mul _ _ _ _

theorem overflow_addToAccumulator (e : Word) (half : Half) (s : State) :
    (addToAccumulator e half s).overflow =
      (s.overflow || decide (10 ^ 20 ≤ (accValue s + operandValue e half).natAbs)) := rfl

/-- An operand of the upper half leaves the digits of LO where the sum does not change sign (R189 e). -/
theorem lo_mag_addToAccumulator_upper {e : Word} {s : State}
    (hlo : arithmeticWord s.lo = true)
    (h : 0 ≤ accValue s ∧ 0 ≤ accValue s + operandValue e .upper ∨ accValue s ≤ 0 ∧ accValue s + operandValue e .upper ≤ 0) :
    (addToAccumulator e .upper s).lo.mag = s.lo.mag := by
  have hlt := s.lo.mag_lt
  have hmag : (addToAccumulator e .upper s).lo.mag = (accValue s + operandValue e .upper).natAbs % 10 ^ 10 := by
    simp only [addToAccumulator, Word.mag_ofNat, Config.accBase, Config.wordBase]
    omega
  rw [hmag]
  rw [operandValue_upper, accValue, accMag, Config.wordBase] at h ⊢
  generalize signValue e.sign * (e.mag : Int) = k at h ⊢
  cases hs : s.lo.sign with
  | plus => simp only [hs, signValue] at h ⊢; omega
  | minus => simp only [hs, signValue] at h ⊢; omega
  | dontCare => exact absurd hs ((arithmeticWord_iff s.lo).mp hlo).2

/-- Settles O25: the magnitudes of the two numbers are below 10^20, so a sum that does not fit is below 2·10^20. -/
theorem adderLaws : Obligations.AdderLaws := by
  intro s e half he hlo v o t
  have hv : v.natAbs < 10 ^ 20 := accValue_natAbs_lt s
  have ho : o.natAbs < 10 ^ 20 := operandValue_natAbs_lt e half
  refine ⟨fun h => ⟨accValue_addToAccumulator h, ?_⟩, fun h => ⟨?_, ?_, ?_⟩, ?_, rfl⟩
  · rw [overflow_addToAccumulator, decide_eq_false (Nat.not_le.mpr h), Bool.or_false]
  · rw [accMag_addToAccumulator]
    change (v + o).natAbs % 10 ^ 20 + _ = _
    omega
  · rw [overflow_addToAccumulator, decide_eq_true h, Bool.or_true]
  · omega
  · rintro rfl h
    exact lo_mag_addToAccumulator_upper hlo h

/-! ### Multiply and divide (spec/43_multiply_divide.md) -/

/-- The two orders of a product's parts: the laws of the multiply step begin with the addend, R216 with the product. -/
theorem product_comm (u l d : Nat) : l * 10000000000 + u * d = u * d + l * 10 ^ 10 := Nat.add_comm _ _

/-- The rule of signs of exact multiplication (R223). -/
theorem signBy_productSign {a b : Sign} (ha : a ≠ .dontCare) (hb : b ≠ .dontCare) :
    signBy productSign a b = if a = b then .plus else .minus := by
  cases a with
  | plus => cases b with
    | plus | minus => rfl
    | dontCare => exact absurd rfl hb
  | minus => cases b with
    | plus | minus => rfl
    | dontCare => exact absurd rfl hb
  | dontCare => exact absurd rfl ha

/-- Zeros of one sign added under the default ZERO_SIGN keep that sign (R183). -/
theorem zeroSums_keepFirstSign {sg : Sign} (h : sg ≠ .dontCare) (n : Nat) : zeroSums keepFirstSign sg n sg = sg := by
  induction n with
  | zero => rfl
  | succ n ih => rw [zeroSums, signBy_keepFirstSign h, ih]

/-- The sign of LO that R213's adds leave, as the statement of R216 writes it. -/
theorem lowAfter_eq (Z : SignRule) (sg sl : Sign) (A D l : Nat) :
    lowAfter Z sg sl A D l = if D = 0 ∧ A = 0 then zeroSums Z sg l sl else sg := by
  simp only [lowAfter, and_comm]

/-- Settles O28: the product is the sequencer's, and the sign of LO that of its zero sums. -/
theorem multiplyIsExact : Obligations.MultiplyIsExact := by
  intro da ia s w hr hw hd hu hl p sg lowSign
  have hsw := ((arithmeticWord_iff w).mp hd).2
  have hsl := ((arithmeticWord_iff s.lo).mp hl).2
  refine ⟨fun h => ?_, fun h => ?_, fun h => ?_, fun hp => ?_⟩
  · simp only [sg, h, signBy_keepFirstSign hsl]
  · have hzero := zeroSums_keepFirstSign (sg := sg) (signBy_ne hsw hsl) (lastDigit 10 s.up.mag)
    simp only [lowSign, h, hzero, ite_self]
  · simp only [sg, h, signBy_productSign hsw hsl]
  · have hp' : s.lo.mag * 10000000000 + s.up.mag * w.mag = p := product_comm _ _ _
    have hrun := dataHalfCycle_multiply (ia := ia) hw hd hu hl hr.shiftCount hr.loopCount (hp' ▸ hp)
    rw [hp', lowAfter_eq] at hrun
    have hcycles : 1 + loadWait da s + 1 + (10 + digitSum s.up) + 1 + 2 = loadWait da s + 15 + digitSum s.up := by omega
    rw [hcycles]
    exact hrun

/-- Settles O29: the run of the sequencer is that of the words, the sign and the flag alone. -/
theorem multiplyOverflowIsFlagged : Obligations.MultiplyOverflowIsFlagged := by
  intro da ia s w hr hw hd hu hl hp
  have hsw := ((arithmeticWord_iff w).mp hd).2
  have hsl := ((arithmeticWord_iff s.lo).mp hl).2
  obtain ⟨A, k, hk, hrun⟩ := dataHalfCycle_multiplyOverflow (Z := s.params.zeroSign) s.overflow hd hu hl
    (signBy_ne (r := s.params.multSign) hsw hsl) (product_comm _ _ _ ▸ hp)
  have hrun := hrun da ia s hw rfl rfl rfl rfl rfl hr.shiftCount hr.loopCount
  refine ⟨Word.ofNat _ (A / 10000000000), Word.ofNat _ (A % 10000000000), k, hk, Word.valid_ofNat _ _,
    Word.valid_ofNat _ _, Word.sign_ofNat _ _, rfl, fun h => ?_, ?_⟩
  · rw [Word.sign_ofNat, h, signBy_keepFirstSign hsl]
  · have hcycles : 1 + loadWait da s + 1 + k + 1 + 2 = loadWait da s + 5 + k := by omega
    rw [hcycles]
    exact hrun

/-- Settles O30: the quotient has ten digits, so its word's digit sum is the sequencer's count of subtractions. -/
theorem divideIsExact : Obligations.DivideIsExact := by
  intro da ia s w hr hw hd hu hl hlt n lo cycles
  have hq : n / w.mag < 10000000000 := quotient_lt hlt
  have hmag : lo.mag = n / w.mag := (Word.mag_ofNat _ _).trans (Nat.mod_eq_of_lt hq)
  have hcycles : cycles = loadWait da s + 25 + digitsSum 10 (n / w.mag) := by
    simp only [cycles, digitSum_eq, hmag]
    omega
  rw [hcycles]
  exact ⟨hmag, dataHalfCycle_divide (r := false) hw hd hu hl hr.shiftCount hr.loopCount hlt,
    dataHalfCycle_divide (r := true) hw hd hu hl hr.shiftCount hr.loopCount hlt⟩

/-- Settles O31: both divisions run the same eleven calls, and the parameter says how the eleventh ends. -/
theorem quotientOverflowEndsTheDivision : Obligations.QuotientOverflowEndsTheDivision := by
  intro da ia s w hr hw hd hu hl hle u goesOn halts
  have hu' : overflowedQuotient w s = u := by
    simp only [overflowedQuotient, u]
    rw [← Word.ofNat_mod s.up.sign]
    rfl
  have hgoes : goesOn = .next (completed 4 ia false (loadWait da s + 16) (overflowedQuotient w s)) := by
    rw [hu']
    have : 1 + loadWait da s + 1 + 11 + 1 + 2 = loadWait da s + 16 := by omega
    simp only [goesOn, this]
  have hhalts : halts = .next (halted 2 da (loadWait da s + 13) (overflowedQuotient w s)) := by
    rw [hu']
    have : 1 + loadWait da s + 1 + 11 = loadWait da s + 13 := by omega
    simp only [halts, this]
  rw [hgoes, hhalts]
  exact ⟨fun hh => ⟨dataHalfCycle_divideOverflow (r := false) hw hd hu hl hr.shiftCount hr.loopCount hle hh,
      dataHalfCycle_divideOverflow (r := true) hw hd hu hl hr.shiftCount hr.loopCount hle hh⟩,
    fun hh => ⟨dataHalfCycle_divideHalts (r := false) hw hd hu hl hr.shiftCount hr.loopCount hle hh,
      dataHalfCycle_divideHalts (r := true) hw hd hu hl hr.shiftCount hr.loopCount hle hh⟩⟩

end Sys2Proof.Machine

namespace Sys2Proof.Machine

/-! ### Frames: what each kind of operation can have done (spec/30_encoding.md R106, R107) -/

/-- The sequence of an arithmetic operation: enable, load, its own step, release (R134). -/
inductive ArithmeticExec (i : Instr) : Prop where
  | add (form : OperandForm) (half : Half) (hk : operationKind i = .accumulate)
      (h : ∀ s, exec i s = dataHalfCycle (accumulateSequence .accumulate form half) i.da i.ia s)
  | reset (form : OperandForm) (half : Half) (hk : operationKind i = .reset)
      (h : ∀ s, exec i s = dataHalfCycle (accumulateSequence .reset form half) i.da i.ia s)
  | multiply (hk : operationKind i = .multiply)
      (h : ∀ s, exec i s = dataHalfCycle [.enable, .loadStorage, .multiply, .release] i.da i.ia s)
  | divide (r : Bool) (hk : operationKind i = .divide) (hr : r = true → ∃ da ia, i = .divru da ia)
      (h : ∀ s, exec i s = dataHalfCycle [.enable, .loadStorage, .divide r, .release] i.da i.ia s)

/-- An operation that reads a data word is LD or one of the fifteen arithmetic operations. -/
theorem load_or_arithmetic {i : Instr} (hc : operationKind i ≠ .control) (hs : operationKind i ≠ .store) :
    (∃ da ia, i = .ld da ia) ∨ ArithmeticExec i := by
  cases i with
  | noop da ia => exact absurd rfl hc
  | stop da ia => exact absurd rfl hc
  | std da ia => exact absurd rfl hs
  | stl da ia => exact absurd rfl hs
  | stu da ia => exact absurd rfl hs
  | stda da ia => exact absurd rfl hs
  | stia da ia => exact absurd rfl hs
  | ld da ia => exact .inl ⟨da, ia, rfl⟩
  | au da ia => exact .inr (.add .plain .upper rfl fun _ => rfl)
  | su da ia => exact .inr (.add .negated .upper rfl fun _ => rfl)
  | al da ia => exact .inr (.add .plain .lower rfl fun _ => rfl)
  | sl da ia => exact .inr (.add .negated .lower rfl fun _ => rfl)
  | aabl da ia => exact .inr (.add .absolute .lower rfl fun _ => rfl)
  | sabl da ia => exact .inr (.add .negatedAbsolute .lower rfl fun _ => rfl)
  | rau da ia => exact .inr (.reset .plain .upper rfl fun _ => rfl)
  | rsu da ia => exact .inr (.reset .negated .upper rfl fun _ => rfl)
  | ral da ia => exact .inr (.reset .plain .lower rfl fun _ => rfl)
  | rsl da ia => exact .inr (.reset .negated .lower rfl fun _ => rfl)
  | raabl da ia => exact .inr (.reset .absolute .lower rfl fun _ => rfl)
  | rsabl da ia => exact .inr (.reset .negatedAbsolute .lower rfl fun _ => rfl)
  | mult da ia => exact .inr (.multiply rfl fun _ => rfl)
  | div da ia => exact .inr (.divide false rfl (fun h => absurd h Bool.false_ne_true) fun _ => rfl)
  | divru da ia => exact .inr (.divide true rfl (fun _ => ⟨da, ia, rfl⟩) fun _ => rfl)

/-- An arithmetic operation stops where its load does (R82). -/
theorem ArithmeticExec.loadFault {i : Instr} (hi : ArithmeticExec i) {s : State} {f : Fault}
    (hw : memRead s i.da = .error f) : exec i s = .fault f := by
  cases hi with
  | add form half hk h => exact (h s).trans (dataHalfCycle_loadFault rfl rfl hw)
  | reset form half hk h => exact (h s).trans (dataHalfCycle_loadFault rfl rfl hw)
  | multiply hk h => exact (h s).trans (dataHalfCycle_loadFault rfl rfl hw)
  | divide r hk hr h => exact (h s).trans (dataHalfCycle_loadFault rfl rfl hw)

/-- Settles O27: LD and the fifteen arithmetic operations begin with the same load. -/
theorem loadOutsideValidSetFaults : Obligations.LoadOutsideValidSetFaults := by
  intro i s hc hst hva
  rcases load_or_arithmetic hc hst with ⟨da, ia, rfl⟩ | hi
  · exact exec_ld_fault ia (memRead_invalid hva)
  · exact hi.loadFault (memRead_invalid hva)

/-- An addition, a multiplication or a division stops on operands without a value (R185, R322). -/
theorem ArithmeticExec.operandFault {i : Instr} (hi : ArithmeticExec i) (hk : operationKind i ≠ .reset) {s : State} {w : Word}
    (hr : AtRest s) (hw : memRead s i.da = .ok w)
    (hbad : arithmeticWord w = false ∨ s.up.valid = false ∨ arithmeticWord s.lo = false) :
    exec i s = .fault .invalidOperand := by
  cases hi with
  | add form half hk' h =>
    exact (h s).trans (dataHalfCycle_accumulateFault hw hr.fillStarted (hbad.imp_right fun hbad => ⟨rfl, hbad⟩))
  | reset form half hk' h => exact absurd hk' hk
  | multiply hk' h => exact (h s).trans (dataHalfCycle_multiplyFault hw hbad)
  | divide r hk' hr h => exact (h s).trans (dataHalfCycle_divideFault hw hbad)

/-- A reset operation stops on an operand without a value (R185). -/
theorem ArithmeticExec.resetFault {i : Instr} (hi : ArithmeticExec i) (hk : operationKind i = .reset) {s : State} {w : Word}
    (hr : AtRest s) (hw : memRead s i.da = .ok w) (hbad : arithmeticWord w = false) : exec i s = .fault .invalidOperand := by
  cases hi with
  | reset form half hk' h => exact (h s).trans (dataHalfCycle_accumulateFault hw hr.fillStarted (.inl hbad))
  | add form half hk' h => cases hk.symm.trans hk'
  | multiply hk' h => cases hk.symm.trans hk'
  | divide r hk' hr h => cases hk.symm.trans hk'

/-- The kinds of operation that compute. -/
def OperationKind.arithmetic (k : OperationKind) : Prop := k = .accumulate ∨ k = .reset ∨ k = .multiply ∨ k = .divide

theorem arithmeticExec_of_kind {i : Instr} (hk : (operationKind i).arithmetic) : ArithmeticExec i := by
  have hne : operationKind i ≠ .control ∧ operationKind i ≠ .store ∧ operationKind i ≠ .load := by
    rcases hk with hk | hk | hk | hk <;> simp [hk]
  obtain ⟨hc, hst, hl⟩ := hne
  rcases load_or_arithmetic hc hst with ⟨da, ia, rfl⟩ | hi
  · exact absurd rfl hl
  · exact hi

/-- Settles O26: the two readings of the operands, by the kind of the operation. -/
theorem arithmeticOperandFaults : Obligations.ArithmeticOperandFaults := by
  refine fun i s w hr hw => ⟨fun hk hbad => ?_, fun hk hbad => ?_⟩
  · have hne : operationKind i ≠ .reset := by rcases hk with hk | hk | hk <;> simp [hk]
    have hi : ArithmeticExec i :=
      arithmeticExec_of_kind (hk.imp_right fun hk => .inr hk)
    exact hi.operandFault hne hr hw hbad
  · exact (arithmeticExec_of_kind (.inr (.inl hk))).resetFault hk hr hw hbad

/-- What a data half-cycle leaves of the effect `u` of its operation, whether it halted or completed: all but the address
register, the half-cycle, the cursors and the time. -/
structure DataKept (u t : State) : Prop where
  dist : t.dist = u.dist
  up : t.up = u.up
  lo : t.lo = u.lo
  pr : t.pr = u.pr
  op : t.op = u.op
  drum : t.drum = u.drum
  overflow : t.overflow = u.overflow
  storageSelection : t.storageSelection = u.storageSelection
  fillStarted : t.fillStarted = u.fillStarted
  shiftCount : t.shiftCount = u.shiftCount
  loopCount : t.loopCount = u.loopCount

theorem completed_kept (steps ia : Nat) (raised : Bool) (n : Nat) (u : State) :
    DataKept u (completed steps ia raised n u) := by constructor <;> rfl

theorem halted_kept (steps da n : Nat) (u : State) : DataKept u (halted steps da n u) := by constructor <;> rfl

/-- What an operation can have made of the state `s` when it answers, by its kind. -/
inductive OperationEffect (i : Instr) (s : State) : State → Prop where
  | control (hk : operationKind i = .control) : OperationEffect i s s
  | load (hk : operationKind i = .load) (w : Word) : OperationEffect i s { s with dist := w }
  | store (hk : operationKind i = .store) (w : Word) (hlt : i.da < 2000) (hstd : ∀ da ia, i = .std da ia → w = s.dist) :
      OperationEffect i s { s with dist := w, drum := Memory.write s.drum i.da w }
  | refused (hk : operationKind i = .store) (w : Word) (hle : 2000 ≤ i.da) (hstd : ∀ da ia, i = .std da ia → w = s.dist) :
      OperationEffect i s { s with dist := w, storageSelection := true }
  | arithmetic (hk : (operationKind i).arithmetic) (w up lo : Word) (overflow : Bool) (hw : memRead s i.da = .ok w)
      (hov : overflow = s.overflow ∨ overflow = true ∧ operationKind i ≠ .reset)
      (hup : up.sign = s.up.sign ∨ operationKind i = .reset ∨ operationKind i = .multiply ∨ ∃ da ia, i = .divru da ia) :
      OperationEffect i s { s with dist := w, up := up, lo := lo, overflow := overflow }

/-- The outcome of an operation that answers: its effect, and the end of its data half-cycle. -/
def Effected (i : Instr) (s : State) (o : Host.Outcome State Fault Refusal) : Prop :=
  ∀ t, o = .next t → ∃ u, OperationEffect i s u ∧ DataKept u t

theorem Effected.fault {i : Instr} {s : State} {f : Fault} : Effected i s (.fault f) := fun _ h => by cases h

theorem Effected.completed {i : Instr} {s u : State} (hu : OperationEffect i s u) (steps ia : Nat) (raised : Bool) (n : Nat) :
    Effected i s (.next (completed steps ia raised n u)) := by
  rintro t ⟨⟩
  exact ⟨u, hu, completed_kept _ _ _ _ _⟩

theorem Effected.halted {i : Instr} {s u : State} (hu : OperationEffect i s u) (steps da n : Nat) :
    Effected i s (.next (halted steps da n u)) := by
  rintro t ⟨⟩
  exact ⟨u, hu, halted_kept _ _ _ _⟩

/-- The effect of an addition: the sum keeps UP's sign and can only raise overflow (R181, R182). -/
theorem OperationEffect.sum {i : Instr} {s : State} {w : Word} (hk : operationKind i = .accumulate)
    (hw : memRead s i.da = .ok w) (e : Word) (half : Half) :
    OperationEffect i s (addToAccumulator e half { s with dist := w }) := by
  refine .arithmetic (.inl hk) w _ _ _ hw ?_ (.inl rfl)
  generalize sumOverflows _ = carry
  cases carry with
  | false => exact .inl (Bool.or_false _)
  | true => exact .inr ⟨Bool.or_true _, by simp [hk]⟩

/-- The effect of a reset operation: both halves are written and no flag (R188). -/
theorem OperationEffect.loaded {i : Instr} {s : State} {w : Word} (hk : operationKind i = .reset)
    (hw : memRead s i.da = .ok w) (e : Word) (half : Half) :
    OperationEffect i s (resetLoad e half { s with dist := w }) := by
  cases half <;> exact .arithmetic (.inr (.inl hk)) w _ _ _ hw (.inl rfl) (.inr (.inl hk))

/-- Operands that have a value, or not. -/
theorem operands_ok_or (w u l : Word) : (arithmeticWord w = true ∧ u.valid = true ∧ arithmeticWord l = true) ∨
    (arithmeticWord w = false ∨ u.valid = false ∨ arithmeticWord l = false) :=
  (em _).imp_right operands_cases

/-- The effect of a multiplication, whether the product fits or not (R216). -/
theorem multiply_effected {i : Instr} {s : State} {w : Word} (hk : operationKind i = .multiply) (hr : AtRest s)
    (hw : memRead s i.da = .ok w) :
    Effected i s (dataHalfCycle [.enable, .loadStorage, .multiply, .release] i.da i.ia s) := by
  have hka : (operationKind i).arithmetic := .inr (.inr (.inl hk))
  rcases operands_ok_or w s.up s.lo with ⟨hd, hu, hl⟩ | hbad
  · by_cases hfit : s.lo.mag * 10000000000 + s.up.mag * w.mag < 100000000000000000000
    · rw [dataHalfCycle_multiply hw hd hu hl hr.shiftCount hr.loopCount hfit]
      exact .completed (.arithmetic hka w _ _ _ hw (.inl rfl) (.inr (.inr (.inl hk)))) _ _ _ _
    · have hg := signBy_ne (r := s.params.multSign) ((arithmeticWord_iff w).mp hd).2 ((arithmeticWord_iff s.lo).mp hl).2
      obtain ⟨A, k, -, h⟩ := dataHalfCycle_multiplyOverflow (Z := s.params.zeroSign) s.overflow hd hu hl hg
        (Nat.le_of_not_lt hfit)
      rw [h i.da i.ia s hw rfl rfl rfl rfl rfl hr.shiftCount hr.loopCount]
      exact .completed (.arithmetic hka w _ _ _ hw (.inr ⟨rfl, by simp [hk]⟩) (.inr (.inr (.inl hk)))) _ _ _ _
  · rw [dataHalfCycle_multiplyFault hw hbad]
    exact .fault

/-- The effect of a division: only the form that resets the upper half writes UP's sign, and only a quotient overflow the
flag (R220 to R222). -/
theorem divide_effected {i : Instr} {s : State} {w : Word} {r : Bool} (hk : operationKind i = .divide)
    (hdivru : r = true → ∃ da ia, i = .divru da ia) (hr : AtRest s) (hw : memRead s i.da = .ok w) :
    Effected i s (dataHalfCycle [.enable, .loadStorage, .divide r, .release] i.da i.ia s) := by
  have hka : (operationKind i).arithmetic := .inr (.inr (.inr hk))
  rcases operands_ok_or w s.up s.lo with ⟨hd, hu, hl⟩ | hbad
  · by_cases hlt : s.up.mag < w.mag
    · rw [dataHalfCycle_divide hw hd hu hl hr.shiftCount hr.loopCount hlt]
      refine .completed (.arithmetic hka w _ _ _ hw (.inl rfl) ?_) _ _ _ _
      cases r with
      | false => exact .inl rfl
      | true => exact .inr (.inr (.inr (hdivru rfl)))
    · have hle := Nat.le_of_not_lt hlt
      have heffect : OperationEffect i s (overflowedQuotient w s) :=
        .arithmetic hka w _ _ _ hw (.inr ⟨rfl, by simp [hk]⟩) (.inl rfl)
      cases hh : s.params.quotientOverflowHalts with
      | false =>
        rw [dataHalfCycle_divideOverflow hw hd hu hl hr.shiftCount hr.loopCount hle hh]
        exact .completed heffect _ _ _ _
      | true =>
        rw [dataHalfCycle_divideHalts hw hd hu hl hr.shiftCount hr.loopCount hle hh]
        exact .halted heffect _ _ _
  · rw [dataHalfCycle_divideFault hw hbad]
    exact .fault

/-- What the fifteen arithmetic operations can do. -/
theorem ArithmeticExec.effected {i : Instr} (hi : ArithmeticExec i) {s : State} (hr : AtRest s) : Effected i s (exec i s) := by
  cases hw : memRead s i.da with
  | error f => rw [hi.loadFault hw]; exact .fault
  | ok w =>
    cases hi with
    | add form half hk h =>
      rw [h]
      rcases operands_ok_or w s.up s.lo with ⟨hd, hu, hl⟩ | hbad
      · rw [dataHalfCycle_accumulate hw hr.fillStarted hd hu hl]
        exact .completed (.sum hk hw _ half) _ _ _ _
      · rw [dataHalfCycle_accumulateFault hw hr.fillStarted (hbad.imp_right fun hbad => ⟨rfl, hbad⟩)]
        exact .fault
    | reset form half hk h =>
      rw [h]
      by_cases hd : arithmeticWord w = true
      · rw [dataHalfCycle_reset hw hr.fillStarted hd]
        exact .completed (.loaded hk hw _ half) _ _ _ _
      · rw [dataHalfCycle_accumulateFault hw hr.fillStarted (.inl (by simpa using hd))]
        exact .fault
    | multiply hk h => exact h s ▸ multiply_effected hk hr hw
    | divide r hk hdivru h => exact h s ▸ divide_effected hk hdivru hr hw

/-- What a STOP can do: pass cycles, with the lookahead or without (R141, R142). -/
theorem stop_effected (da ia : Nat) (s : State) : Effected (.stop da ia) s (exec (.stop da ia) s) := by
  cases hm : s.programmedMode with
  | run =>
    rw [exec_stop_eq_exec_noop da ia hm, exec_noop]
    exact .completed (.control rfl) _ _ _ _
  | stop =>
    rw [exec_stop_of_stop da ia hm]
    cases hl : s.params.stopPerformsLookahead with
    | false => rw [haltingStop_halts da ia hl]; exact .halted (.control rfl) _ _ _
    | true => rw [haltingStop_lookahead da ia hl]; exact .completed (.control rfl) _ _ _ _

/-- A store answers as it does on the two sides of 2000 (R163). -/
theorem store_effected {i : Instr} {s : State} {w : Word} {o : Host.Outcome State Fault Refusal} {steps n n' : Nat}
    (hk : operationKind i = .store) (hstd : ∀ da ia, i = .std da ia → w = s.dist)
    (hlt : i.da < 2000 → o = .next (completed steps i.ia false n { s with dist := w, drum := Memory.write s.drum i.da w }))
    (hle : 2000 ≤ i.da → o = .next (completed steps i.ia false n' { s with dist := w, storageSelection := true })) :
    Effected i s o := by
  rcases Nat.lt_or_ge i.da 2000 with hda | hda
  · exact hlt hda ▸ .completed (.store hk w hda hstd) _ _ _ _
  · exact hle hda ▸ .completed (.refused hk w hda hstd) _ _ _ _

/-- Everything an operation can do from a state at rest, by its kind. -/
theorem exec_effected {s : State} (hr : AtRest s) (i : Instr) : Effected i s (exec i s) := by
  by_cases hc : operationKind i = .control
  · cases i with
    | noop da ia => exact exec_noop da ia s ▸ .completed (.control rfl) _ _ _ _
    | stop da ia => exact stop_effected da ia s
    | _ => cases hc
  by_cases hst : operationKind i = .store
  · cases i with
    | std da ia => exact store_effected rfl (fun _ _ _ => rfl) (exec_std_of_lt ia s) (exec_std_of_le ia s)
    | stl da ia => exact store_effected rfl (fun _ _ h => by cases h) (exec_stl_of_lt ia s) (exec_stl_of_le ia s)
    | stu da ia => exact store_effected rfl (fun _ _ h => by cases h) (exec_stu_of_lt ia s) (exec_stu_of_le ia s)
    | stda da ia => exact store_effected rfl (fun _ _ h => by cases h) (exec_stda_of_lt ia s) (exec_stda_of_le ia s)
    | stia da ia => exact store_effected rfl (fun _ _ h => by cases h) (exec_stia_of_lt ia s) (exec_stia_of_le ia s)
    | _ => cases hst
  rcases load_or_arithmetic hc hst with ⟨da, ia, rfl⟩ | hi
  · cases hw : memRead s da with
    | error f => exact exec_ld_fault ia hw ▸ .fault
    | ok w => exact exec_ld ia hw ▸ .completed (.load rfl w) _ _ _ _
  · exact hi.effected hr

/-- No operation writes the program register, the operation register or the sequencer it finds at rest. -/
theorem OperationEffect.kept {i : Instr} {s u : State} (h : OperationEffect i s u) (hr : AtRest s) :
    u.pr = s.pr ∧ u.op = s.op ∧ AtRest u := by
  obtain ⟨hf, hsc, hlc⟩ := hr
  cases h <;> exact ⟨rfl, rfl, hf, hsc, hlc⟩

/-- The frame of every operation: the program register, the operation register, the sequencers and the host's state. -/
theorem exec_frame {i : Instr} {s t u : State} (hr : AtRest s) (h : exec i s = .next t) (hu : OperationEffect i s u)
    (ht : DataKept u t) : t.pr = s.pr ∧ t.op = s.op ∧ AtRest t ∧ HostStateKept s t := by
  obtain ⟨hpr, hop, hrest⟩ := hu.kept hr
  exact ⟨ht.pr.trans hpr, ht.op.trans hop,
    ⟨ht.fillStarted.trans hrest.fillStarted, ht.shiftCount.trans hrest.shiftCount, ht.loopCount.trans hrest.loopCount⟩,
    (exec_kept h).1⟩

/-- Settles O32: the effects of the two kinds. -/
theorem controlAndLoadFrame : Obligations.ControlAndLoadFrame := by
  intro i s t hk hr h
  obtain ⟨u, hu, ht⟩ := exec_effected hr i t h
  obtain ⟨hpr, hop, hrest, hhost⟩ := exec_frame hr h hu ht
  cases hu with
  | control hc =>
    exact ⟨fun _ => ht.dist, ht.up, ht.lo, ht.overflow, ht.storageSelection, hpr, hop, hrest, hhost, fun a => by rw [ht.drum]⟩
  | load hc w =>
    exact ⟨fun hc' => (by cases hc.symm.trans hc'), ht.up, ht.lo, ht.overflow, ht.storageSelection, hpr, hop, hrest, hhost,
      fun a => by rw [ht.drum]⟩
  | store hs | refused hs => simp [hs] at hk
  | arithmetic ha => rcases ha with ha | ha | ha | ha <;> simp [ha] at hk

/-- The store address of a store (R163). -/
theorem storeAddress_of_store {i : Instr} (hk : operationKind i = .store) :
    storeAddress i = if i.da < 2000 then some i.da else none := by
  simp only [storeAddress, hk]

/-- Settles O33: the store made and the store refused. -/
theorem storeFrame : Obligations.StoreFrame := by
  intro i s t hk hr h
  obtain ⟨u, hu, ht⟩ := exec_effected hr i t h
  obtain ⟨hpr, hop, hrest, hhost⟩ := exec_frame hr h hu ht
  have haddr := storeAddress_of_store hk
  cases hu with
  | store hs w hlt hstd =>
    rw [if_pos hlt] at haddr
    refine ⟨ht.up, ht.lo, ht.overflow, hpr, hop, hrest, hhost, fun da ia hi => ht.dist.trans (hstd da ia hi),
      fun hn => (by cases haddr.symm.trans hn), fun _ => ht.storageSelection, fun a ha => ?_, fun a ha hwf => ?_⟩
    · rw [ht.drum]
      exact Memory.read_write_ne fun hx => ha (hx ▸ haddr)
    · cases haddr.symm.trans ha
      rw [ht.drum, ht.dist]
      exact Memory.read_write_self hwf i.da w
  | refused hs w hle hstd =>
    rw [if_neg (by omega)] at haddr
    exact ⟨ht.up, ht.lo, ht.overflow, hpr, hop, hrest, hhost, fun da ia hi => ht.dist.trans (hstd da ia hi),
      fun _ => ht.storageSelection, fun hn => absurd haddr hn, fun a _ => by rw [ht.drum],
      fun a ha => by cases haddr.symm.trans ha⟩
  | control hc => cases hk.symm.trans hc
  | load hl => cases hk.symm.trans hl
  | arithmetic ha => rcases ha with ha | ha | ha | ha <;> cases hk.symm.trans ha

/-- Settles O34: the effect of the arithmetic kinds. -/
theorem arithmeticFrame : Obligations.ArithmeticFrame := by
  intro i s t hk hr h
  obtain ⟨u, hu, ht⟩ := exec_effected hr i t h
  obtain ⟨hpr, hop, hrest, hhost⟩ := exec_frame hr h hu ht
  cases hu with
  | arithmetic ha w up lo ov hw hov hup =>
    refine ⟨hw.trans (congrArg Except.ok ht.dist.symm), ht.storageSelection, hpr, hop, hrest, hhost, fun hreset => ?_,
      fun a => by rw [ht.drum]⟩
    rcases hov with hov | ⟨-, hne⟩
    · exact ht.overflow.trans hov
    · exact absurd hreset hne
  | control hc => simp [hc] at hk
  | load hl => simp [hl] at hk
  | store hs | refused hs => simp [hs] at hk

/-- Settles O35: of the effects only the arithmetic one writes UP, and it names the operations that write its sign. -/
theorem upperSignWriters : Obligations.UpperSignWriters := by
  intro i s t hr h hne
  obtain ⟨u, hu, ht⟩ := exec_effected hr i t h
  rw [ht.up] at hne
  cases hu with
  | arithmetic ha w up lo ov hw hov hup => exact hup.resolve_left hne
  | control | load | store | refused => exact absurd rfl hne

/-- Settles O36: overflow is written by the arithmetic effect alone, storage_selection by a refused store. -/
theorem flagsRiseOnlyByTheirOperations : Obligations.FlagsRiseOnlyByTheirOperations := by
  intro i s t hr h
  obtain ⟨u, hu, ht⟩ := exec_effected hr i t h
  rw [ht.overflow, ht.storageSelection]
  cases hu with
  | arithmetic ha w up lo ov hw hov hup =>
    refine ⟨fun hne => ?_, fun hne => absurd rfl hne⟩
    obtain ⟨htrue, hreset⟩ := hov.resolve_left hne
    exact ⟨htrue, ha.imp_right fun ha => ha.resolve_left hreset⟩
  | refused hs w hle hstd => exact ⟨fun hne => absurd rfl hne, fun _ => ⟨rfl, hs, hle⟩⟩
  | control | load | store => exact ⟨fun hne => absurd rfl hne, fun hne => absurd rfl hne⟩

end Sys2Proof.Machine

namespace Sys2Proof.Machine

/-! ### What a step leaves of the host's state (spec/10_state.md, spec/60_exceptions.md) -/

/-- No step of the instruction sequence writes the host's state. -/
theorem instructionStep_kept {s t : State} (h : (instructionStep s).state? = some t) : HostStateKept s t := by
  unfold instructionStep at h
  split at h
  · unfold fetchStep at h
    split at h
    · cases h
    · split at h
      · split at h <;> cases h
        constructor <;> rfl
      · cases h; exact HostStateKept.refl s
  · unfold splitStep at h
    split at h
    · cases h
    · split at h <;> cases h
      constructor <;> rfl
  · unfold nextAddressStep at h
    split at h
    · cases h
    · split at h <;> cases h
      constructor <;> rfl
  · cases h; exact HostStateKept.refl s

theorem tick_kept (s : State) (ic : Nat) : HostStateKept s (tick { s with ic := ic }) := by constructor <;> rfl

/-- No instruction half-cycle, from whatever state, writes the host's state. -/
theorem instructionLoop_kept {n : Nat} {s t : State} (h : instructionLoop n s = .ok t) : HostStateKept s t := by
  induction n generalizing s with
  | zero => cases h
  | succ n ih =>
    have hstep : ∀ u, (instructionStep s).state? = some u → HostStateKept s u := fun _ => instructionStep_kept
    rw [instructionLoop_succ] at h
    split at h
    · split at h
      case h_1 u hu => exact (hstep u (by rw [hu]; rfl)).trans ((tick_kept u _).trans (ih h))
      case h_2 u hu => exact (hstep u (by rw [hu]; rfl)).trans ((tick_kept u u.ic).trans (ih h))
      case h_3 u hu =>
        have hkept := (hstep u (by rw [hu]; rfl)).trans (tick_kept u u.ic)
        cases h
        exact hkept
      case h_4 => cases h
    · cases h; exact HostStateKept.refl _

theorem instructionHalfCycle_kept {s t : State} (h : instructionHalfCycle s = .ok t) : HostStateKept s t := by
  unfold instructionHalfCycle at h
  split at h
  · exact (show HostStateKept s { s with ic := 0 } by constructor <;> rfl).trans (instructionLoop_kept h)
  · exact instructionLoop_kept h

theorem dueDataHalfCycle_kept {s t : State} (h : dueDataHalfCycle s = .next t) : HostStateKept s t := by
  unfold dueDataHalfCycle at h
  split at h
  · exact (exec_kept h).1
  · cases h

/-- No pass in an automatic mode, from whatever state, writes the host's state. -/
theorem automaticPass_kept {s t : State} (h : automaticPass s = .next t) : HostStateKept s t := by
  unfold automaticPass at h
  split at h
  · exact dueDataHalfCycle_kept h
  · split at h
    · cases h
    · next u hu =>
      have hkept := instructionHalfCycle_kept hu
      split at h
      · cases h; exact hkept
      · exact hkept.trans (dueDataHalfCycle_kept h)

/-- What no step of either form writes: the parameters and the two flags of the host (R34, R35). -/
theorem step_kept {s t : State} (h : step s = .next t) :
    t.params = s.params ∧ t.clocking = s.clocking ∧ t.errorSense = s.errorSense := by
  by_cases ha : automatic s = true
  · have hkept := automaticPass_kept (automaticPass_of_step ha h).2
    exact ⟨hkept.params, hkept.clocking, hkept.errorSense⟩
  · obtain ⟨da, he⟩ := manualProgramStart_effect (manualProgramStart_of_step (manual_of_not_automatic ha) h).2
    rw [he.kept]
    exact ⟨rfl, rfl, rfl⟩

/-! ### The host calls (spec/44_console_operations.md) -/

/-- Leaving manual mode with a data half-cycle due (R236). -/
theorem setControlMode_resynchronises {s : State} {m : ControlMode} (hs : s.controlMode = .manual) (hm : m ≠ .manual)
    (hh : s.halfCycle = .data) :
    setControlMode m s = { s with controlMode := m, halfCycle := .instruction, op := none, ar := none, ic := 0 } := by
  have hr : resynchronises m s = true := by simp [resynchronises, hs, hm, hh]
  simp only [setControlMode, hr, if_true]

/-- Every other change of control mode (R236). -/
theorem setControlMode_plain {s : State} {m : ControlMode}
    (h : s.controlMode ≠ .manual ∨ m = .manual ∨ s.halfCycle = .instruction) :
    setControlMode m s = { s with controlMode := m } := by
  have hr : resynchronises m s = false := by
    rcases h with h | h | h <;> simp [resynchronises, h]
  simp only [setControlMode, hr, Bool.false_eq_true, if_false]

/-- A change of control mode re-synchronises or is the change alone (R236). -/
theorem setControlMode_cases (m : ControlMode) (s : State) :
    (s.controlMode = .manual ∧ m ≠ .manual ∧ s.halfCycle = .data) ∨
      (s.controlMode ≠ .manual ∨ m = .manual ∨ s.halfCycle = .instruction) := by
  cases s.halfCycle <;> by_cases hs : s.controlMode = .manual <;> by_cases hm : m = .manual <;> simp [hs, hm]

/-- What the power switch, time, transfer and the control-mode switch leave: the parameters and the two flags. -/
structure FlagsKept (s t : State) : Prop where
  params : t.params = s.params
  clocking : t.clocking = s.clocking
  errorSense : t.errorSense = s.errorSense

theorem powerOn_flags (s : State) : FlagsKept s (powerOn s) := by
  unfold powerOn; split <;> exact ⟨rfl, rfl, rfl⟩

theorem passSeconds_flags (n : Nat) (s : State) : FlagsKept s (passSeconds n s) := by
  unfold passSeconds; simp only; split <;> exact ⟨rfl, rfl, rfl⟩

theorem dcOn_flags (s : State) : FlagsKept s (dcOn s) := by
  unfold dcOn; split <;> exact ⟨rfl, rfl, rfl⟩

theorem transfer_flags (s : State) : FlagsKept s (transfer s) := by
  rw [transfer_eq]; split <;> exact ⟨rfl, rfl, rfl⟩

theorem setControlMode_flags (m : ControlMode) (s : State) : FlagsKept s (setControlMode m s) := by
  rcases setControlMode_cases m s with ⟨hs, hm, hh⟩ | h
  · rw [setControlMode_resynchronises hs hm hh]; exact ⟨rfl, rfl, rfl⟩
  · rw [setControlMode_plain h]; exact ⟨rfl, rfl, rfl⟩

/-- clocking after a host call (R34, R248). -/
def clockingAfter : HostCall → Bool → Bool
  | .programReset, _ => false
  | .accumulatorReset, _ => false
  | .errorReset, _ => false
  | .computerReset, _ => false
  | .bypassClocking b, _ => b
  | _, b => b

/-- error_sense after a host call (R35, R248). -/
def errorSenseAfter : HostCall → Bool → Bool
  | .errorSenseReset, _ => false
  | .computerReset, _ => false
  | .bypassErrorSense b, _ => b
  | _, b => b

/-- What every host call makes of the parameters and the two flags. -/
structure CallFlags (c : HostCall) (s t : State) : Prop where
  params : t.params = s.params
  clocking : t.clocking = clockingAfter c s.clocking
  errorSense : t.errorSense = errorSenseAfter c s.errorSense

theorem FlagsKept.call {c : HostCall} {s t : State} (h : FlagsKept s t) (hc : clockingAfter c s.clocking = s.clocking)
    (he : errorSenseAfter c s.errorSense = s.errorSense) : CallFlags c s t :=
  ⟨h.params, h.clocking.trans hc.symm, h.errorSense.trans he.symm⟩

theorem hostCall_flags {c : HostCall} {s t : State} (h : hostCall c s = some t) : CallFlags c s t := by
  cases c with
  | powerOn => cases h; exact (powerOn_flags s).call rfl rfl
  | passSeconds n => cases h; exact (passSeconds_flags n s).call rfl rfl
  | dcOn => cases h; exact (dcOn_flags s).call rfl rfl
  | transfer => cases h; exact (transfer_flags s).call rfl rfl
  | setControlMode m => cases h; exact (setControlMode_flags m s).call rfl rfl
  | computerReset => cases h; rw [computerReset_eq]; exact ⟨rfl, rfl, rfl⟩
  | setAddressEntry a | bypassDrum a w | bypassDrumIndex a =>
    simp only [hostCall] at h
    split at h <;> cases h
    exact ⟨rfl, rfl, rfl⟩
  | _ => cases h; exact ⟨rfl, rfl, rfl⟩

/-- Settles O38: the passes of an automatic mode by their frame, the steps of both forms and the host calls by theirs. -/
theorem stepLeavesHostStateAlone : Obligations.StepLeavesHostStateAlone :=
  ⟨fun _ _ ha h => automaticPass_kept (automaticPass_of_step ha h).2, fun _ _ h => (step_kept h).1,
    fun _ _ _ h => (hostCall_flags h).params⟩

theorem clockingAfter_eq_true {c : HostCall} {b : Bool} (h : clockingAfter c b = true) :
    b = true ∨ c = .bypassClocking true := by
  cases c <;> simp_all [clockingAfter]

theorem errorSenseAfter_eq_true {c : HostCall} {b : Bool} (h : errorSenseAfter c b = true) :
    b = true ∨ c = .bypassErrorSense true := by
  cases c <;> simp_all [errorSenseAfter]

theorem errorSenseAfter_eq_false {c : HostCall} (h : errorSenseAfter c true = false) :
    c = .errorSenseReset ∨ c = .computerReset ∨ c = .bypassErrorSense false := by
  cases c <;> simp_all [errorSenseAfter]

/-- Settles O37: no step writes the two flags, and each host call makes of them what its table says. -/
theorem reservedFlags : Obligations.ReservedFlags := by
  refine ⟨fun s t h => (step_kept h).2, fun c s t h => ?_, rfl, rfl⟩
  obtain ⟨-, hc, he⟩ := hostCall_flags h
  rw [hc, he]
  refine ⟨clockingAfter_eq_true, errorSenseAfter_eq_true, ?_, ?_, fun hs => hs ▸ errorSenseAfter_eq_false⟩
  · rintro (rfl | rfl | rfl | rfl) <;> rfl
  · rintro (rfl | rfl) <;> rfl

/-! #### The invariant -/

/-- Settles O39: every field of the invariant but the parameters' is a closed fact about the state at construction. -/
theorem resetSatisfiesInvariant : Obligations.ResetSatisfiesInvariant := by
  have h : ∀ p : Params, p.wf = true → Inv { State.reset with params := p } := fun p hp =>
    { params := hp, drum := rfl, drumIndex := (by decide : (0 : Nat) < 50), ar := rfl, ae := rfl, op := rfl, shiftCount := rfl,
      loopCount := rfl, fillStarted := rfl, cursors := rfl, dcNeedsPower := fun hdc => absurd hdc Bool.false_ne_true,
      masterOff := fun _ => rfl }
  exact ⟨h defaultParams (by decide), h⟩

theorem Inv.powerOn {s : State} (hs : Inv s) : Inv (powerOn s) := by
  by_cases h : s.power = true ∨ s.masterDisabled = true
  · rw [powerOn_noop h]; exact hs
  · obtain ⟨hp, hm⟩ : s.power = false ∧ s.masterDisabled = false := by simpa using h
    rw [powerOn_eq hp hm]
    exact { hs with
      dcNeedsPower := fun hdc => absurd hdc (by simp [hs.dc_off hp])
      masterOff := fun hm' => absurd hm' (by simp [hm]) }

theorem Inv.powerOff {s : State} (hs : Inv s) : Inv (powerOff s) :=
  { hs with dcNeedsPower := fun hdc => absurd hdc Bool.false_ne_true, masterOff := fun _ => rfl }

theorem Inv.masterPowerOff {s : State} (hs : Inv s) : Inv (masterPowerOff s) :=
  { hs with dcNeedsPower := fun hdc => absurd hdc Bool.false_ne_true, masterOff := fun _ => rfl }

theorem Inv.passSeconds {s : State} (hs : Inv s) (n : Nat) : Inv (passSeconds n s) := by
  by_cases h : s.power = true ∧ s.dcAutoFired = false ∧ 180 ≤ s.elapsed + n
  · obtain ⟨hp, hd, he⟩ := h
    rw [passSeconds_of_fires hp hd he]
    exact { hs with dcNeedsPower := fun _ => ⟨hp, he⟩ }
  · rw [passSeconds_of_not_fires h]
    exact { hs with dcNeedsPower := fun hdc => (hs.dcNeedsPower hdc).imp_right (Nat.le_add_right_of_le) }

theorem Inv.dcOn {s : State} (hs : Inv s) : Inv (dcOn s) := by
  by_cases h : s.power = false ∨ s.elapsed < 180
  · rw [dcOn_noop h]; exact hs
  · obtain ⟨hp, he⟩ : s.power = true ∧ 180 ≤ s.elapsed := by simpa using h
    rw [dcOn_of_permitted hp he]
    exact { hs with dcNeedsPower := fun _ => ⟨hp, he⟩ }

theorem Inv.dcOff {s : State} (hs : Inv s) : Inv (dcOff s) :=
  { hs with dcNeedsPower := fun hdc => absurd hdc Bool.false_ne_true }

/-- transfer in manual mode, where AR need not hold the address of the program register's word (R233). -/
theorem Inv.transfer {s : State} (hs : Inv s) : Inv (transfer s) := by
  rw [transfer_eq]
  split
  · next hm =>
    have hcursors : cursorsAgree { s with ar := s.ae } = true := by
      have h := hs.cursors
      simpa [cursorsAgree, dataDue, hm] using h
    exact { hs with ar := hs.ae, cursors := hcursors }
  · exact hs

/-- The registers still agree on a due data half-cycle after a change of control mode that is not out of manual mode. -/
theorem dataDue_controlMode {s : State} {m : ControlMode} (h : dataDue s = true)
    (hm : s.controlMode ≠ .manual ∨ m = .manual) : dataDue { s with controlMode := m } = true := by
  simp only [dataDue] at h ⊢
  split at h
  · cases h
  · simp only [Bool.and_eq_true, Bool.or_eq_true, decide_eq_true_eq] at h ⊢
    obtain ⟨hword, har⟩ := h
    exact ⟨hword, hm.elim (fun hne => .inr (har.resolve_left hne)) .inl⟩

/-- A change of control mode keeps a due data half-cycle that the registers still agree on, and re-synchronises one that
transfer may have broken (R236). -/
theorem Inv.setControlMode {s : State} (hs : Inv s) (m : ControlMode) : Inv (setControlMode m s) := by
  rcases setControlMode_cases m s with ⟨hman, hm, hh⟩ | h
  · rw [setControlMode_resynchronises hman hm hh]
    exact { hs with ar := rfl, op := rfl, cursors := rfl }
  · rw [setControlMode_plain h]
    have hcursors : cursorsAgree { s with controlMode := m } = true := by
      cases hh : s.halfCycle with
      | instruction => simpa [cursorsAgree, hh] using hs.cursors
      | data =>
        have hc := hs.cursors
        simp only [cursorsAgree, hh, Bool.and_eq_true] at hc ⊢
        obtain ⟨hic, hdue⟩ := hc
        refine ⟨hic, dataDue_controlMode hdue ?_⟩
        simpa [hh] using h
    exact { hs with cursors := hcursors }

theorem Inv.programReset {s : State} (hs : Inv s) : Inv (programReset s) :=
  { hs with
    ar := by
      show belowIfSet 10000 (resetAddress s.controlMode) = true
      rw [resetAddress_eq]
      split <;> rfl
    op := rfl, shiftCount := rfl, loopCount := rfl, fillStarted := rfl, cursors := rfl }

theorem Inv.computerReset {s : State} (hs : Inv s) : Inv (computerReset s) := by
  rw [computerReset_eq]
  exact { hs.programReset with }

/-- Settles O41: call by call; those not named write nothing the invariant reads. -/
theorem hostCallsKeepInvariant : Obligations.HostCallsKeepInvariant := by
  intro c s t hs h
  cases c with
  | powerOn => cases h; exact hs.powerOn
  | powerOff => cases h; exact hs.powerOff
  | passSeconds n => cases h; exact hs.passSeconds n
  | dcOn => cases h; exact hs.dcOn
  | dcOff => cases h; exact hs.dcOff
  | masterPowerOff => cases h; exact hs.masterPowerOff
  | transfer => cases h; exact hs.transfer
  | setControlMode m => cases h; exact hs.setControlMode m
  | programReset => cases h; exact hs.programReset
  | computerReset => cases h; exact hs.computerReset
  | setAddressEntry a =>
    simp only [hostCall] at h
    split at h <;> cases h
    next ha => exact { hs with ae := ha }
  | bypassDrum a w =>
    simp only [hostCall] at h
    split at h <;> cases h
    next ha => exact { hs with drum := Memory.wf_write ha hs.drum }
  | bypassDrumIndex d =>
    simp only [hostCall] at h
    split at h <;> cases h
    next hd => exact { hs with drumIndex := hd }
  | _ => cases h; exact { hs with }

/-! #### Power (spec/60_exceptions.md) -/

/-- The master switch is thrown and power is off (R286). -/
structure OffForEver (s : State) : Prop where
  masterDisabled : s.masterDisabled = true
  power : s.power = false

theorem passSeconds_masterDisabled (n : Nat) (s : State) : (passSeconds n s).masterDisabled = s.masterDisabled := by
  unfold passSeconds; simp only; split <;> rfl

/-- What a call does that is not of the power switch: it leaves the switch and power. -/
theorem OffForEver.congr {s t : State} (h : OffForEver s) (hm : t.masterDisabled = s.masterDisabled)
    (hp : t.power = s.power) : OffForEver t :=
  ⟨hm.trans h.masterDisabled, hp.trans h.power⟩

/-- No host call brings back a machine whose master switch is off (R286). -/
theorem OffForEver.hostCall {c : HostCall} {s t : State} (hs : OffForEver s) (h : hostCall c s = some t) : OffForEver t := by
  cases c with
  | powerOn => cases h; rw [powerOn_noop (.inr hs.masterDisabled)]; exact hs
  | powerOff => cases h; exact ⟨hs.masterDisabled, rfl⟩
  | passSeconds n => cases h; exact hs.congr (passSeconds_masterDisabled n s) (passSeconds_power n s)
  | dcOn => cases h; rw [dcOn_noop (.inl hs.power)]; exact hs
  | masterPowerOff => cases h; exact ⟨rfl, rfl⟩
  | transfer => cases h; rw [transfer_eq]; split <;> exact hs.congr rfl rfl
  | setControlMode m =>
    cases h
    rcases setControlMode_cases m s with ⟨hman, hm, hh⟩ | hp
    · rw [setControlMode_resynchronises hman hm hh]; exact hs.congr rfl rfl
    · rw [setControlMode_plain hp]; exact hs.congr rfl rfl
  | computerReset =>
    cases h
    exact hs.congr (computerReset_kept s).masterDisabled (computerReset_kept s).power
  | setAddressEntry a | bypassDrum a w | bypassDrumIndex a =>
    simp only [Machine.hostCall] at h
    split at h <;> cases h
    exact hs.congr rfl rfl
  | _ => cases h; exact hs.congr rfl rfl

/-- Nor does any sequence of host calls. -/
theorem OffForEver.hostCalls {calls : List HostCall} {s t : State} (hs : OffForEver s)
    (h : calls.foldlM (fun u c => Machine.hostCall c u) s = some t) : OffForEver t := by
  induction calls generalizing s with
  | nil => cases h; exact hs
  | cons c calls ih =>
    rw [List.foldlM_cons] at h
    obtain ⟨u, hu, hrest⟩ := Option.bind_eq_some_iff.mp h
    exact ih (hs.hostCall hu) hrest

/-- Settles O53: the master switch puts the machine in a state no host call leaves, and that state is not ready. -/
theorem masterPowerOffIsPermanent : Obligations.MasterPowerOffIsPermanent := by
  refine fun s => ⟨rfl, fun calls t h => ?_⟩
  have ht : OffForEver t := OffForEver.hostCalls ⟨rfl, rfl⟩ h
  refine ⟨ht.masterDisabled, ht.power, powerOn_noop (.inr ht.masterDisabled), step_of_not_ready ?_⟩
  simp [isReady, ht.power]

end Sys2Proof.Machine

namespace Sys2Proof.Machine

/-! ### Resets, construction and power (spec/70_reset_and_hazards.md, spec/60_exceptions.md) -/

/-- Settles O46: program_reset by its entry address, computer_reset by its three parts. -/
theorem programAndComputerReset : Obligations.ProgramAndComputerReset := by
  intro s entry
  refine ⟨?_, computerReset_eq s, ?_⟩
  · have hentry : resetAddress s.controlMode = entry := resetAddress_eq s.controlMode
    rw [← hentry]
    rfl
  · rw [computerReset_eq]
    exact ⟨rfl, rfl, rfl, rfl⟩

/-- Settles O49: field by field. -/
theorem constructionValues : Obligations.ConstructionValues :=
  ⟨rfl, rfl, rfl, rfl, rfl, rfl, rfl, rfl, rfl, rfl, rfl, rfl, rfl, rfl, rfl, rfl, rfl, rfl, rfl, rfl, rfl, rfl, rfl, rfl,
    rfl, rfl, rfl⟩

/-- Settles O51: power_on by its two cases. -/
theorem powerOnRule : Obligations.PowerOnRule := by
  refine fun s => ⟨powerOn_noop, fun hp hm => ⟨powerOn_eq hp hm, fun hs => ?_⟩, rfl⟩
  rw [powerOn_eq hp hm]
  exact hs.dc_off hp

/-- While power is on the blower is (R289). -/
theorem isBlowerOn_of_power {s : State} (h : s.power = true) : isBlowerOn s = true := by
  rw [isBlowerOn, h, Bool.true_or]

/-- With power and the master switch off the blower is off (R289). -/
theorem isBlowerOn_of_masterDisabled {s : State} (hp : s.power = false) (hm : s.masterDisabled = true) :
    isBlowerOn s = false := by
  rw [isBlowerOn, hp, hm]
  rfl

/-- With power off and the master switch on, the blower runs on for 300 seconds where a power_off has followed a power_on
or the open parameter lets it (R289). -/
theorem isBlowerOn_off {s : State} (hp : s.power = false) (hm : s.masterDisabled = false) :
    isBlowerOn s = ((s.poweredOffOnce || blowerUnpowered s.params) && decide (s.elapsed < 300)) := by
  simp only [isBlowerOn, hp, hm, Bool.false_or, Bool.not_false, Bool.true_and]

/-- Time passed after a power_off moves the clock alone (R283). -/
theorem passSeconds_powerOff (n : Nat) (s : State) : passSeconds n (powerOff s) = { powerOff s with elapsed := 0 + n } :=
  passSeconds_of_not_fires fun h => absurd h.1 Bool.false_ne_true

/-- Settles O54: by whether power is on, and by the master switch where it is not. -/
theorem blowerRunsOn : Obligations.BlowerRunsOn := by
  refine fun s n => ⟨isBlowerOn_of_power, fun h hm => ?_, isBlowerOn_of_masterDisabled rfl rfl, fun b hb hp ho hm => ?_⟩
  · have honce : (s.poweredOffOnce || s.power) = true := by
      rcases h with h | h <;> simp [h]
    rw [passSeconds_powerOff]
    refine (isBlowerOn_off (s := { powerOff s with elapsed := 0 + n }) rfl hm).trans ?_
    simp only [powerOff, honce, Bool.true_or, Bool.true_and, Nat.zero_add]
  · rw [isBlowerOn_off hp hm, ho, blowerUnpowered, hb, Option.getD_some, Bool.false_or]

/-! ### The console (spec/44_console_operations.md) -/

/-- The storage-selection query is the stored flag or a non-blank AR outside the valid set (R262). -/
theorem storageSelectionError_iff (s : State) :
    storageSelectionError s = true ↔ s.storageSelection = true ∨ ∃ a, s.ar = some a ∧ validAddress a = false := by
  rw [storageSelectionError, Bool.or_eq_true]
  cases s.ar <;> simp

/-- Settles O55: transfer by control mode. -/
theorem transferOnlyInManualMode : Obligations.TransferOnlyInManualMode := by
  intro s
  have hmanual : s.controlMode = .manual → transfer s = { s with ar := s.ae } := fun hm => by rw [transfer_eq, if_pos hm]
  refine ⟨hmanual, fun hm => by rw [transfer_eq, if_neg hm], fun hm a ha hva => ?_, fun hm hh m => ?_⟩
  · rw [hmanual hm]
    exact (storageSelectionError_iff _).mpr (.inr ⟨a, ha, hva⟩)
  · rw [hmanual hm]
    exact congrArg State.ar (setControlMode_plain (s := { s with ar := s.ae }) (.inr (.inr hh)))

/-- A write to a drum address writes its cell (R76). -/
theorem memWrite_drum {s : State} {a : Nat} (w : Word) (h : a < 2000) :
    memWrite s a w = { s with drum := Memory.write s.drum a w } := by
  rcases memWrite_cases s a w with ⟨rfl, -⟩ | ⟨rfl, -⟩ | ⟨rfl, -⟩ | ⟨rfl, -⟩ | ⟨-, he⟩ | ⟨hv, -⟩
  · omega
  · omega
  · omega
  · omega
  · exact he
  · rw [validAddress_eq_false_iff] at hv; omega

/-- A write outside the valid set sets the storage-selection flag (R76). -/
theorem memWrite_invalid {s : State} {a : Nat} (w : Word) (h : validAddress a = false) :
    memWrite s a w = { s with storageSelection := true } := by
  rw [validAddress_eq_false_iff] at h
  rcases memWrite_cases s a w with ⟨rfl, -⟩ | ⟨rfl, -⟩ | ⟨rfl, -⟩ | ⟨rfl, -⟩ | ⟨hlt, -⟩ | ⟨-, he⟩
  · omega
  · omega
  · omega
  · omega
  · omega
  · exact he

/-- Settles O56: the one-shot by display mode, and the write by the part of the address map AR names. -/
theorem manualReadIn : Obligations.ManualReadIn := by
  refine fun s hr hm => ⟨fun hi ho => (step_manual hr hm).trans (manualProgramStart_load hi ho), fun hi =>
    ⟨fun ha => (step_manual hr hm).trans (manualProgramStart_blank (.inl hi) ha), fun a ha => ?_⟩⟩
  have hstep : step s = .next (memWrite { s with dist := s.se } a s.se) :=
    (step_manual hr hm).trans (manualProgramStart_readIn hi ha)
  rw [hstep]
  refine ⟨fun hlt => congrArg _ (memWrite_drum s.se hlt), ?_, ?_, ?_, fun hv => congrArg _ (memWrite_invalid s.se hv)⟩
  · rintro (rfl | rfl) <;> rfl
  · rintro rfl; rfl
  · rintro rfl; rfl

/-- Every address but its own reads the same whatever the distributor holds (R75). -/
theorem memRead_withDistributor {s : State} {a : Nat} (w : Word) (h : a ≠ 8001) :
    memRead { s with dist := w } a = memRead s a := by
  simp only [memRead, Config.distributorAddress, if_neg h]

/-- Settles O57: read-out reads as the gated load does, but after the switches have gone to the distributor. -/
theorem manualReadOut : Obligations.ManualReadOut := by
  intro s hr hm ho
  have hdisplay : ∀ w, display { s with dist := w } = .word w := fun w => by simp only [display, ho]
  refine ⟨fun a w ha hne hw => ?_, fun ha => ?_, fun a ha hv => ?_, fun ha => ?_⟩
  · exact ⟨_, (step_manual hr hm).trans (manualProgramStart_readOut ho ha ((memRead_withDistributor s.se hne).trans hw)),
      rfl, hdisplay w⟩
  · exact ⟨_, (step_manual hr hm).trans (manualProgramStart_readOut ho ha (memRead_distributor _)), rfl, hdisplay s.se⟩
  · exact (step_manual hr hm).trans (manualProgramStart_readOutFault ho ha (memRead_invalid hv))
  · exact (step_manual hr hm).trans (manualProgramStart_blank (.inr ho) ha)

/-- Settles O58: the re-synchronised machine is in an automatic mode with a fetch due at a blank AR. -/
theorem leavingManualMidInstruction : Obligations.LeavingManualMidInstruction := by
  refine fun s m => ⟨fun hs hm hh => ?_, setControlMode_plain⟩
  rw [setControlMode_resynchronises hs hm hh]
  refine ⟨rfl, fun hr => ?_⟩
  exact step_of_instruction_fault hr (decide_eq_true hm) rfl (instructionHalfCycle_blank rfl (.inl rfl) rfl)

/-- A drum cell that has been written is what the bypass reads there (R89, R248). -/
theorem getDrum_write {s : State} {a : Nat} (w : Word) (ha : a < 2000) (hwf : Memory.wf s.drum = true) :
    getDrum a { s with drum := Memory.write s.drum a w } = some w := by
  rw [getDrum, if_pos ha, Memory.read_write_self hwf]

/-- Settles O59: each setter is its update of the state, those with a domain within it. -/
theorem settersStoreTheirValue : Obligations.SettersStoreTheirValue := by
  refine fun s => ⟨fun _ => rfl, fun _ => rfl, fun _ => rfl, fun _ => rfl, fun w => ⟨rfl, memRead_storageEntry _⟩,
    fun a ha => if_pos (decide_eq_true ha), fun a w ha => ⟨if_pos ha, getDrum_write w ha⟩, fun _ => rfl,
    fun _ => ⟨rfl, rfl, rfl⟩, fun _ => ⟨rfl, rfl⟩⟩

/-- A word is not valid where one of its ten digits is not decimal (R100). -/
theorem valid_eq_false_iff (w : Word) : w.valid = false ↔ ∃ k, 1 ≤ k ∧ k ≤ 10 ∧ (digitOf w k).isDecimal = false := by
  constructor
  · intro h
    by_contra hall
    have hdec : ∀ k, 1 ≤ k → k ≤ 10 → (digitOf w k).isDecimal = true := fun k h1 h2 =>
      eq_true_of_ne_false fun hk => hall ⟨k, h1, h2, hk⟩
    have hv : w.valid = true := by
      simp only [Word.valid, Bool.and_eq_true, and_assoc]
      exact ⟨hdec 10 (by decide) (by decide), hdec 9 (by decide) (by decide), hdec 8 (by decide) (by decide),
        hdec 7 (by decide) (by decide), hdec 6 (by decide) (by decide), hdec 5 (by decide) (by decide),
        hdec 4 (by decide) (by decide), hdec 3 (by decide) (by decide), hdec 2 (by decide) (by decide),
        hdec 1 (by decide) (by decide)⟩
    exact absurd h (by simp [hv])
  · rintro ⟨k, h1, h2, hk⟩
    interval_cases k <;> simp only [digitOf] at hk <;> simp [Word.valid, hk]

/-- The validity query is true where DIST, UP, LO or a non-blank PR is not valid (R36, R245). -/
theorem validityError_iff (s : State) :
    validityError s = true ↔ ∃ w, (w = s.dist ∨ w = s.up ∨ w = s.lo ∨ s.pr = some w) ∧ w.valid = false := by
  rw [validityError]
  cases s.pr <;> simp [or_and_right, exists_or, or_assoc]

/-- Settles O60: the display by its modes, the queries by their registers. -/
theorem displayAndQueries : Obligations.DisplayAndQueries := by
  intro s
  refine ⟨fun h => by rw [display, h], fun h => by rw [display, h], fun w h hw => by simp only [display, h, hw],
    fun h hw => by simp only [display, h, hw], ?_, rfl, rfl, by simp [dataAddressQuery], ?_, rfl, rfl, ?_, rfl, rfl, ?_⟩
  · rintro (h | h | h) <;> rw [display, h]
  · rw [instructionAddressQuery, dataAddressQuery]
    cases s.halfCycle <;> rfl
  · simp only [storageSelectionError_iff, validAddress_eq_false_iff]
  · simp only [validityError_iff, valid_eq_false_iff]
    constructor
    · rintro ⟨w, hw, k, hk⟩
      exact ⟨w, k, hw, hk⟩
    · rintro ⟨w, k, hw, hk⟩
      exact ⟨w, hw, k, hk⟩

end Sys2Proof.Machine
